-- ==== Sys2Proof/Word.lean ====
section
/-! DEFINITION. The word types of the PXS block (spec/00_scope.md R7). -/

namespace Sys2Proof

/-- A byte of data memory (20_memory.md R50: data memory is byte-addressed). -/
abbrev Byte := BitVec 8

/-- A register or a descriptor field (00_scope.md R7: 32-bit unsigned words). -/
abbrev Word := BitVec 32

end Sys2Proof
end

