-- ==== Sys2Proof/Config.lean ====
section
/-! DEFINITION. What an implementation of the PXS block fixes (spec/00_scope.md R6), and the free values the spec
leaves open (spec/93_implementation_defined.md). -/

namespace Sys2Proof

/-- The parameters of 00_scope.md R6. The machine's state carries one `Config` and never changes it, so a statement
about every state is a statement about every value of the parameters (log 1). -/
structure Config where
  /-- `MEM_SIZE`: bytes of data memory the engine can address, from address 0. -/
  memSize : Nat
  /-- `DW_MAX`: the largest WIDTH that DIFFUSE accepts. -/
  dwMax : Nat
  /-- `PXS_BASE`: the host address of register offset 0x00. -/
  pxsBase : Nat
  deriving DecidableEq, Repr

/-- The legal values of 00_scope.md R6. -/
def Config.legal (c : Config) : Bool :=
  decide (1 ≤ c.memSize) && decide (c.memSize ≤ 2 ^ 32) && decide (1 ≤ c.dwMax) && decide (c.dwMax ≤ 2 ^ 32 - 3)

/-- The parameters of the machine right after reset. DESIGN CHOICE (log 1): the spec leaves MEM_SIZE and PXS_BASE open
and only suggests 65535 for DW_MAX; the model takes the whole 32-bit address space, that reference value, and base 0. -/
def Config.reference : Config := { memSize := 2 ^ 32, dwMax := 65535, pxsBase := 0 }

/-- FREE VALUE (log 2): the byte of data memory at each address as power-on leaves it (20_memory.md R51: "a model
treats each byte as a draw"). -/
opaque Config.powerOnByte : Nat → Byte

/-- FREE VALUE (log 7, log 9): the n-th draw of a byte: a host read of a region the run writes (20_memory.md R70), a byte of a
written region after a reset during a run (70_reset_and_hazards.md R231). -/
opaque Config.freeByte : Nat → Byte

/-- FREE VALUE (log 10): cell j of the n-th accumulator row that a reset has left unspecified (10_state.md R38, R43;
93_implementation_defined.md U2), of the 13 bits R38 gives a cell. -/
opaque Config.freeCell : Nat → Nat → BitVec 13

/-- The cells of an accumulator row: DW_MAX + 2 (10_state.md R38). -/
def Config.rowCells (c : Config) : Nat := c.dwMax + 2

end Sys2Proof
end

