-- ==== Sys2Proof/Syntax.lean ====
section
/-! DEFINITION. The commands of the PXS block: one constructor per row of spec/opcode_table.json. -/

namespace Sys2Proof

/-- A command with the descriptor fields it uses (30_encoding.md R86). A field stands as the natural number it is
zero-extended to (R82); `Instr.wellFormed` says that it fits its 32-bit word. -/
inductive Instr where
  /-- END, 40_control.md R104. -/
  | endList
  /-- DIFFUSE, 41_dither.md R121. -/
  | diffuse (src dst width height : Nat)
  /-- SEQ_ENC, 42_transcoder.md R141. -/
  | seqEnc (src dst width height fcount : Nat)
  /-- SEQ_DEC, 42_transcoder.md R145. -/
  | seqDec (src dst width height fcount pal palLen : Nat)
  /-- STR_ENC, 42_transcoder.md R150. -/
  | strEnc (src dst width height fcount : Nat)
  /-- STR_DEC, 42_transcoder.md R154. -/
  | strDec (src dst width height fwidth fheight pal palLen : Nat)
  /-- RESOLVE, 42_transcoder.md R158. -/
  | resolve (src dst width height pal palLen : Nat)
  /-- RASTER, 43_optimizer.md R172. -/
  | raster (src dst width height rwidth : Nat)
  /-- WSEARCH, 43_optimizer.md R186. -/
  | wsearch (src fcount fwidth fheight pal palLen scratch scrLen log logLen : Nat)
  deriving DecidableEq, Repr

end Sys2Proof
end

