-- ==== Sys2Proof/WellFormed.lean ====
section
/-! DEFINITION. Which commands a descriptor can hold (spec/30_encoding.md R82). -/

namespace Sys2Proof

/-- The operands of a command, in the order of their descriptor words (30_encoding.md R81, R86). -/
def Instr.operands : Instr → List Nat
  | .endList => []
  | .diffuse src dst width height => [src, dst, width, height]
  | .seqEnc src dst width height fcount => [src, dst, width, height, fcount]
  | .seqDec src dst width height fcount pal palLen => [src, dst, width, height, fcount, pal, palLen]
  | .strEnc src dst width height fcount => [src, dst, width, height, fcount]
  | .strDec src dst width height fwidth fheight pal palLen => [src, dst, width, height, fwidth, fheight, pal, palLen]
  | .resolve src dst width height pal palLen => [src, dst, width, height, pal, palLen]
  | .raster src dst width height rwidth => [src, dst, width, height, rwidth]
  | .wsearch src fcount fwidth fheight pal palLen scratch scrLen log logLen =>
    [src, fcount, fwidth, fheight, pal, palLen, scratch, scrLen, log, logLen]

/-- A number that a descriptor field can hold: "Every field is an unsigned 32-bit number" (30_encoding.md R82). -/
def isWord (n : Nat) : Bool := decide (n < 2 ^ 32)

/-- Every operand fits its 32-bit descriptor field. -/
def Instr.wellFormed (i : Instr) : Bool := i.operands.all isWord

end Sys2Proof
end

