-- ==== Sys2Proof/Decode.lean ====
section
/-! DEFINITION. The command descriptor, its decoder and its encoder (spec/30_encoding.md). -/

namespace Sys2Proof

/-- The 16 words of a descriptor (30_encoding.md R81), each under its field's name. -/
structure Descriptor where
  cmd : Word
  src : Word
  dst : Word
  width : Word
  height : Word
  fcount : Word
  fwidth : Word
  fheight : Word
  pal : Word
  palLen : Word
  rwidth : Word
  scratch : Word
  scrLen : Word
  log : Word
  logLen : Word
  rsvd : Word
  deriving DecidableEq, Repr

/-- Why a descriptor is no command (30_encoding.md R84), in the order of the checks. -/
inductive DecodeError where
  /-- OPC is 0x09 to 0xFF. -/
  | badOpcode (opc : Nat)
  /-- CMD bits 31:8 are not zero. -/
  | cmdReserved
  /-- Word 15 is not zero. -/
  | rsvdNonzero
  deriving DecidableEq, Repr

/-- Why a string of bytes is no command: too short for one descriptor, or a rejected descriptor. -/
inductive BytesError where
  | truncated (length : Nat)
  | rejected (e : DecodeError)
  deriving DecidableEq, Repr

/-! ### Byte order (20_memory.md R53) -/

/-- The number whose little-endian bytes are given: the byte at the lowest address is least significant. -/
def leValue : List Byte → Nat
  | [] => 0
  | b :: bs => b.toNat + 256 * leValue bs

/-- The `n` low bytes of a number, lowest address first. -/
def leBytes : Nat → Nat → List Byte
  | 0, _ => []
  | n + 1, v => BitVec.ofNat 8 v :: leBytes n (v / 256)

/-! ### Descriptors as words and bytes -/

/-- The descriptor with word j equal to `w j` (30_encoding.md R80, R81). -/
def Descriptor.ofWords (w : Nat → Word) : Descriptor :=
  { cmd := w 0, src := w 1, dst := w 2, width := w 3, height := w 4, fcount := w 5, fwidth := w 6, fheight := w 7,
    pal := w 8, palLen := w 9, rwidth := w 10, scratch := w 11, scrLen := w 12, log := w 13, logLen := w 14,
    rsvd := w 15 }

/-- The 16 words, word 0 first. -/
def Descriptor.words (d : Descriptor) : List Word :=
  [d.cmd, d.src, d.dst, d.width, d.height, d.fcount, d.fwidth, d.fheight,
   d.pal, d.palLen, d.rwidth, d.scratch, d.scrLen, d.log, d.logLen, d.rsvd]

/-- The 64 bytes as data memory holds them, lowest address first. -/
def Descriptor.toBytes (d : Descriptor) : List Byte := d.words.flatMap (fun w => leBytes 4 w.toNat)

/-- The descriptor in the first 64 bytes of a list: word j is bytes 4·j to 4·j + 3, little-endian. -/
def Descriptor.ofBytes (bs : List Byte) : Descriptor :=
  Descriptor.ofWords (fun j => BitVec.ofNat 32 (leValue ((bs.drop (4 * j)).take 4)))

/-! ### The decoder (30_encoding.md R87) -/

/-- OPC: CMD bits 7:0 (30_encoding.md R81). -/
def Descriptor.opc (d : Descriptor) : Nat := (d.cmd.extractLsb' 0 8).toNat

/-- CMD bits 31:8, reserved (30_encoding.md R81). -/
def Descriptor.cmdRsvd (d : Descriptor) : Nat := (d.cmd.extractLsb' 8 24).toNat

/-- The decoding procedure of 30_encoding.md R87: opcode, then word 0 bits 31:8, then word 15, then the command with
the fields R86 gives it. -/
def decode (d : Descriptor) : Except DecodeError Instr :=
  if d.opc > 0x08 then .error (.badOpcode d.opc)
  else if d.cmdRsvd ≠ 0 then .error .cmdReserved
  else if d.rsvd ≠ 0 then .error .rsvdNonzero
  else match d.opc with
    | 0x00 => .ok .endList
    | 0x01 => .ok (.diffuse d.src.toNat d.dst.toNat d.width.toNat d.height.toNat)
    | 0x02 => .ok (.seqEnc d.src.toNat d.dst.toNat d.width.toNat d.height.toNat d.fcount.toNat)
    | 0x03 => .ok (.seqDec d.src.toNat d.dst.toNat d.width.toNat d.height.toNat d.fcount.toNat d.pal.toNat
        d.palLen.toNat)
    | 0x04 => .ok (.strEnc d.src.toNat d.dst.toNat d.width.toNat d.height.toNat d.fcount.toNat)
    | 0x05 => .ok (.strDec d.src.toNat d.dst.toNat d.width.toNat d.height.toNat d.fwidth.toNat d.fheight.toNat
        d.pal.toNat d.palLen.toNat)
    | 0x06 => .ok (.resolve d.src.toNat d.dst.toNat d.width.toNat d.height.toNat d.pal.toNat d.palLen.toNat)
    | 0x07 => .ok (.raster d.src.toNat d.dst.toNat d.width.toNat d.height.toNat d.rwidth.toNat)
    | 0x08 => .ok (.wsearch d.src.toNat d.fcount.toNat d.fwidth.toNat d.fheight.toNat d.pal.toNat d.palLen.toNat
        d.scratch.toNat d.scrLen.toNat d.log.toNat d.logLen.toNat)
    | opc => .error (.badOpcode opc)

/-- The decoder on bytes: total, and every rejection has a name. -/
def decodeBytes (bs : List Byte) : Except BytesError Instr :=
  if bs.length < 64 then .error (.truncated bs.length)
  else match decode (Descriptor.ofBytes bs) with
    | .error e => .error (.rejected e)
    | .ok i => .ok i

/-! ### The encoder (30_encoding.md R81, R83, R86) -/

/-- The all-zero descriptor: an omitted field assembles as 0 (30_encoding.md R88). -/
def Descriptor.zero : Descriptor := Descriptor.ofWords (fun _ => 0)

/-- A field's word. -/
def field (n : Nat) : Word := BitVec.ofNat 32 n

/-- The descriptor of a command: its opcode in word 0, its operands in their words, every other word 0. -/
def Instr.toDescriptor : Instr → Descriptor
  | .endList => { Descriptor.zero with cmd := 0x00 }
  | .diffuse src dst width height =>
    { Descriptor.zero with cmd := 0x01, src := field src, dst := field dst, width := field width, height := field height }
  | .seqEnc src dst width height fcount =>
    { Descriptor.zero with
      cmd := 0x02, src := field src, dst := field dst, width := field width, height := field height,
      fcount := field fcount }
  | .seqDec src dst width height fcount pal palLen =>
    { Descriptor.zero with
      cmd := 0x03, src := field src, dst := field dst, width := field width, height := field height,
      fcount := field fcount, pal := field pal, palLen := field palLen }
  | .strEnc src dst width height fcount =>
    { Descriptor.zero with
      cmd := 0x04, src := field src, dst := field dst, width := field width, height := field height,
      fcount := field fcount }
  | .strDec src dst width height fwidth fheight pal palLen =>
    { Descriptor.zero with
      cmd := 0x05, src := field src, dst := field dst, width := field width, height := field height,
      fwidth := field fwidth, fheight := field fheight, pal := field pal, palLen := field palLen }
  | .resolve src dst width height pal palLen =>
    { Descriptor.zero with
      cmd := 0x06, src := field src, dst := field dst, width := field width, height := field height,
      pal := field pal, palLen := field palLen }
  | .raster src dst width height rwidth =>
    { Descriptor.zero with
      cmd := 0x07, src := field src, dst := field dst, width := field width, height := field height,
      rwidth := field rwidth }
  | .wsearch src fcount fwidth fheight pal palLen scratch scrLen log logLen =>
    { Descriptor.zero with
      cmd := 0x08, src := field src, fcount := field fcount, fwidth := field fwidth, fheight := field fheight,
      pal := field pal, palLen := field palLen, scratch := field scratch, scrLen := field scrLen, log := field log,
      logLen := field logLen }

/-- The words of a well-formed command. -/
def encode (i : Instr) : List Word := i.toDescriptor.words

/-- The bytes of a well-formed command, lowest address first. -/
def encodeBytes (i : Instr) : List Byte := i.toDescriptor.toBytes

/-! ### The host's view of the opcode table -/

/-- The 64 bytes of the descriptor whose first `nbits` bits are those of `w` and whose other bits are 0, bit 0 the
least significant bit of word 0. -/
def tableBytes (nbits w : Nat) : List Byte := leBytes 64 (w % 2 ^ nbits)

/-- The command the decoder reads from a descriptor whose bits are `w`, numbered as spec/opcode_table.json numbers
them. -/
def decodeTableWord (nbits w : Nat) : Option Instr :=
  match decodeBytes (tableBytes nbits w) with
  | .ok i => some i
  | .error _ => none

end Sys2Proof
end

