-- ==== Sys2Proof/Machine/State.lean ====
section
/-! DEFINITION. The state of the PXS block (spec/10_state.md, spec/20_memory.md, spec/43_optimizer.md R176), the reasons
a step stops, and the state after reset (10_state.md R43). -/

namespace Sys2Proof.Machine

open Sys2Proof

/-- The error codes of 60_exceptions.md R200. `noError` is code 0x00, the value of ERR_CODE while ERR = 0. -/
inductive ErrCode where
  | noError
  | badOpcode
  | badDesc
  | empty
  | limit
  | dimMismatch
  | paletteLen
  | range
  | overlap
  | indexRange
  | encError
  deriving DecidableEq, Repr

/-- What `raise Error(code, info)` carries (00_scope.md R10). -/
structure Err where
  code : ErrCode
  info : Nat
  deriving DecidableEq, Repr

/-- The region `[base, base + len)` of data memory (00_scope.md R11). -/
structure Region where
  base : Nat
  len : Nat
  deriving DecidableEq, Repr

/-- The four channels of a pixel, in memory order (20_memory.md R55, R56). -/
inductive Chan where
  | red
  | green
  | blue
  | alpha
  deriving DecidableEq, Repr

/-- What the cells of an accumulator row hold that its list does not reach (log 10). -/
inductive RowRest where
  /-- Unspecified since a reset: the cells of the `row`-th row left so, each a free value (10_state.md R38, R43). -/
  | unspecified (row : Nat)
  /-- Zero, as the end of a pixel row leaves every cell of `nxt` (41_dither.md R124). -/
  | zero
  deriving DecidableEq, Repr

/-- An accumulator row of DW_MAX + 2 cells (10_state.md R38): the first of them, cell 0 first, and what the others hold. -/
structure Row where
  cells : List Nat
  rest : RowRest
  deriving DecidableEq, Repr

/-- One channel's two accumulator rows (10_state.md R38). -/
structure ChanRows where
  cur : Row
  nxt : Row
  deriving DecidableEq, Repr

/-- The dither accumulators of the four channels (10_state.md R38). -/
structure Accum where
  red : ChanRows
  green : ChanRows
  blue : ChanRows
  alpha : ChanRows
  deriving DecidableEq, Repr

/-- The transcoder cursor (x, f) of SEQ_ENC (10_state.md R39). -/
structure Cursor where
  x : Nat
  f : Nat
  deriving DecidableEq, Repr

/-- EncRequest (43_optimizer.md R176). -/
structure EncRequest where
  addr : Nat
  w : Nat
  h : Nat
  pal : Nat
  palLen : Nat
  k : Nat
  deriving DecidableEq, Repr

/-- EncResponse (43_optimizer.md R176): OK, and VALUE, the encoded size if OK = 1, the encoder's error code if OK = 0. -/
structure EncReply where
  ok : Bool
  value : Word
  deriving DecidableEq, Repr

/-- A message of the engine to the encoder (43_optimizer.md R176). -/
inductive PortMsg where
  | request (r : EncRequest)
  | verdict (keep : Bool) (w k : Nat)
  deriving DecidableEq, Repr

/-- The search state of a WSEARCH (10_state.md R40): its operands, S, T, CAP, NC, MAXR, and the ordinal k of the
candidate under evaluation. -/
structure Search where
  src : Nat
  pal : Nat
  palLen : Nat
  scratch : Nat
  log : Nat
  step : Nat
  total : Nat
  cap : Nat
  nCands : Nat
  maxRaster : Nat
  k : Nat
  deriving DecidableEq, Repr

/-- The engine phase (10_state.md R42). VALIDATE holds the descriptor FETCH read (20_memory.md R75). A command is one
step (40_control.md R109) but for WSEARCH, which stands in EXECUTE between steps exactly while it waits for an
EncResponse (log 3). -/
inductive Phase where
  | idle
  | fetch
  | validate (d : Descriptor)
  | execute (c : Search)
  deriving DecidableEq, Repr

/-- The other agents that reach data memory: the host (20_memory.md R70) and the encoder (R76). -/
inductive Agent where
  | host
  | encoder
  deriving DecidableEq, Repr

/-- What the outside world does to the block (log 6). Widths are in bytes. -/
inductive Event where
  /-- Nobody acts: the engine moves. -/
  | engineTurn
  /-- The host reads the register space (10_state.md R21, R35). -/
  | regRead (addr width : Nat)
  /-- The host writes the register space (10_state.md R21, R35). -/
  | regWrite (addr width : Nat) (value : Word)
  /-- Another agent reads a byte of data memory. -/
  | memRead (by_ : Agent) (addr : Nat)
  /-- Another agent writes a byte of data memory. -/
  | memWrite (by_ : Agent) (addr : Nat) (value : Byte)
  /-- The encoder sends an EncResponse (43_optimizer.md R176). -/
  | encResponse (r : EncReply)
  /-- The encoder answers a request that no longer stands: one that a reset abandoned (70_reset_and_hazards.md R231), or one
  that it has answered already (R240), a later request standing or none (log 29). -/
  | staleResponse (r : EncReply)
  /-- The reset input is asserted (70_reset_and_hazards.md R230). -/
  | reset
  deriving DecidableEq, Repr

/-- Data memory: the bytes that something has written, as (address, byte) pairs, addresses strictly rising
(20_memory.md R50). -/
abbrev Memory := List Host.Cell

/-- The whole machine. -/
structure State where
  /-- MEM_SIZE, DW_MAX and PXS_BASE (00_scope.md R6); never changed (log 1). -/
  cfg : Config
  /-- CTRL.IRQ_EN (10_state.md R24). -/
  irqEn : Bool
  /-- CTRL.WZ (10_state.md R24). -/
  wz : Bool
  /-- STATUS.DONE (10_state.md R25). -/
  done : Bool
  /-- STATUS.ERR (10_state.md R25). -/
  err : Bool
  /-- STATUS.ERR_CODE (10_state.md R25). -/
  errCode : ErrCode
  /-- CMD_BASE (10_state.md R27). -/
  cmdBase : Word
  /-- CMD_PTR (10_state.md R28): "It does not wrap", so it is held exactly (log 4). -/
  cmdPtr : Nat
  /-- CMD_COUNT (10_state.md R29). -/
  cmdCount : Word
  /-- ERR_INFO (10_state.md R30). -/
  errInfo : Word
  /-- WS_CAP (10_state.md R31). -/
  wsCap : Word
  /-- RES_W (10_state.md R32). -/
  resW : Word
  /-- RES_H (10_state.md R32). -/
  resH : Word
  /-- RES_WASTE (10_state.md R32). -/
  resWaste : Word
  /-- WS_BEST_W (10_state.md R33). -/
  wsBestW : Word
  /-- WS_BEST_H (10_state.md R33). -/
  wsBestH : Word
  /-- WS_BEST_SIZE (10_state.md R33). -/
  wsBestSize : Word
  /-- WS_EMITS (10_state.md R33). -/
  wsEmits : Word
  /-- WS_CANDS (10_state.md R33). -/
  wsCands : Word
  /-- WS_CUR_W (10_state.md R33). -/
  wsCurW : Word
  /-- WS_CUR_K (10_state.md R33). -/
  wsCurK : Word
  /-- The engine phase (10_state.md R42). -/
  phase : Phase
  /-- The dither accumulators (10_state.md R38). -/
  acc : Accum
  /-- The transcoder cursor (10_state.md R39). -/
  cursor : Cursor
  /-- The encoder's answers that the engine has not taken yet, oldest first; answers that stand here before their
  request is sent are the draws of 43_optimizer.md R177 (log 5). -/
  replies : List EncReply
  /-- The messages the engine has sent to the encoder, oldest first (43_optimizer.md R176). -/
  sent : List PortMsg
  /-- Data memory (20_memory.md R50). -/
  mem : Memory
  /-- The run's footprint so far (20_memory.md R70). -/
  footprint : List Region
  /-- The regions the run writes, of the commands so far (20_memory.md R67, 70_reset_and_hazards.md R231). After the run
  they stay until the host has seen that it has ended (20_memory.md R73). -/
  written : List Region
  /-- The written regions of earlier runs whose end the host has not seen (20_memory.md R73, log 27). -/
  unseen : List Region
  /-- MODEL'S OWN (log 8): the bytes another agent wrote during the run. -/
  foreign : List (Agent × Nat)
  /-- MODEL'S OWN (log 6): what the outside world does next, oldest first. -/
  inputs : List Event
  /-- MODEL'S OWN (log 15): what the last host read returned. -/
  hostData : Word
  /-- MODEL'S OWN (log 15): what the last encoder read returned. -/
  encData : Byte
  /-- MODEL'S OWN (log 15): how many values have been drawn. -/
  draws : Nat
  deriving DecidableEq, Repr

/-- Why the model stops with a fault. -/
inductive Fault where
  /-- Raised by a host or encoder access to data memory at an address ≥ MEM_SIZE, which does not exist (00_scope.md
  R6). Safe: the model stops where a platform would answer in its own way (log 13). -/
  | noSuchAddress
  deriving DecidableEq, Repr

/-- Why the model gives a step no meaning. -/
inductive Refusal where
  /-- Raised by `exec` for a command that has no meaning yet. Safe: nothing is claimed of it. No arm raises it. -/
  | notModelled (mnemonic : String)
  /-- Raised when the host or the encoder writes a byte of the run's footprint, or has written one that a later command
  of the run turns out to use (20_memory.md R70, R76; W1, W2). Safe: the spec itself asks for the refusal. -/
  | footprintWritten (by_ : Agent)
  /-- Raised when the encoder reads, during a run, outside the raster and the palette of its request (20_memory.md R76; W2).
  Safe: the spec itself asks for the refusal. -/
  | encoderReadOutside
  /-- Raised by an EncResponse with no request pending, or a second one to the same request (70_reset_and_hazards.md
  R240; W3). Safe: the spec itself asks for the refusal. -/
  | unexpectedResponse
  /-- Raised by an EncResponse to a request that a reset abandoned (70_reset_and_hazards.md R231; W4), or that has been
  answered already (R240; W3, log 29). Safe: the spec itself asks for the refusal. -/
  | staleResponse
  deriving DecidableEq, Repr

/-- A row whose every cell is unspecified (10_state.md R43). -/
def Row.unspecified (row : Nat) : Row := { cells := [], rest := .unspecified row }

/-- One channel's rows with every cell unspecified, the first of them row number `row`. -/
def ChanRows.unspecified (row : Nat) : ChanRows := { cur := Row.unspecified row, nxt := Row.unspecified (row + 1) }

/-- The accumulators after reset: every cell of the eight rows is unspecified (10_state.md R43), the first of them row
number `row`. -/
def Accum.unspecified (row : Nat) : Accum :=
  { red := ChanRows.unspecified row, green := ChanRows.unspecified (row + 2), blue := ChanRows.unspecified (row + 4),
    alpha := ChanRows.unspecified (row + 6) }

/-- The machine right after power-on reset (10_state.md R22, R43; 70_reset_and_hazards.md R230, R232). Every register of R22 has the
value R22 gives it; the parameters are log 1's, the cursor log 11's, the model's own fields log 15's. -/
def State.reset : State where
  cfg := Config.reference
  irqEn := false
  wz := false
  done := false
  err := false
  errCode := .noError
  cmdBase := 0
  cmdPtr := 0
  cmdCount := 0
  errInfo := 0
  wsCap := 0x000493E0
  resW := 0
  resH := 0
  resWaste := 0
  wsBestW := 0
  wsBestH := 0
  wsBestSize := 0
  wsEmits := 0
  wsCands := 0
  wsCurW := 0
  wsCurK := 0
  phase := .idle
  acc := Accum.unspecified 0
  cursor := { x := 0, f := 0 }
  replies := []
  sent := []
  mem := []
  footprint := []
  written := []
  unseen := []
  foreign := []
  inputs := []
  hostData := 0
  encData := 0
  draws := 8

end Sys2Proof.Machine
end

