-- ==== Sys2Proof/Machine/Ops.lean ====
section
/-! DEFINITION. The shared operations of the PXS block: the pseudocode primitives of spec/00_scope.md R9 to R11, data
memory, raising an error (60_exceptions.md R202), completing a command (40_control.md R103) and starting a run (R100). -/

namespace Sys2Proof.Machine

open Sys2Proof

/-! ### Pseudocode primitives (00_scope.md R9, R10) -/

/-- `ceil_div(a, b)` (00_scope.md R9). -/
def ceilDiv (a b : Nat) : Nat := (a + b - 1) / b

/-- `for i in [0, n)`: runs i = 0, 1, …, n − 1 in that order (00_scope.md R10). -/
def forRange {α : Type} : Nat → (Nat → α → α) → α → α
  | 0, _, a => a
  | n + 1, f, a => f n (forRange n f a)

/-- One check of a validation list: the error it raises if it fails. -/
def failIf (fails : Bool) (code : ErrCode) (info : Nat) : Option Err := if fails then some { code, info } else none

/-- "The first check that fails raises its error" (40_control.md R102). -/
def firstError : List (Option Err) → Option Err
  | [] => none
  | some e :: _ => some e
  | none :: cs => firstError cs

/-! ### Data memory (20_memory.md R50 to R53) -/

/-- What something has written at an address, if anything has. -/
def Memory.get? : Memory → Nat → Option Byte
  | [], _ => none
  | (b, v) :: m, a => if a = b then some v else Memory.get? m a

/-- MemRead(a, 1): the byte at an address. A byte that nothing has written is the draw of power-on (20_memory.md R51,
log 2). -/
def Memory.read (m : Memory) (a : Nat) : Byte := (m.get? a).getD (Config.powerOnByte a)

/-- MemWrite(a, 1, v), keeping the addresses strictly rising. -/
def Memory.write : Memory → Nat → Byte → Memory
  | [], a, v => [(a, v)]
  | (b, u) :: m, a, v =>
    if a < b then (a, v) :: (b, u) :: m
    else if a = b then (a, v) :: m
    else (b, u) :: Memory.write m a v

/-- The canonical form: addresses strictly rising. What is not listed has not been written (log 2). -/
abbrev Memory.wf (m : Memory) : Prop := m.Pairwise (fun x y => x.1 < y.1)

/-- Every listed address lies below a bound: nothing has been written outside data memory (20_memory.md R50). -/
abbrev Memory.below (m : Memory) (n : Nat) : Prop := ∀ x ∈ m, x.1 < n

/-- MemWrite of a list of bytes at rising addresses from `a`. -/
def Memory.writeBytes (m : Memory) (a : Nat) : List Byte → Memory
  | [] => m
  | b :: bs => Memory.writeBytes (m.write a b) (a + 1) bs

/-- The `n` bytes from `a`, lowest address first. -/
def Memory.readBytes (m : Memory) (a : Nat) : Nat → List Byte
  | 0 => []
  | n + 1 => m.read a :: Memory.readBytes m (a + 1) n

/-- MemRead(a, n): little-endian (00_scope.md R10, 20_memory.md R53). -/
def Memory.readLE (m : Memory) (a n : Nat) : Nat := leValue (m.readBytes a n)

/-- MemWrite(a, n, v): the n low bytes of v, little-endian (00_scope.md R10, 20_memory.md R53). -/
def Memory.writeLE (m : Memory) (a n v : Nat) : Memory := m.writeBytes a (leBytes n v)

/-- The n bytes from `a` become fresh draws, the first of them draw number `first` (70_reset_and_hazards.md R231,
log 9). -/
def Memory.drawBytes (m : Memory) (a n first : Nat) : Memory :=
  forRange n (fun i m => m.write (a + i) (Config.freeByte (first + i))) m

/-! ### Errors, completion, start -/

/-- `raise Error(code, info)` (60_exceptions.md R202). Going to IDLE clears BUSY and ENC_WAIT, which are views of the
phase; CMD_PTR, CMD_COUNT, RES_* and WS_* keep their values. There is no return from an error (R207): the host goes on
with `State.start`. -/
def State.raiseError (s : State) (e : Err) : State :=
  { s with errCode := e.code, errInfo := BitVec.ofNat 32 e.info, err := true, phase := .idle }

/-- Completion of a command other than END (40_control.md R103), with the values its rule gives to RES_W, RES_H and
RES_WASTE. -/
def State.complete (s : State) (w h waste : Nat) : State :=
  { s with
    resW := BitVec.ofNat 32 w, resH := BitVec.ofNat 32 h, resWaste := BitVec.ofNat 32 waste,
    cmdCount := s.cmdCount + 1, cmdPtr := s.cmdPtr + 64, phase := .fetch }

/-- START (40_control.md R100): IRQ_EN and WZ from the same write, the status cleared, CMD_PTR from CMD_BASE, BUSY set.
The new run has an empty footprint (20_memory.md R70); what earlier runs wrote and the host has not seen end stays unseen
(R73). -/
def State.start (s : State) (irqEn wz : Bool) : State :=
  { s with
    irqEn := irqEn, wz := wz, done := false, err := false, errCode := .noError, errInfo := 0, cmdCount := 0,
    cmdPtr := s.cmdBase.toNat, phase := .fetch, footprint := [], written := [], unseen := s.written ++ s.unseen,
    foreign := [] }

/-- VALIDATE then EXECUTE (40_control.md R102): the first failing check raises its error, and nothing is written;
otherwise the command has its effect. -/
def State.validated (s : State) (check : Option Err) (effect : State) :
    Host.Outcome State Fault Refusal :=
  match check with
  | some e => .next (s.raiseError e)
  | none => .next effect

end Sys2Proof.Machine
end

