-- ==== Sys2Proof/Machine/Flags.lean ====
section
/-! DEFINITION. The flags of the PXS block (spec/10_state.md R25, R37), the words STATUS and CTRL as the host reads them,
what a host write to STATUS clears (R26), and the interrupt line (60_exceptions.md R210). -/

namespace Sys2Proof.Machine

open Sys2Proof

/-- The 8-bit value of an error code (60_exceptions.md R200). -/
def ErrCode.value : ErrCode → BitVec 8
  | .noError => 0x00
  | .badOpcode => 0x01
  | .badDesc => 0x02
  | .empty => 0x03
  | .limit => 0x04
  | .dimMismatch => 0x05
  | .paletteLen => 0x06
  | .range => 0x07
  | .overlap => 0x08
  | .indexRange => 0x09
  | .encError => 0x0A

/-- STATUS.BUSY: 1 exactly outside IDLE (10_state.md R42). -/
def State.busy (s : State) : Bool := decide (s.phase ≠ .idle)

/-- STATUS.ENC_WAIT: 1 while the engine waits for an EncResponse (10_state.md R25, R42). -/
def State.encWait (s : State) : Bool :=
  match s.phase with
  | .idle => false
  | .fetch => false
  | .validate _ => false
  | .execute _ => true

/-- A flag as a number. -/
def bit (b : Bool) : Nat := if b then 1 else 0

/-- The STATUS word (10_state.md R25): bit 0 BUSY, bit 1 DONE, bit 2 ERR, bit 3 ENC_WAIT, bits 15:8 ERR_CODE, the rest 0. -/
def State.statusWord (s : State) : Word :=
  BitVec.ofNat 32
    (bit s.busy + 2 * bit s.done + 4 * bit s.err + 8 * bit s.encWait + 256 * s.errCode.value.toNat)

/-- The CTRL word (10_state.md R24): bit 0 START reads 0, bit 1 IRQ_EN, bit 2 WZ, the rest 0. -/
def State.ctrlWord (s : State) : Word := BitVec.ofNat 32 (2 * bit s.irqEn + 4 * bit s.wz)

/-- A host write of `v` to STATUS (10_state.md R26): bit 1 clears DONE, bit 2 clears ERR and ERR_CODE. -/
def State.writeStatus (s : State) (v : Word) : State :=
  { s with
    done := s.done && !v.getLsbD 1
    err := s.err && !v.getLsbD 2
    errCode := if v.getLsbD 2 then .noError else s.errCode }

/-- The interrupt line (60_exceptions.md R210). -/
def State.irq (s : State) : Bool := s.irqEn && (s.done || s.err)

end Sys2Proof.Machine
end

