-- ==== Sys2Proof/Machine/Operands.lean ====
section
/-! DEFINITION. The operand forms of the PXS commands: regions and their checks (spec/00_scope.md R11, 20_memory.md R66,
R67), buffer geometry (R54 to R63), palette lookup (R58), the index scan (60_exceptions.md R205), and the regions of
each command. -/

namespace Sys2Proof.Machine

open Sys2Proof

/-! ### Regions -/

/-- The address lies in the region (00_scope.md R11). -/
def Region.contains (r : Region) (a : Nat) : Bool := decide (r.base ≤ a) && decide (a < r.base + r.len)

/-- The extent check: `a + n ≤ MEM_SIZE`, exactly (20_memory.md R66, 00_scope.md R11). -/
def Region.fits (r : Region) (c : Config) : Bool := decide (r.base + r.len ≤ c.memSize)

/-- Two regions share at least one byte address (20_memory.md R67); an empty region overlaps nothing. -/
def Region.overlaps (r q : Region) : Bool :=
  decide (0 < r.len) && decide (0 < q.len) && decide (r.base < q.base + q.len) && decide (q.base < r.base + r.len)

/-! ### Buffer geometry -/

/-- The flat number y·W + x of element (x, y) of a buffer of width W (20_memory.md R54). -/
def flat (width x y : Nat) : Nat := y * width + x

/-- The number 0..3 of a channel (20_memory.md R55). -/
def Chan.index : Chan → Nat
  | .red => 0
  | .green => 1
  | .blue => 2
  | .alpha => 3

/-- The address of channel c of the n-th pixel of a wide buffer (20_memory.md R55). -/
def wideAddr (base n : Nat) (c : Chan) : Nat := base + 8 * n + 2 * c.index

/-- WideSample: high byte first (20_memory.md R55). -/
def wideSample (m : Memory) (base n : Nat) (c : Chan) : Nat :=
  (m.read (wideAddr base n c)).toNat * 256 + (m.read (wideAddr base n c + 1)).toNat

/-- The address of channel c of the n-th pixel of a narrow buffer (20_memory.md R56). -/
def narrowAddr (base n : Nat) (c : Chan) : Nat := base + 4 * n + c.index

/-- `for c in [0, 4)`, channel 0 first (00_scope.md R10). -/
def forChannels {α : Type} (f : Chan → α → α) (a : α) : α := f .alpha (f .blue (f .green (f .red a)))

/-- Writes the four bytes of palette entry i to the n-th narrow pixel at `dst`, one byte at a time (20_memory.md R58,
42_transcoder.md R145). -/
def writeColour (pal dst n i : Nat) (m : Memory) : Memory :=
  forChannels (fun c m => m.write (narrowAddr dst n c) (m.read (narrowAddr pal i c))) m

/-- The flat number of frame f's pixel (x, y) in a frame strip of frames Wf × Hf (20_memory.md R59). -/
def stripFlat (wf hf f x y : Nat) : Nat := (f * hf + y) * wf + x

/-- The flat number of frame f's pixel (x, y) in the stream layout and in the sequence layout of F frames of width Wf
(20_memory.md R60, R61). -/
def interleavedFlat (wf frames f x y : Nat) : Nat := (y * wf + x) * frames + f

/-- The height of the candidate raster of width w of T indices (20_memory.md R62). -/
def rasterHeight (total w : Nat) : Nat := ceilDiv total w

/-- Writes the candidate raster: n cells at `dst`, the first T of them the source's bytes, the rest 0 (20_memory.md
R62, 43_optimizer.md R172). -/
def writeRaster (src total dst n : Nat) (m : Memory) : Memory :=
  forRange n (fun i m => m.write (dst + i) (if i < total then m.read (src + i) else 0)) m

/-- Writes a log record {W, H, SIZE, K} of four little-endian words (20_memory.md R63). -/
def writeRecord (a w h size k : Nat) (m : Memory) : Memory :=
  (((m.writeLE a 4 w).writeLE (a + 4) 4 h).writeLE (a + 8) 4 size).writeLE (a + 12) 4 k

/-! ### Shared checks -/

/-- PALLEN = 0 or PALLEN > 256 (20_memory.md R58). -/
def badPalLen (palLen : Nat) : Bool := decide (palLen = 0) || decide (256 < palLen)

/-- The index scan (60_exceptions.md R205): the first of the N source bytes that is ≥ PALLEN. -/
def indexScan (m : Memory) (src n palLen : Nat) : Option Err :=
  match (List.range n).find? (fun i => decide (palLen ≤ (m.read (src + i)).toNat)) with
  | some i => some { code := .indexRange, info := i }
  | none => none

/-! ### The regions of each command (20_memory.md R67) -/

/-- A palette's region: 4·PALLEN bytes (30_encoding.md R82). -/
def palRegion (pal palLen : Nat) : Region := { base := pal, len := 4 * palLen }

/-- The read regions of a command, as its rule lists them. -/
def reads : Instr → List Region
  | .endList => []
  | .diffuse src _ width height => [{ base := src, len := 8 * (width * height) }]
  | .seqEnc src _ width height _ => [{ base := src, len := width * height }]
  | .seqDec src _ width height _ pal palLen => [{ base := src, len := width * height }, palRegion pal palLen]
  | .strEnc src _ width height _ => [{ base := src, len := width * height }]
  | .strDec src _ width height _ _ pal palLen => [{ base := src, len := width * height }, palRegion pal palLen]
  | .resolve src _ width height pal palLen => [{ base := src, len := width * height }, palRegion pal palLen]
  | .raster src _ width height _ => [{ base := src, len := width * height }]
  | .wsearch src fcount fwidth fheight pal palLen _ _ _ _ =>
    [{ base := src, len := fcount * fwidth * fheight }, palRegion pal palLen]

/-- The written regions of a command, as its rule lists them. -/
def writes : Instr → List Region
  | .endList => []
  | .diffuse _ dst width height => [{ base := dst, len := 4 * (width * height) }]
  | .seqEnc _ dst width height _ => [{ base := dst, len := width * height }]
  | .seqDec _ dst width height _ _ _ => [{ base := dst, len := 4 * (width * height) }]
  | .strEnc _ dst width height _ => [{ base := dst, len := width * height }]
  | .strDec _ dst width height _ _ _ _ => [{ base := dst, len := 4 * (width * height) }]
  | .resolve _ dst width height _ _ => [{ base := dst, len := 4 * (width * height) }]
  | .raster _ dst width height rwidth =>
    [{ base := dst, len := rwidth * rasterHeight (width * height) rwidth }]
  | .wsearch _ _ _ _ _ _ scratch scrLen log logLen => [{ base := scratch, len := scrLen }, { base := log, len := logLen }]

end Sys2Proof.Machine
end

