-- ==== Sys2Proof/Machine/Control.lean ====
section
/-! DEFINITION. The control command END (spec/40_control.md R104) and the FETCH of a descriptor (R101). -/

namespace Sys2Proof.Machine

open Sys2Proof

/-- END (40_control.md R104): BUSY <- 0, DONE <- 1, IDLE; CMD_PTR keeps END's address. -/
def execEndList (s : State) : Host.Outcome State Fault Refusal := .next { s with phase := .idle, done := true }

/-- The descriptor's region `[CMD_PTR, CMD_PTR + 64)` (20_memory.md R70). -/
def State.descRegion (s : State) : Region := { base := s.cmdPtr, len := 64 }

/-- The checks of FETCH (40_control.md R101): alignment, then range. -/
def State.fetchCheck (s : State) : Option Err :=
  firstError [
    failIf (decide (s.cmdPtr % 4 ≠ 0)) .badDesc 0x10,
    failIf (decide (s.cfg.memSize < s.cmdPtr + 64)) .range 0x10]

/-- The 16 words MemRead(CMD_PTR + 4·j, 4) (40_control.md R101). -/
def State.fetchWords (s : State) : Descriptor :=
  Descriptor.ofWords (fun j => BitVec.ofNat 32 (s.mem.readLE (s.cmdPtr + 4 * j) 4))

/-- The error a rejected descriptor raises (30_encoding.md R84, R87). -/
def decodeErr : DecodeError → Err
  | .badOpcode opc => { code := .badOpcode, info := opc }
  | .cmdReserved => { code := .badDesc, info := 0 }
  | .rsvdNonzero => { code := .badDesc, info := 15 }

end Sys2Proof.Machine
end

