-- ==== Sys2Proof/Machine/Dither.lean ====
section
/-! DEFINITION. The ditherer: DIFFUSE (spec/41_dither.md). -/

namespace Sys2Proof.Machine

open Sys2Proof

/-! ### Accumulator rows (10_state.md R38) -/

/-- A channel's rows. -/
def Accum.get (a : Accum) : Chan → ChanRows
  | .red => a.red
  | .green => a.green
  | .blue => a.blue
  | .alpha => a.alpha

/-- The accumulators with one channel's rows replaced. -/
def Accum.set (a : Accum) (c : Chan) (r : ChanRows) : Accum :=
  match c with
  | .red => { a with red := r }
  | .green => { a with green := r }
  | .blue => { a with blue := r }
  | .alpha => { a with alpha := r }

/-- Cell j where the row's list does not reach it: a free value (log 10), or 0. -/
def RowRest.cell : RowRest → Nat → Nat
  | .unspecified row, j => (Config.freeCell row j).toNat
  | .zero, _ => 0

/-- Cell j of a row. -/
def Row.cell (r : Row) (j : Nat) : Nat := r.cells.getD j (r.rest.cell j)

/-- The row's DW_MAX + 2 cells (10_state.md R38). -/
def Row.values (r : Row) (c : Config) : List Nat := (List.range c.rowCells).map r.cell

/-- Cells 0 to W + 1 become 0, the others keep their values (41_dither.md R121). -/
def Row.zeroFirst (r : Row) (width : Nat) : Row :=
  { r with cells := List.replicate (width + 2) 0 ++ r.cells.drop (width + 2) }

/-- Adds d to cell j, which is one of those DIFFUSE has zeroed. -/
def Row.add (r : Row) (j d : Nat) : Row := { r with cells := r.cells.modify j (· + d) }

/-- A row whose every cell is 0, the W + 2 that DIFFUSE uses listed (41_dither.md R124). -/
def Row.allZero (width : Nat) : Row := { cells := List.replicate (width + 2) 0, rest := .zero }

/-- Both rows as DIFFUSE leaves them before its first pixel (41_dither.md R121). -/
def ChanRows.zeroFirst (r : ChanRows) (width : Nat) : ChanRows :=
  { cur := r.cur.zeroFirst width, nxt := r.nxt.zeroFirst width }

/-- The four channels' rows as DIFFUSE leaves them before its first pixel (41_dither.md R121). -/
def Accum.zeroFirst (a : Accum) (width : Nat) : Accum :=
  { red := a.red.zeroFirst width, green := a.green.zeroFirst width, blue := a.blue.zeroFirst width,
    alpha := a.alpha.zeroFirst width }

/-- End of row for one channel (41_dither.md R124): cur takes nxt, every cell of nxt becomes 0. -/
def ChanRows.endRow (r : ChanRows) (width : Nat) : ChanRows := { cur := r.nxt, nxt := Row.allZero width }

/-- End of row (41_dither.md R124). -/
def Accum.endRow (a : Accum) (width : Nat) : Accum :=
  { red := a.red.endRow width, green := a.green.endRow width, blue := a.blue.endRow width,
    alpha := a.alpha.endRow width }

/-! ### One sample (41_dither.md R122, R123) -/

/-- Steps 1 and 2: the sample with the pending error added, clamped to [0, 65535]. -/
def ditherValue (v pending : Nat) : Nat := min (max (v + pending / 16) 0) 65535

/-- Step 3: the output channel, the clamped value's top 8 bits. -/
def ditherOut (t : Nat) : Nat := t >>> 8

/-- Step 4: the residual. -/
def ditherResidual (t : Nat) : Nat := t - (ditherOut t <<< 8)

/-- Step 5: the residual of column x goes to below-left, below, below-right and right (41_dither.md R123). -/
def ChanRows.distribute (rows : ChanRows) (x r : Nat) : ChanRows :=
  { nxt := ((rows.nxt.add x (3 * r)).add (x + 1) (5 * r)).add (x + 2) (1 * r)
    cur := rows.cur.add (x + 2) (7 * r) }

/-- One channel of one pixel (41_dither.md R121). -/
def ditherSample (src dst width x y : Nat) (c : Chan) (st : Memory × Accum) : Memory × Accum :=
  let n := flat width x y
  let rows := st.2.get c
  let t := ditherValue (wideSample st.1 src n c) (rows.cur.cell (x + 1))
  (st.1.write (narrowAddr dst n c) (BitVec.ofNat 8 (ditherOut t)),
   st.2.set c (rows.distribute x (ditherResidual t)))

/-- One row of pixels, left to right, then the end of the row (41_dither.md R121). -/
def ditherRow (src dst width y : Nat) (st : Memory × Accum) : Memory × Accum :=
  let done := forRange width (fun x st => forChannels (ditherSample src dst width x y) st) st
  (done.1, done.2.endRow width)

/-- The whole image, top to bottom, from rows whose first W + 2 cells are 0 (41_dither.md R121). -/
def ditherImage (src dst width height : Nat) (m : Memory) (a : Accum) : Memory × Accum :=
  forRange height (ditherRow src dst width) (m, a.zeroFirst width)

/-! ### The command -/

/-- The validation list of DIFFUSE (41_dither.md R121). -/
def diffuseCheck (src dst width height : Nat) (s : State) : Option Err :=
  let srcR : Region := { base := src, len := 8 * (width * height) }
  let dstR : Region := { base := dst, len := 4 * (width * height) }
  firstError [
    failIf (decide (width = 0)) .empty 3,
    failIf (decide (height = 0)) .empty 4,
    failIf (decide (s.cfg.dwMax < width)) .limit 3,
    failIf (!srcR.fits s.cfg) .range 1,
    failIf (!dstR.fits s.cfg) .range 2,
    failIf (dstR.overlaps srcR) .overlap 2]

/-- The effect of DIFFUSE once its checks have passed (41_dither.md R121). DESIGN CHOICE, unsafe (log 28): the rows keep the values
of R124's last end of row until the next DIFFUSE, where 93_implementation_defined.md U2 lets each cell be any value between
two of them. -/
def diffuseEffect (src dst width height : Nat) (s : State) : State :=
  let r := ditherImage src dst width height s.mem s.acc
  { s with mem := r.1, acc := r.2 }.complete width height 0

/-- DIFFUSE (41_dither.md R121). -/
def execDiffuse (src dst width height : Nat) (s : State) : Host.Outcome State Fault Refusal :=
  s.validated (diffuseCheck src dst width height s) (diffuseEffect src dst width height s)

end Sys2Proof.Machine
end

