-- ==== Sys2Proof/Machine/Optimizer.lean ====
section
/-! DEFINITION. The raster-width optimizer: RASTER, WSEARCH and the encoder port (spec/43_optimizer.md). -/

namespace Sys2Proof.Machine

open Sys2Proof

/-! ### RASTER -/

/-- The validation list of RASTER (43_optimizer.md R172). -/
def rasterCheck (src dst width height rwidth : Nat) (s : State) : Option Err :=
  let total := width * height
  let srcR : Region := { base := src, len := total }
  let dstR : Region := { base := dst, len := rwidth * rasterHeight total rwidth }
  firstError [
    failIf (decide (width = 0)) .empty 3,
    failIf (decide (height = 0)) .empty 4,
    failIf (decide (rwidth = 0)) .empty 10,
    failIf (!srcR.fits s.cfg) .range 1,
    failIf (!dstR.fits s.cfg) .range 2,
    failIf (dstR.overlaps srcR) .overlap 2]

/-- The effect of RASTER once its checks have passed (43_optimizer.md R172). -/
def rasterEffect (src dst width height rwidth : Nat) (s : State) : State :=
  let total := width * height
  let h := rasterHeight total rwidth
  { s with mem := writeRaster src total dst (rwidth * h) s.mem }.complete rwidth h (rwidth * h - total)

/-- RASTER (43_optimizer.md R172). -/
def execRaster (src dst width height rwidth : Nat) (s : State) : Host.Outcome State Fault Refusal :=
  s.validated (rasterCheck src dst width height rwidth s) (rasterEffect src dst width height rwidth s)

/-! ### The candidate sequence (43_optimizer.md R180) -/

/-- w_k = k·S while k·S < CAP, then CAP. -/
def candWidth (step cap k : Nat) : Nat := if cap ≤ k * step then cap else k * step

/-- NC = ceil_div(CAP, S). -/
def candCount (step cap : Nat) : Nat := ceilDiv cap step

/-- MAXR: the largest w_k·ceil_div(T, w_k) over the NC candidates (43_optimizer.md R185). -/
def maxRaster (step total cap : Nat) : Nat :=
  forRange (candCount step cap)
    (fun i m => max m (candWidth step cap (i + 1) * rasterHeight total (candWidth step cap (i + 1)))) 0

/-- The width w of the candidate under evaluation. -/
def Search.width (c : Search) : Nat := candWidth c.step c.cap c.k

/-- Its height h = ceil_div(T, w). -/
def Search.height (c : Search) : Nat := rasterHeight c.total c.width

/-- Its wasted cells w·h − T (43_optimizer.md R186). -/
def Search.waste (c : Search) : Nat := c.width * c.height - c.total

/-- It is the last candidate: k·S ≥ CAP (43_optimizer.md R186). -/
def Search.last (c : Search) : Bool := decide (c.cap ≤ c.k * c.step)

/-- The search at the next candidate. -/
def Search.next (c : Search) : Search := { c with k := c.k + 1 }

/-- The EncRequest of the candidate (43_optimizer.md R176); while the search waits, it is the port's outstanding request
(10_state.md R41). -/
def Search.request (c : Search) : EncRequest :=
  { addr := c.scratch, w := c.width, h := c.height, pal := c.pal, palLen := c.palLen, k := c.k }

/-! ### WSEARCH's validation -/

/-- The validation list of WSEARCH (43_optimizer.md R185). -/
def wsearchCheck (src fcount fwidth fheight pal palLen scratch scrLen log logLen : Nat) (s : State) : Option Err :=
  let step := fcount * fwidth
  let total := step * fheight
  let cap := s.wsCap.toNat
  let srcR : Region := { base := src, len := total }
  let palR := palRegion pal palLen
  let scrR : Region := { base := scratch, len := scrLen }
  let logR : Region := { base := log, len := logLen }
  firstError [
    failIf (decide (fcount = 0)) .empty 5,
    failIf (decide (fwidth = 0)) .empty 6,
    failIf (decide (fheight = 0)) .empty 7,
    failIf (decide (cap = 0)) .empty 0x11C,
    failIf (decide (log % 4 ≠ 0)) .badDesc 13,
    failIf (badPalLen palLen) .paletteLen 9,
    failIf (!srcR.fits s.cfg) .range 1,
    failIf (!palR.fits s.cfg) .range 8,
    failIf (!scrR.fits s.cfg) .range 11,
    failIf (!logR.fits s.cfg) .range 13,
    failIf (decide (scrLen < maxRaster step total cap)) .range 12,
    failIf (decide (logLen < 16 * candCount step cap)) .range 14,
    failIf (scrR.overlaps srcR || scrR.overlaps palR || scrR.overlaps logR) .overlap 11,
    failIf (logR.overlaps srcR || logR.overlaps palR || logR.overlaps scrR) .overlap 13,
    indexScan s.mem src total palLen]

/-! ### One candidate (43_optimizer.md R182 to R184, R186) -/

/-- WS_CUR_W and WS_CUR_K take the candidate's width and ordinal. -/
def State.enterCandidate (s : State) (c : Search) : State :=
  { s with wsCurW := BitVec.ofNat 32 c.width, wsCurK := BitVec.ofNat 32 c.k }

/-- The zero-waste filter (43_optimizer.md R181): CTRL.WZ = 1 and the candidate has wasted cells. -/
def State.skips (s : State) (c : Search) : Bool := s.wz && decide (c.waste ≠ 0)

/-- The raster is written and EncRequest is sent (43_optimizer.md R182). -/
def State.sendRequest (s : State) (c : Search) : State :=
  { s with
    mem := writeRaster c.src c.total c.scratch (c.width * c.height) s.mem
    sent := s.sent ++ [.request c.request] }

/-- The candidate improves: no candidate has before it, or its size is below WS_BEST_SIZE, unsigned (43_optimizer.md
R183). -/
def State.improves (s : State) (size : Word) : Bool :=
  decide (s.wsEmits = 0) || decide (size.toNat < s.wsBestSize.toNat)

/-- An improving candidate is emitted (43_optimizer.md R184): WS_BEST_*, the log record at LOG + 16·WS_EMITS, WS_EMITS,
EncVerdict with KEEP = 1. -/
def State.emit (s : State) (c : Search) (size : Word) : State :=
  { s with
    wsBestSize := size, wsBestW := BitVec.ofNat 32 c.width, wsBestH := BitVec.ofNat 32 c.height
    mem := writeRecord (c.log + 16 * s.wsEmits.toNat) c.width c.height size.toNat c.k s.mem
    wsEmits := s.wsEmits + 1
    sent := s.sent ++ [.verdict true c.width c.k] }

/-- A candidate that does not improve gets EncVerdict with KEEP = 0 (43_optimizer.md R184). -/
def State.drop (s : State) (c : Search) : State := { s with sent := s.sent ++ [.verdict false c.width c.k] }

/-- WS_CANDS counts a candidate that the encoder has answered (43_optimizer.md R186). -/
def State.countCandidate (s : State) : State := { s with wsCands := s.wsCands + 1 }

/-- What the engine does with the EncResponse of the candidate (43_optimizer.md R186): WS_CANDS counts it, OK = 0 raises
ENC_ERROR, OK = 1 emits or drops the candidate. -/
def State.takeReply (s : State) (c : Search) (r : EncReply) : State :=
  if !r.ok then s.countCandidate.raiseError { code := .encError, info := r.value.toNat }
  else if s.improves r.value then s.countCandidate.emit c r.value
  else s.countCandidate.drop c

/-- WSEARCH completes (43_optimizer.md R186): the best candidate's geometry, or zeros where no candidate was evaluated. -/
def State.finishSearch (s : State) (c : Search) : State :=
  if s.wsEmits = 0 then s.complete 0 0 0
  else s.complete s.wsBestW.toNat s.wsBestH.toNat (s.wsBestW.toNat * s.wsBestH.toNat - c.total)

/-! ### The candidate loop (43_optimizer.md R186) -/

/-- The loop over the candidates from the one `c` stands at, at most `n` of them. It runs while answers are at hand and
stops in EXECUTE at the first request without one (R178, log 3, log 5). -/
def searchLoop : Nat → Search → State → State
  | 0, c, s => s.finishSearch c
  | n + 1, c, s =>
    let s1 := s.enterCandidate c
    if s1.skips c then
      if c.last then s1.finishSearch c else searchLoop n c.next s1
    else
      let s2 := s1.sendRequest c
      match s2.replies with
      | [] => { s2 with phase := .execute c }
      | r :: rs =>
        let s3 := { s2 with replies := rs }.takeReply c r
        if !r.ok then s3
        else if c.last then s3.finishSearch c
        else searchLoop n c.next s3

/-- The search goes on with the answer to the request it waits on (43_optimizer.md R176). -/
def resumeSearch (c : Search) (r : EncReply) (s : State) : State :=
  let s1 := s.takeReply c r
  if !r.ok then s1
  else if c.last then s1.finishSearch c
  else searchLoop (c.nCands - c.k) c.next s1

/-! ### The command -/

/-- The seven width-search registers are cleared when the search starts (10_state.md R33). -/
def State.clearSearch (s : State) : State :=
  { s with
    wsBestW := 0, wsBestH := 0, wsBestSize := 0, wsEmits := 0, wsCands := 0, wsCurW := 0, wsCurK := 0 }

/-- The search a WSEARCH starts with, at candidate k = 1 (43_optimizer.md R186). -/
def searchOf (src fcount fwidth fheight pal palLen scratch log cap : Nat) : Search :=
  let step := fcount * fwidth
  let total := step * fheight
  { src, pal, palLen, scratch, log, step, total, cap, nCands := candCount step cap,
    maxRaster := maxRaster step total cap, k := 1 }

/-- The effect of WSEARCH once its checks have passed (43_optimizer.md R186). -/
def wsearchEffect (src fcount fwidth fheight pal palLen scratch log : Nat) (s : State) : State :=
  let c := searchOf src fcount fwidth fheight pal palLen scratch log s.wsCap.toNat
  searchLoop c.nCands c s.clearSearch

/-- WSEARCH (43_optimizer.md R186). -/
def execWsearch (src fcount fwidth fheight pal palLen scratch scrLen log logLen : Nat) (s : State) :
    Host.Outcome State Fault Refusal :=
  s.validated (wsearchCheck src fcount fwidth fheight pal palLen scratch scrLen log logLen s)
    (wsearchEffect src fcount fwidth fheight pal palLen scratch log s)

end Sys2Proof.Machine
end

