-- ==== Sys2Proof/Machine/Transcoder.lean ====
section
/-! DEFINITION. The frame-layout transcoder: SEQ_ENC, SEQ_DEC, STR_ENC, STR_DEC, RESOLVE (spec/42_transcoder.md). -/

namespace Sys2Proof.Machine

open Sys2Proof

/-! ### Shared loops -/

/-- `for y in [0, Hf): for x in [0, Wf): for f in [0, F)`, outer to inner (42_transcoder.md R145, R150). -/
def forFrames {α : Type} (hf wf frames : Nat) (f : Nat → Nat → Nat → α → α) (a : α) : α :=
  forRange hf (fun y a => forRange wf (fun x a => forRange frames (f y x) a) a) a

/-- The decode loop of SEQ_DEC and STR_DEC (42_transcoder.md R145, R154): the source is read in the order y, x, f, so
its offset is (y·Wf + x)·F + f (R146, log 16), and the palette entry goes to the strip's pixel (x, f·Hf + y). -/
def decodeFrames (src dst pal wf hf frames : Nat) (m : Memory) : Memory :=
  forFrames hf wf frames
    (fun y x f m =>
      writeColour pal dst (stripFlat wf hf f x y) (m.read (src + interleavedFlat wf frames f x y)).toNat m) m

/-- The checks that SEQ_DEC, STR_DEC and RESOLVE share, in order: palette length, extents, overlap, index scan
(42_transcoder.md R145, R154, R158). -/
def paletteChecks (src dst cells pal palLen : Nat) (s : State) : List (Option Err) :=
  let srcR : Region := { base := src, len := cells }
  let dstR : Region := { base := dst, len := 4 * cells }
  let palR := palRegion pal palLen
  [ failIf (badPalLen palLen) .paletteLen 9,
    failIf (!srcR.fits s.cfg) .range 1,
    failIf (!dstR.fits s.cfg) .range 2,
    failIf (!palR.fits s.cfg) .range 8,
    failIf (dstR.overlaps srcR || dstR.overlaps palR) .overlap 2,
    indexScan s.mem src cells palLen ]

/-- The validation list that SEQ_ENC and STR_ENC share (42_transcoder.md R141, R150). -/
def encodeCheck (src dst width height fcount : Nat) (s : State) : Option Err :=
  let srcR : Region := { base := src, len := width * height }
  let dstR : Region := { base := dst, len := width * height }
  firstError [
    failIf (decide (width = 0)) .empty 3,
    failIf (decide (height = 0)) .empty 4,
    failIf (decide (fcount = 0)) .empty 5,
    failIf (decide (height % fcount ≠ 0)) .dimMismatch 5,
    failIf (!srcR.fits s.cfg) .range 1,
    failIf (!dstR.fits s.cfg) .range 2,
    failIf (dstR.overlaps srcR) .overlap 2]

/-! ### SEQ_ENC -/

/-- One element of SEQ_ENC's walk (42_transcoder.md R141): the element goes to dest[f + x], then x advances by F, and
where it reaches N the walk goes on with the next frame. -/
def seqEncElement (src dst n frames i : Nat) (st : Memory × Cursor) : Memory × Cursor :=
  let x := st.2.x + frames
  (st.1.write (dst + st.2.f + st.2.x) (st.1.read (src + i)),
   if n ≤ x then { x := x % n, f := st.2.f + 1 } else { x := x, f := st.2.f })

/-- SEQ_ENC's walk over the N source elements from x = 0, f = 0 (42_transcoder.md R141). -/
def seqEncWalk (src dst n frames : Nat) (m : Memory) : Memory × Cursor :=
  forRange n (seqEncElement src dst n frames) (m, { x := 0, f := 0 })

/-- The effect of SEQ_ENC once its checks have passed (42_transcoder.md R141). -/
def seqEncEffect (src dst width height fcount : Nat) (s : State) : State :=
  let r := seqEncWalk src dst (width * height) fcount s.mem
  { s with mem := r.1, cursor := r.2 }.complete (fcount * width) (height / fcount) 0

/-- SEQ_ENC (42_transcoder.md R141). -/
def execSeqEnc (src dst width height fcount : Nat) (s : State) : Host.Outcome State Fault Refusal :=
  s.validated (encodeCheck src dst width height fcount s) (seqEncEffect src dst width height fcount s)

/-! ### SEQ_DEC -/

/-- The validation list of SEQ_DEC (42_transcoder.md R145). -/
def seqDecCheck (src dst width height fcount pal palLen : Nat) (s : State) : Option Err :=
  firstError ([
    failIf (decide (width = 0)) .empty 3,
    failIf (decide (height = 0)) .empty 4,
    failIf (decide (fcount = 0)) .empty 5,
    failIf (decide (width % fcount ≠ 0)) .dimMismatch 5] ++
    paletteChecks src dst (width * height) pal palLen s)

/-- The effect of SEQ_DEC once its checks have passed (42_transcoder.md R145). -/
def seqDecEffect (src dst width height fcount pal : Nat) (s : State) : State :=
  { s with mem := decodeFrames src dst pal (width / fcount) height fcount s.mem }.complete
    (width / fcount) (fcount * height) 0

/-- SEQ_DEC (42_transcoder.md R145). -/
def execSeqDec (src dst width height fcount pal palLen : Nat) (s : State) : Host.Outcome State Fault Refusal :=
  s.validated (seqDecCheck src dst width height fcount pal palLen s) (seqDecEffect src dst width height fcount pal s)

/-! ### STR_ENC -/

/-- STR_ENC's loop (42_transcoder.md R150): destination index i in the order y, x, f, so i = (y·Wf + x)·F + f. -/
def strEncWalk (src dst wf hf frames : Nat) (m : Memory) : Memory :=
  forFrames hf wf frames
    (fun y x f m => m.write (dst + interleavedFlat wf frames f x y) (m.read (src + (f * hf * wf + y * wf + x)))) m

/-- The effect of STR_ENC once its checks have passed (42_transcoder.md R150). -/
def strEncEffect (src dst width height fcount : Nat) (s : State) : State :=
  { s with mem := strEncWalk src dst width (height / fcount) fcount s.mem }.complete
    fcount (width * (height / fcount)) 0

/-- STR_ENC (42_transcoder.md R150). -/
def execStrEnc (src dst width height fcount : Nat) (s : State) : Host.Outcome State Fault Refusal :=
  s.validated (encodeCheck src dst width height fcount s) (strEncEffect src dst width height fcount s)

/-! ### STR_DEC -/

/-- The frame count F = (W·H) div (Wf·Hf) of STR_DEC (42_transcoder.md R154). -/
def strDecFrames (width height fwidth fheight : Nat) : Nat := (width * height) / (fwidth * fheight)

/-- The validation list of STR_DEC (42_transcoder.md R154). -/
def strDecCheck (src dst width height fwidth fheight pal palLen : Nat) (s : State) : Option Err :=
  firstError ([
    failIf (decide (width = 0)) .empty 3,
    failIf (decide (height = 0)) .empty 4,
    failIf (decide (fwidth = 0)) .empty 6,
    failIf (decide (fheight = 0)) .empty 7,
    failIf (decide ((width * height) % (fwidth * fheight) ≠ 0)) .dimMismatch 6] ++
    paletteChecks src dst (width * height) pal palLen s)

/-- The effect of STR_DEC once its checks have passed (42_transcoder.md R154). -/
def strDecEffect (src dst width height fwidth fheight pal : Nat) (s : State) : State :=
  let frames := strDecFrames width height fwidth fheight
  { s with mem := decodeFrames src dst pal fwidth fheight frames s.mem }.complete fwidth (frames * fheight) 0

/-- STR_DEC (42_transcoder.md R154). -/
def execStrDec (src dst width height fwidth fheight pal palLen : Nat) (s : State) :
    Host.Outcome State Fault Refusal :=
  s.validated (strDecCheck src dst width height fwidth fheight pal palLen s)
    (strDecEffect src dst width height fwidth fheight pal s)

/-! ### RESOLVE -/

/-- The validation list of RESOLVE (42_transcoder.md R158). -/
def resolveCheck (src dst width height pal palLen : Nat) (s : State) : Option Err :=
  firstError ([
    failIf (decide (width = 0)) .empty 3,
    failIf (decide (height = 0)) .empty 4] ++
    paletteChecks src dst (width * height) pal palLen s)

/-- RESOLVE's loop (42_transcoder.md R158). -/
def resolveWalk (src dst cells pal : Nat) (m : Memory) : Memory :=
  forRange cells (fun n m => writeColour pal dst n (m.read (src + n)).toNat m) m

/-- The effect of RESOLVE once its checks have passed (42_transcoder.md R158). -/
def resolveEffect (src dst width height pal : Nat) (s : State) : State :=
  { s with mem := resolveWalk src dst (width * height) pal s.mem }.complete width height 0

/-- RESOLVE (42_transcoder.md R158). -/
def execResolve (src dst width height pal palLen : Nat) (s : State) : Host.Outcome State Fault Refusal :=
  s.validated (resolveCheck src dst width height pal palLen s) (resolveEffect src dst width height pal s)

end Sys2Proof.Machine
end

