-- ==== Sys2Proof/Machine/Dispatch.lean ====
section
/-! DEFINITION. The dispatch of a decoded command to its meaning (spec/30_encoding.md R87). -/

namespace Sys2Proof.Machine

open Sys2Proof

def exec (i : Instr) (s : State) : Host.Outcome State Fault Refusal :=
  match i with
  | .endList => Sys2Proof.Machine.execEndList s
  | .diffuse src dst width height => Sys2Proof.Machine.execDiffuse src dst width height s
  | .seqEnc src dst width height fcount => Sys2Proof.Machine.execSeqEnc src dst width height fcount s
  | .seqDec src dst width height fcount pal palLen => Sys2Proof.Machine.execSeqDec src dst width height fcount pal palLen s
  | .strEnc src dst width height fcount => Sys2Proof.Machine.execStrEnc src dst width height fcount s
  | .strDec src dst width height fwidth fheight pal palLen => Sys2Proof.Machine.execStrDec src dst width height fwidth fheight pal palLen s
  | .resolve src dst width height pal palLen => Sys2Proof.Machine.execResolve src dst width height pal palLen s
  | .raster src dst width height rwidth => Sys2Proof.Machine.execRaster src dst width height rwidth s
  | .wsearch src fcount fwidth fheight pal palLen scratch scrLen log logLen => Sys2Proof.Machine.execWsearch src fcount fwidth fheight pal palLen scratch scrLen log logLen s

end Sys2Proof.Machine
end

