-- ==== Sys2Proof/Machine/Engine.lean ====
section
/-! DEFINITION. The engine's move: FETCH, VALIDATE, EXECUTE (spec/40_control.md R101, R102; 10_state.md R42), and the run's
footprint (20_memory.md R70). -/

namespace Sys2Proof.Machine

open Sys2Proof

/-- The other agent that has written a byte of the regions during the run, if one has (20_memory.md R70). -/
def State.trespass (s : State) (rs : List Region) : Option Agent :=
  (s.foreign.find? (fun w => rs.any (fun r => r.contains w.2))).map (·.1)

/-- The command's regions join the footprint, and its written regions the run's written regions. -/
def State.claim (s : State) (i : Instr) : State :=
  { s with footprint := reads i ++ writes i ++ s.footprint, written := writes i ++ s.written }

/-- FETCH reads the descriptor and goes to VALIDATE with it (40_control.md R101). -/
def State.fetched (s : State) : State :=
  { s with phase := .validate s.fetchWords, footprint := s.descRegion :: s.footprint }

/-- Decode, validate, execute the fetched descriptor (40_control.md R102). -/
def runDescriptor (d : Descriptor) (s : State) : Host.Outcome State Fault Refusal :=
  match decode d with
  | .error e => .next (s.raiseError (decodeErr e))
  | .ok i =>
    match s.trespass (reads i ++ writes i) with
    | some a => .refused (.footprintWritten a)
    | none => exec i (s.claim i)

/-- FETCH and the command after it, one step (40_control.md R109, log 3). -/
def fetchAndRun (s : State) : Host.Outcome State Fault Refusal :=
  match s.fetchCheck with
  | some e => .next (s.raiseError e)
  | none =>
    match s.trespass [s.descRegion] with
    | some a => .refused (.footprintWritten a)
    | none => runDescriptor s.fetchWords s.fetched

/-- The engine waits on the encoder: it goes on with an answer, and without one it makes no step (43_optimizer.md R176,
R178, log 23). -/
def awaitReply (c : Search) (s : State) : State :=
  match s.replies with
  | [] => s
  | r :: rs => resumeSearch c r { s with replies := rs }

/-- The engine's move. In IDLE it takes none (60_exceptions.md R217, log 23). -/
def engineStep (s : State) : Host.Outcome State Fault Refusal :=
  match s.phase with
  | .idle => .next s
  | .fetch => fetchAndRun s
  | .validate d => runDescriptor d s
  | .execute c => .next (awaitReply c s)

end Sys2Proof.Machine
end

