-- ==== Sys2Proof/Machine/Ahead.lean ====
section
/-! DEFINITION. The regions that a run would write (spec/20_memory.md R70, R73; 70_reset_and_hazards.md R231): those of its
commands so far, and those of the commands still to come, read off the command list as memory holds it. -/

namespace Sys2Proof.Machine

open Sys2Proof

/-- The validation list of a command. -/
def checkOf (i : Instr) (s : State) : Option Err :=
  match i with
  | .endList => none
  | .diffuse src dst width height => diffuseCheck src dst width height s
  | .seqEnc src dst width height fcount => encodeCheck src dst width height fcount s
  | .seqDec src dst width height fcount pal palLen => seqDecCheck src dst width height fcount pal palLen s
  | .strEnc src dst width height fcount => encodeCheck src dst width height fcount s
  | .strDec src dst width height fwidth fheight pal palLen =>
    strDecCheck src dst width height fwidth fheight pal palLen s
  | .resolve src dst width height pal palLen => resolveCheck src dst width height pal palLen s
  | .raster src dst width height rwidth => rasterCheck src dst width height rwidth s
  | .wsearch src fcount fwidth fheight pal palLen scratch scrLen log logLen =>
    wsearchCheck src fcount fwidth fheight pal palLen scratch scrLen log logLen s

/-- The command's result depends on the encoder's answers, which are not known ahead (43_optimizer.md R177). -/
def asksEncoder (i : Instr) : Bool :=
  match i with
  | .endList => false
  | .diffuse _ _ _ _ => false
  | .seqEnc _ _ _ _ _ => false
  | .seqDec _ _ _ _ _ _ _ => false
  | .strEnc _ _ _ _ _ => false
  | .strDec _ _ _ _ _ _ _ _ => false
  | .resolve _ _ _ _ _ _ => false
  | .raster _ _ _ _ _ => false
  | .wsearch _ _ _ _ _ _ _ _ _ _ => true

/-- The command's written regions; one that does not fit is never written (20_memory.md R66). -/
def fittingWrites (i : Instr) (c : Config) : List Region := (writes i).filter (fun r => r.fits c)

/-- One command ahead, where `dirty` are the regions whose bytes the encoder's answers decide. A command that reads none of them is
run: it ends the run, or fails and writes nothing, or completes. WSEARCH, and a command that reads a dirty region, may
complete unless a check other than the index scan fails, and leaves its own regions dirty. -/
def commandAhead (i : Instr) (dirty : List Region) (s : State) (rest : List Region → State → List Region) : List Region :=
  let ws := fittingWrites i s.cfg
  let tainted := (reads i).any (fun r => dirty.any (fun q => r.overlaps q))
  let skipped : State := { s with cmdPtr := s.cmdPtr + 64, phase := .fetch }
  match checkOf i s with
  | some e => if tainted && decide (e.code = .indexRange) then ws ++ rest (ws ++ dirty) skipped else []
  | none =>
    if tainted || asksEncoder i then ws ++ rest (ws ++ dirty) skipped
    else match exec i s with
      | .next t => ws ++ (if t.phase = .fetch then rest dirty t else [])
      | .fault _ => ws
      | .refused _ => ws

/-- The written regions of at most `n` commands from CMD_PTR on. A descriptor in a dirty region can be any command, so that
from there every byte of data memory may be written (log 9). -/
def State.ahead : Nat → List Region → State → List Region
  | 0, _, _ => []
  | n + 1, dirty, s =>
    if s.fetchCheck.isSome then []
    else if dirty.any (fun q => s.descRegion.overlaps q) then [{ base := 0, len := s.cfg.memSize }]
    else match decode s.fetchWords with
      | .error _ => []
      | .ok i => commandAhead i dirty s (State.ahead n)

/-- More commands than a run can have (40_control.md R107: at most MEM_SIZE div 64). -/
def State.commandLimit (s : State) : Nat := s.cfg.memSize / 64 + 1

/-- The written regions of the run's commands still to come. A search that waits has claimed its own. -/
def State.toCome (s : State) : List Region :=
  match s.phase with
  | .idle => []
  | .fetch => s.ahead s.commandLimit []
  | .validate d =>
    match decode d with
    | .error _ => []
    | .ok i => commandAhead i [] s (State.ahead s.commandLimit)
  | .execute c =>
    State.ahead s.commandLimit [{ base := c.scratch, len := c.maxRaster }, { base := c.log, len := 16 * c.nCands }]
      { s with cmdPtr := s.cmdPtr + 64, phase := .fetch }

/-- "every region the run would write" (70_reset_and_hazards.md R231). -/
def State.wouldWrite (s : State) : List Region := s.written ++ s.toCome

/-- The regions on whose bytes the host must not rely: those the run would write (20_memory.md R70), and those that a run
has written whose end the host has not seen (R73; 70_reset_and_hazards.md R235). -/
def State.unsettled (s : State) : List Region := s.unseen ++ s.wouldWrite

end Sys2Proof.Machine
end

