-- ==== Sys2Proof/Machine/Registers.lean ====
section
/-! DEFINITION. The register space as the host reaches it (spec/10_state.md R21 to R36). -/

namespace Sys2Proof.Machine

open Sys2Proof

/-- The register map (10_state.md R22): each offset with the word a host read of it returns. CMD_PTR's word is its low
32 bits (log 4). -/
def State.regMap (s : State) : List (Nat × Word) :=
  [ (0x00, 0x50585331#32),
    (0x04, s.ctrlWord),
    (0x08, s.statusWord),
    (0x0C, s.cmdBase),
    (0x10, BitVec.ofNat 32 s.cmdPtr),
    (0x14, s.cmdCount),
    (0x18, s.errInfo),
    (0x1C, s.wsCap),
    (0x20, s.resW),
    (0x24, s.resH),
    (0x28, s.resWaste),
    (0x2C, s.wsBestW),
    (0x30, s.wsBestH),
    (0x34, s.wsBestSize),
    (0x38, s.wsEmits),
    (0x3C, s.wsCands),
    (0x40, s.wsCurW),
    (0x44, s.wsCurK) ]

/-- The block answers only 32-bit accesses at a multiple of 4 (10_state.md R35). -/
def answered (off width : Nat) : Bool := decide (width = 4) && decide (off % 4 = 0)

/-- What a host read at an offset returns: the register's word; 0 at a reserved offset (10_state.md R34) and for an
access that is not answered (R35). -/
def State.readReg (s : State) (off width : Nat) : Word :=
  if answered off width then (s.regMap.lookup off).getD 0 else 0

/-- A host write to CTRL (10_state.md R24, R36; 40_control.md R100): while BUSY only IRQ_EN takes effect; otherwise IRQ_EN
and WZ take bits 1 and 2, and bit 0 starts a run. -/
def State.writeCtrl (s : State) (v : Word) : State :=
  if s.busy then { s with irqEn := v.getLsbD 1 }
  else if v.getLsbD 0 then s.start (v.getLsbD 1) (v.getLsbD 2)
  else { s with irqEn := v.getLsbD 1, wz := v.getLsbD 2 }

/-- A host write to CMD_BASE (10_state.md R27), ignored while BUSY (R36). -/
def State.writeCmdBase (s : State) (v : Word) : State := if s.busy then s else { s with cmdBase := v }

/-- A host write to WS_CAP (10_state.md R31), ignored while BUSY (R36). -/
def State.writeWsCap (s : State) (v : Word) : State := if s.busy then s else { s with wsCap := v }

/-- A host write at an offset: CTRL, STATUS, CMD_BASE and WS_CAP take it; the read-only registers (10_state.md R22) and
the reserved offsets (R34) ignore it, and so does the block where the access is not answered (R35). -/
def State.writeReg (s : State) (off width : Nat) (v : Word) : State :=
  if answered off width then
    match off with
    | 0x04 => s.writeCtrl v
    | 0x08 => s.writeStatus v
    | 0x0C => s.writeCmdBase v
    | 0x1C => s.writeWsCap v
    | _ => s
  else s

/-- The offset of a host address in the register space, if it lies there (10_state.md R21). -/
def Config.regOffset (c : Config) (addr : Nat) : Option Nat :=
  if c.pxsBase ≤ addr ∧ addr < c.pxsBase + 0x100 then some (addr - c.pxsBase) else none

/-- A host read of STATUS that returns BUSY = 0 shows the host that the runs so far have ended (20_memory.md R73,
70_reset_and_hazards.md R235, log 27): what they wrote is settled. No other read does anything. -/
def State.seeStatus (s : State) (off width : Nat) : State :=
  if answered off width && decide (off = 0x08) && !s.busy then { s with written := [], unseen := [] } else s

/-- A host read of the register space; an address outside it is not the block's (log 14). -/
def State.hostRegRead (s : State) (addr width : Nat) : State :=
  match Config.regOffset s.cfg addr with
  | some off => { s.seeStatus off width with hostData := s.readReg off width }
  | none => s

/-- A host write to the register space; an address outside it is not the block's (log 14). -/
def State.hostRegWrite (s : State) (addr width : Nat) (v : Word) : State :=
  match Config.regOffset s.cfg addr with
  | some off => s.writeReg off width v
  | none => s

end Sys2Proof.Machine
end

