-- ==== Sys2Proof/Machine/Bus.lean ====
section
/-! DEFINITION. What the outside world does to the block: data-memory accesses of the host and the encoder (spec/20_memory.md
R70, R76), encoder answers (43_optimizer.md R176), and reset (70_reset_and_hazards.md R230, R231). -/

namespace Sys2Proof.Machine

open Sys2Proof

/-! ### Data memory -/

/-- The address lies in the run's footprint so far (20_memory.md R70). -/
def State.inFootprint (s : State) (a : Nat) : Bool := s.footprint.any (fun r => r.contains a)

/-- The encoder may read the byte: it lies in the raster or the palette of the outstanding request (20_memory.md R76). -/
def Search.encoderMayRead (c : Search) (a : Nat) : Bool :=
  Region.contains { base := c.scratch, len := c.width * c.height } a || (palRegion c.pal c.palLen).contains a

/-- A host read of data memory: a draw in a region that the run would write (20_memory.md R70) or that a run has written whose
end the host has not seen (R73, 93_implementation_defined.md W6); the byte elsewhere (R50). -/
def State.hostMemRead (s : State) (a : Nat) : State :=
  if s.unsettled.any (fun r => r.contains a) then { s with hostData := (Config.freeByte s.draws).setWidth 32, draws := s.draws + 1 }
  else { s with hostData := (s.mem.read a).setWidth 32 }

/-- An encoder read of data memory (20_memory.md R76): during a run only the raster and the palette of the outstanding
request. -/
def State.encMemRead (s : State) (a : Nat) : Host.Outcome State Fault Refusal :=
  let served : State := { s with encData := s.mem.read a }
  match s.phase with
  | .idle => .next served
  | .fetch => .refused .encoderReadOutside
  | .validate _ => .refused .encoderReadOutside
  | .execute c => if c.encoderMayRead a then .next served else .refused .encoderReadOutside

/-- A read of data memory by another agent. -/
def State.busRead (s : State) (g : Agent) (a : Nat) : Host.Outcome State Fault Refusal :=
  if s.cfg.memSize ≤ a then .fault .noSuchAddress
  else match g with
    | .host => .next (s.hostMemRead a)
    | .encoder => s.encMemRead a

/-- A write to data memory by another agent: refused in the footprint of a run (20_memory.md R70, R76), and recorded during a run for the
commands still to come (log 8). -/
def State.busWrite (s : State) (g : Agent) (a : Nat) (v : Byte) : Host.Outcome State Fault Refusal :=
  if s.cfg.memSize ≤ a then .fault .noSuchAddress
  else if s.busy then
    if s.inFootprint a then .refused (.footprintWritten g)
    else .next { s with mem := s.mem.write a v, foreign := (g, a) :: s.foreign }
  else .next { s with mem := s.mem.write a v }

/-! ### The encoder port -/

/-- An EncResponse arrives: it answers the outstanding request, once (43_optimizer.md R176, 70_reset_and_hazards.md R240).
DESIGN CHOICE, safe (log 29): it carries no K, so this input is taken as the answer to the request that stands; a second
answer to a request already answered that arrives after a later request is the input `staleResponse`. -/
def State.response (s : State) (r : EncReply) : Host.Outcome State Fault Refusal :=
  if s.encWait && s.replies.isEmpty then .next { s with replies := [r] } else .refused .unexpectedResponse

/-! ### Reset -/

/-- Each byte of the regions becomes a draw (70_reset_and_hazards.md R231). -/
def State.drawRegions (s : State) : List Region → State
  | [] => s
  | r :: rs =>
    State.drawRegions { s with mem := s.mem.drawBytes r.base r.len s.draws, draws := s.draws + r.len } rs

/-- The reset values of the registers, the phase and the port, and eight accumulator rows newly unspecified
(70_reset_and_hazards.md R230). Data memory, the parameters, the outside world's inputs and what the host has not seen
(log 27) stay. -/
def State.resetBlock (s : State) : State :=
  { State.reset with
    cfg := s.cfg, mem := s.mem, acc := Accum.unspecified s.draws, unseen := s.unseen, inputs := s.inputs,
    hostData := s.hostData, encData := s.encData, draws := s.draws + 8 }

/-- The reset input (70_reset_and_hazards.md R230); during a run the bytes of every region the run would
write become draws (R231). -/
def State.assertReset (s : State) : State :=
  if s.busy then (s.drawRegions s.wouldWrite).resetBlock
  else State.resetBlock { s with unseen := s.written ++ s.unseen }

/-! ### One input -/

/-- What one input does. -/
def handle (e : Event) (s : State) : Host.Outcome State Fault Refusal :=
  match e with
  | .engineTurn => engineStep s
  | .regRead addr width => .next (s.hostRegRead addr width)
  | .regWrite addr width v => .next (s.hostRegWrite addr width v)
  | .memRead g a => s.busRead g a
  | .memWrite g a v => s.busWrite g a v
  | .encResponse r => s.response r
  | .staleResponse _ => .refused .staleResponse
  | .reset => .next s.assertReset

end Sys2Proof.Machine
end

