-- ==== Sys2Proof/Machine/Step.lean ====
section
/-! DEFINITION. One step of the machine, and how the host places a command for it. -/

namespace Sys2Proof.Machine

open Sys2Proof

/-- One step: the outside world's next input, or, where none stands, the engine's move (spec/00_scope.md R5, log 6). -/
def step (s : State) : Host.Outcome State Fault Refusal :=
  match s.inputs with
  | [] => engineStep s
  | e :: rest => handle e { s with inputs := rest }

/-- The state with the descriptor whose first `nbits` bits are those of `w` stored at CMD_PTR, a run in progress that
fetches it next, and no input before the engine's move (log 12). An idle machine is started first, as a host's START does
(spec/40_control.md R100). -/
def State.withFetchWord (s : State) (nbits w : Nat) : State :=
  let s1 := if s.busy then s else s.start s.irqEn s.wz
  { s1 with
    phase := .fetch, inputs := [], foreign := [], mem := s1.mem.writeBytes s1.cmdPtr (tableBytes nbits w) }

end Sys2Proof.Machine
end

