-- ==== Sys2Proof/Safety.lean ====
section
/-! DEFINITION. What counts as a safe state of the PXS block: the invariants that spec/10_state.md, 40_control.md and
43_optimizer.md state in prose, in the terms the statements use. -/

namespace Sys2Proof.Machine

open Sys2Proof

/-- The answer is a next state with the property, a fault or a refusal. -/
def Safe (P : State → Prop) : Host.Outcome State Fault Refusal → Prop
  | .next s => P s
  | .fault _ => True
  | .refused _ => True

/-! ### The status flags (10_state.md R25, R37) -/

/-- DONE and ERR are never both 1; ERR_CODE is 0x00 exactly when ERR = 0; while BUSY = 1 both flags are 0. -/
structure StatusOk (s : State) : Prop where
  notBoth : ¬(s.done = true ∧ s.err = true)
  code : s.err = false ↔ s.errCode = .noError
  busyClear : s.busy = true → s.done = false ∧ s.err = false

/-! ### The command pointer (10_state.md R28, R29; 40_control.md R101, R106) -/

/-- While a run goes on, CMD_PTR stands 64·CMD_COUNT past CMD_BASE; a descriptor being executed lies in data memory at a multiple of 4; a
pointer about to be fetched from has not passed MEM_SIZE, unless it is the run's first. -/
structure PointerOk (s : State) : Prop where
  legal : s.cfg.legal = true
  advance : s.busy = true → s.cmdPtr = s.cmdBase.toNat + 64 * s.cmdCount.toNat
  inside : s.busy = true → s.phase ≠ .fetch → s.cmdPtr % 4 = 0 ∧ s.cmdPtr + 64 ≤ s.cfg.memSize
  bounded : s.phase = .fetch → s.cmdCount = 0 ∨ (s.cmdPtr % 4 = 0 ∧ s.cmdPtr ≤ s.cfg.memSize)

/-! ### The search in progress (43_optimizer.md R185 to R187) -/

/-- The k-th candidate's cells w_k·ceil_div(T, w_k). -/
def candCells (step total cap k : Nat) : Nat := candWidth step cap k * rasterHeight total (candWidth step cap k)

/-- What WSEARCH's validation ensured of the search, as long as it runs: the candidates exist, and SCRATCH and LOG hold
every write the search can make, apart from each other, from the source and from the palette. -/
structure SearchOk (cfg : Config) (c : Search) : Prop where
  stepPos : 0 < c.step
  capPos : 0 < c.cap
  capWord : c.cap < 2 ^ 32
  totalWord : c.total < 2 ^ 32
  count : c.nCands = candCount c.step c.cap
  kPos : 1 ≤ c.k
  kLe : c.k ≤ c.nCands
  cells : ∀ k, 1 ≤ k → k ≤ c.nCands → candCells c.step c.total c.cap k ≤ c.maxRaster
  scratchFits : c.scratch + c.maxRaster ≤ cfg.memSize
  logFits : c.log + 16 * c.nCands ≤ cfg.memSize
  logScratch : c.log + 16 * c.nCands ≤ c.scratch ∨ c.scratch + c.maxRaster ≤ c.log
  logSrc : c.log + 16 * c.nCands ≤ c.src ∨ c.src + c.total ≤ c.log
  scratchSrc : c.scratch + c.maxRaster ≤ c.src ∨ c.src + c.total ≤ c.scratch
  logPal : c.log + 16 * c.nCands ≤ c.pal ∨ c.pal + 4 * c.palLen ≤ c.log
  scratchPal : c.scratch + c.maxRaster ≤ c.pal ∨ c.pal + 4 * c.palLen ≤ c.scratch

/-- The words W, H, SIZE, K of log record n (20_memory.md R63). -/
def recordWord (m : Memory) (log n offset : Nat) : Nat := m.readLE (log + 16 * n + offset) 4

/-- 43_optimizer.md R187 for the log at `log`, with `bound` above every ordinal emitted: SIZE words strictly decrease,
K words strictly increase, and the last record is WS_BEST_W, WS_BEST_H, WS_BEST_SIZE with its k. -/
structure LogOk (log bound : Nat) (s : State) : Prop where
  sizes : ∀ n, n + 1 < s.wsEmits.toNat → recordWord s.mem log (n + 1) 8 < recordWord s.mem log n 8
  ordinals : ∀ n, n + 1 < s.wsEmits.toNat → recordWord s.mem log n 12 < recordWord s.mem log (n + 1) 12
  last : ∀ n, n + 1 = s.wsEmits.toNat →
    recordWord s.mem log n 0 = s.wsBestW.toNat ∧ recordWord s.mem log n 4 = s.wsBestH.toNat ∧
      recordWord s.mem log n 8 = s.wsBestSize.toNat ∧ recordWord s.mem log n 12 < bound
  emits : s.wsEmits.toNat ≤ s.wsCands.toNat

/-- A search that waits on the encoder is sound: its operands are, its log is, and it has counted fewer candidates than
the ordinal it stands at. -/
structure WaitOk (s : State) (c : Search) : Prop where
  search : SearchOk s.cfg c
  log : LogOk c.log c.k s
  cands : s.wsCands.toNat < c.k

/-- Memory is canonical and lies in data memory; while a run goes on, the run's written regions fit; a search that waits
is sound, and its log lies in the footprint, where no other agent writes (20_memory.md R70, R76). -/
structure MemoryOk (s : State) : Prop where
  legal : s.cfg.legal = true
  canonical : s.mem.wf
  below : s.mem.below s.cfg.memSize
  written : s.busy = true → ∀ r ∈ s.written, r.base + r.len ≤ s.cfg.memSize
  waiting : ∀ c, s.phase = .execute c → WaitOk s c
  claimed : ∀ c, s.phase = .execute c → ∀ a, c.log ≤ a → a < c.log + 16 * c.nCands →
    s.footprint.any (fun r => r.contains a) = true

/-! ### When a command's checks pass, in plain arithmetic -/

/-- Two non-empty regions do not overlap (20_memory.md R67). -/
def Apart (a n b m : Nat) : Prop := a + n ≤ b ∨ b + m ≤ a

/-- The source, destination and palette of a decode command are as its checks want them. -/
structure PaletteOk (src dst cells pal palLen : Nat) (s : State) : Prop where
  palLo : 1 ≤ palLen
  palHi : palLen ≤ 256
  srcFits : src + cells ≤ s.cfg.memSize
  dstFits : dst + 4 * cells ≤ s.cfg.memSize
  palFits : pal + 4 * palLen ≤ s.cfg.memSize
  dstSrc : Apart dst (4 * cells) src cells
  dstPal : Apart dst (4 * cells) pal (4 * palLen)
  indices : ∀ i < cells, (s.mem.read (src + i)).toNat < palLen

/-- The operands of a WSEARCH are as its checks want them (43_optimizer.md R185). -/
structure WsearchOk (src fcount fwidth fheight pal palLen scratch scrLen log logLen : Nat) (s : State) : Prop where
  fcountNe : fcount ≠ 0
  fwidthNe : fwidth ≠ 0
  fheightNe : fheight ≠ 0
  capNe : s.wsCap.toNat ≠ 0
  aligned : log % 4 = 0
  palLo : 1 ≤ palLen
  palHi : palLen ≤ 256
  srcFits : src + fcount * fwidth * fheight ≤ s.cfg.memSize
  palFits : pal + 4 * palLen ≤ s.cfg.memSize
  scratchFits : scratch + scrLen ≤ s.cfg.memSize
  logFits : log + logLen ≤ s.cfg.memSize
  scrLenOk : maxRaster (fcount * fwidth) (fcount * fwidth * fheight) s.wsCap.toNat ≤ scrLen
  logLenOk : 16 * candCount (fcount * fwidth) s.wsCap.toNat ≤ logLen
  scratchSrc : Apart scratch scrLen src (fcount * fwidth * fheight)
  scratchPal : Apart scratch scrLen pal (4 * palLen)
  scratchLog : Apart scratch scrLen log logLen
  logSrc : Apart log logLen src (fcount * fwidth * fheight)
  logPal : Apart log logLen pal (4 * palLen)
  indices : ∀ i < fcount * fwidth * fheight, (s.mem.read (src + i)).toNat < palLen

end Sys2Proof.Machine
end

