-- ==== Sys2Proof/Certificates/Slice0/Obligations.lean ====
section
/-! DEFINITION. The statements about the PXS model, in the terms of Safety and of the vocabulary below. -/

namespace Sys2Proof.Claims

open Sys2Proof Sys2Proof.Machine

/-! ### Vocabulary -/

/-- The state an error leaves (60_exceptions.md R202): everything else stays. -/
def failed (s : State) (code : ErrCode) (info : Nat) : State :=
  { s with errCode := code, errInfo := BitVec.ofNat 32 info, err := true, phase := .idle }

/-- The command, in this state, ends with this error. -/
def Fails (i : Instr) (s : State) (code : ErrCode) (info : Nat) : Prop := exec i s = .next (failed s code info)

/-- A validation list (40_control.md R102): the first condition that holds raises its error; if none holds, `rest`. -/
def ChecksInOrder (i : Instr) (s : State) (rest : Prop) : List (Prop × ErrCode × Nat) → Prop
  | [] => rest
  | (p, code, info) :: cs => (p → Fails i s code info) ∧ (¬p → ChecksInOrder i s rest cs)

/-- The region [a, a + n) does not fit (20_memory.md R66). -/
def Misfit (s : State) (a n : Nat) : Prop := s.cfg.memSize < a + n

/-- [a, a + n) and [b, b + m) share at least one byte address (20_memory.md R67). -/
def Share (a n b m : Nat) : Prop := ∃ x, (a ≤ x ∧ x < a + n) ∧ (b ≤ x ∧ x < b + m)

/-- PALLEN = 0 or PALLEN > 256. -/
def BadPalette (palLen : Nat) : Prop := palLen = 0 ∨ 256 < palLen

/-- The index scan over n bytes at src (60_exceptions.md R205): the first byte ≥ PALLEN raises INDEX_RANGE with its
offset. -/
def ScanFails (i : Instr) (s : State) (src n palLen : Nat) : Prop :=
  ∀ k < n, palLen ≤ (s.mem.read (src + k)).toNat → (∀ j < k, (s.mem.read (src + j)).toNat < palLen) →
    Fails i s .indexRange k

/-- What a command other than END and WSEARCH leaves unchanged: everything but data memory, the engine's internal rows
and cursor, CMD_PTR, CMD_COUNT, RES_* and the phase. -/
def CommandFrame (s t : State) : Prop :=
  t = { s with
    mem := t.mem, acc := t.acc, cursor := t.cursor, cmdPtr := t.cmdPtr, cmdCount := t.cmdCount, resW := t.resW,
    resH := t.resH, resWaste := t.resWaste, phase := t.phase }

/-- A command completes with these RES_W, RES_H, RES_WASTE (40_control.md R103) and leaves the rest unchanged. -/
structure Completes (s t : State) (w h waste : Nat) : Prop where
  frame : CommandFrame s t
  resW : t.resW.toNat = w
  resH : t.resH.toNat = h
  resWaste : t.resWaste.toNat = waste
  count : t.cmdCount = s.cmdCount + 1
  ptr : t.cmdPtr = s.cmdPtr + 64
  fetch : t.phase = .fetch

/-- Every byte outside [a, a + n) reads as before. -/
def SameOutside (s t : State) (a n : Nat) : Prop := ∀ b, (b < a ∨ a + n ≤ b) → t.mem.read b = s.mem.read b

/-- What a WSEARCH leaves unchanged: everything but data memory, WS_*, the port's messages and the phase. -/
def SearchFrame (s t : State) : Prop :=
  t = { s with
    mem := t.mem, wsBestW := t.wsBestW, wsBestH := t.wsBestH, wsBestSize := t.wsBestSize, wsEmits := t.wsEmits,
    wsCands := t.wsCands, wsCurW := t.wsCurW, wsCurK := t.wsCurK, replies := t.replies, sent := t.sent,
    phase := t.phase }

/-- What a WSEARCH that completes leaves unchanged: that, but for CMD_PTR, CMD_COUNT and RES_*. -/
def SearchEndFrame (s t : State) : Prop :=
  t = { s with
    mem := t.mem, wsBestW := t.wsBestW, wsBestH := t.wsBestH, wsBestSize := t.wsBestSize, wsEmits := t.wsEmits,
    wsCands := t.wsCands, wsCurW := t.wsCurW, wsCurK := t.wsCurK, replies := t.replies, sent := t.sent,
    phase := t.phase, cmdPtr := t.cmdPtr, cmdCount := t.cmdCount, resW := t.resW, resH := t.resH,
    resWaste := t.resWaste }

/-- The seven width-search registers are the same (10_state.md R33). -/
def SameSearchRegisters (s t : State) : Prop :=
  t.wsBestW = s.wsBestW ∧ t.wsBestH = s.wsBestH ∧ t.wsBestSize = s.wsBestSize ∧ t.wsEmits = s.wsEmits ∧
    t.wsCands = s.wsCands ∧ t.wsCurW = s.wsCurW ∧ t.wsCurK = s.wsCurK

/-- The ordinals of the candidates a search evaluates, in order (43_optimizer.md R180, R181): all of 1 to NC, or with WZ
those with no wasted cell. -/
def evaluated (wz : Bool) (step total cap : Nat) : List Nat :=
  ((List.range (candCount step cap)).map (fun j => j + 1)).filter
    (fun k => !wz || decide (candCells step total cap k = total))

/-- It is the engine's turn in s, and s0 is s with that turn taken from the inputs. -/
def Turn (s s0 : State) : Prop :=
  (s.inputs = [] ∧ s0 = s) ∨ (∃ rest, s.inputs = .engineTurn :: rest ∧ s0 = { s with inputs := rest })

/-- Which descriptor words a command reads: the table of 30_encoding.md R86, by opcode and word. -/
def usesWord : Nat → List Nat
  | 0x01 => [1, 2, 3, 4]
  | 0x02 => [1, 2, 3, 4, 5]
  | 0x03 => [1, 2, 3, 4, 5, 8, 9]
  | 0x04 => [1, 2, 3, 4, 5]
  | 0x05 => [1, 2, 3, 4, 6, 7, 8, 9]
  | 0x06 => [1, 2, 3, 4, 8, 9]
  | 0x07 => [1, 2, 3, 4, 10]
  | 0x08 => [1, 5, 6, 7, 8, 9, 11, 12, 13, 14]
  | _ => []

/-- The error that a descriptor which is no command raises (30_encoding.md R84), in the order of the checks. -/
def RejectedWith (d : Descriptor) (code : ErrCode) (info : Nat) : Prop :=
  (0x08 < d.cmd.toNat % 256 ∧ code = .badOpcode ∧ info = d.cmd.toNat % 256) ∨
    (d.cmd.toNat % 256 ≤ 0x08 ∧ d.cmd.toNat / 256 ≠ 0 ∧ code = .badDesc ∧ info = 0) ∨
    (d.cmd.toNat % 256 ≤ 0x08 ∧ d.cmd.toNat / 256 = 0 ∧ d.rsvd ≠ 0 ∧ code = .badDesc ∧ info = 15)

/-- A byte of a region that the run of s would write (70_reset_and_hazards.md R231). -/
def WouldWrite (s : State) (a : Nat) : Prop := ∃ q ∈ s.wouldWrite, q.contains a = true

/-- The conditions under which SEQ_ENC and STR_ENC execute (42_transcoder.md R141, R150). -/
structure EncodeOk (src dst width height fcount : Nat) (s : State) : Prop where
  widthNe : width ≠ 0
  heightNe : height ≠ 0
  fcountNe : fcount ≠ 0
  divides : height % fcount = 0
  srcFits : src + width * height ≤ s.cfg.memSize
  dstFits : dst + width * height ≤ s.cfg.memSize
  apart : Apart dst (width * height) src (width * height)

/-- The conditions under which DIFFUSE executes (41_dither.md R121). -/
structure DiffuseOk (src dst width height : Nat) (s : State) : Prop where
  widthNe : width ≠ 0
  heightNe : height ≠ 0
  widthMax : width ≤ s.cfg.dwMax
  srcFits : src + 8 * (width * height) ≤ s.cfg.memSize
  dstFits : dst + 4 * (width * height) ≤ s.cfg.memSize
  apart : Apart dst (4 * (width * height)) src (8 * (width * height))

/-- The error waiting at pixel (x, y) where r y x are the residuals (41_dither.md R123): 3 parts of the pixel above right,
5 of the one above, 1 of the one above left, 7 of the one to the left. -/
def waitingError (width : Nat) (r : Nat → Nat → Nat) (y x : Nat) : Nat :=
  (if 0 < y then
    3 * (if x + 1 < width then r (y - 1) (x + 1) else 0) + 5 * r (y - 1) x + (if 0 < x then r (y - 1) (x - 1) else 0)
    else 0) +
    (if 0 < x then 7 * r y (x - 1) else 0)

/-- Channel c's sample of pixel (x, y) of the wide buffer at src (20_memory.md R55). -/
def sampleAt (m : Memory) (src width : Nat) (c : Chan) (y x : Nat) : Nat :=
  (m.read (src + 8 * (y * width + x) + 2 * c.index)).toNat * 256 +
    (m.read (src + 8 * (y * width + x) + 2 * c.index + 1)).toNat

/-- The pixel's sample with its error, clamped (41_dither.md R122). -/
def clampedAt (m : Memory) (src width : Nat) (c : Chan) (r : Nat → Nat → Nat) (y x : Nat) : Nat :=
  min (sampleAt m src width c y x + waitingError width r y x / 16) 65535

end Sys2Proof.Claims

open Sys2Proof Sys2Proof.Machine Sys2Proof.Claims

/-! ### Encoding -/

/-- The words of 30_encoding.md R83, its nine rows, and R90's bytes decode to their commands; a sanity statement. -/
def Obligations.SpecWordsDecode : Prop :=
  (∀ d : Nat → Descriptor,
    (∀ opc, d opc = Descriptor.ofWords (fun j =>
      if j = 0 then BitVec.ofNat 32 opc else if j = 15 then 0 else BitVec.ofNat 32 (100 + j))) →
    decode (d 0) = .ok .endList ∧
    decode (d 1) = .ok (.diffuse 101 102 103 104) ∧
    decode (d 2) = .ok (.seqEnc 101 102 103 104 105) ∧
    decode (d 3) = .ok (.seqDec 101 102 103 104 105 108 109) ∧
    decode (d 4) = .ok (.strEnc 101 102 103 104 105) ∧
    decode (d 5) = .ok (.strDec 101 102 103 104 106 107 108 109) ∧
    decode (d 6) = .ok (.resolve 101 102 103 104 108 109) ∧
    decode (d 7) = .ok (.raster 101 102 103 104 110) ∧
    decode (d 8) = .ok (.wsearch 101 105 106 107 108 109 111 112 113 114)) ∧
  decode (Descriptor.ofWords (fun _ => 0)) = .ok .endList ∧
  decodeBytes ([0x02, 0, 0, 0, 0, 0x10, 0, 0, 0, 0x20, 0, 0, 2, 0, 0, 0, 4, 0, 0, 0, 2, 0, 0, 0] ++
    List.replicate 40 0) = .ok (.seqEnc 0x1000 0x2000 2 4 2)

/-- Every well-formed command's 64 bytes decode to it, with every operand at every value (30_encoding.md R80 to R83). -/
def Obligations.EncodedCommandsDecode : Prop :=
  ∀ i : Instr, i.wellFormed = true →
    (encodeBytes i).length = 64 ∧ ∀ rest, decodeBytes (encodeBytes i ++ rest) = .ok i

/-- What the decoder accepts is well formed, and encoding it gives back the opcode and every word it uses. -/
def Obligations.DecodedCommandsAreWellFormed : Prop :=
  ∀ d i, decode d = .ok i →
    i.wellFormed = true ∧ i.toDescriptor.cmd = d.cmd ∧
      ∀ j ∈ usesWord d.cmd.toNat, i.toDescriptor.words[j]? = d.words[j]?

/-- 30_encoding.md R85: unused fields have no effect. -/
def Obligations.UnusedFieldsIgnored : Prop :=
  ∀ d d' : Descriptor, d'.cmd = d.cmd → (d'.rsvd = 0 ↔ d.rsvd = 0) →
    (∀ j ∈ usesWord (d.cmd.toNat % 256), d'.words[j]? = d.words[j]?) → decode d' = decode d

/-- 30_encoding.md R84: the reserved encodings and the order of their checks, as the error each raises, and that a step that
fetches one raises it. No other agent has written a byte of the descriptor during the run (20_memory.md R70). -/
def Obligations.ReservedEncodingsFail : Prop :=
  (∀ (s : State) (d : Descriptor) (code : ErrCode) (info : Nat), RejectedWith d code info →
    runDescriptor d s = .next (failed s code info)) ∧
  (∀ d : Descriptor, d.cmd.toNat % 256 ≤ 0x08 → d.cmd.toNat / 256 = 0 → d.rsvd = 0 → ∃ i, decode d = .ok i) ∧
  ∀ (s s0 : State) (d : Descriptor) (code : ErrCode) (info : Nat), Turn s s0 → s.phase = .fetch → s.cmdPtr % 4 = 0 →
    s.cmdPtr + 64 ≤ s.cfg.memSize → d = Descriptor.ofBytes (s.mem.readBytes s.cmdPtr 64) → RejectedWith d code info →
    (∀ w ∈ s.foreign, Region.contains { base := s.cmdPtr, len := 64 } w.2 = false) →
    step s = .next (failed { s0 with footprint := { base := s.cmdPtr, len := 64 } :: s.footprint } code info)

/-! ### Fetch and step -/

/-- 40_control.md R101: the fetch checks, in order. -/
def Obligations.FetchChecks : Prop :=
  ∀ s s0 : State, Turn s s0 → s.phase = .fetch →
    (s.cmdPtr % 4 ≠ 0 → step s = .next (failed s0 .badDesc 0x10)) ∧
    (s.cmdPtr % 4 = 0 → s.cfg.memSize < s.cmdPtr + 64 → step s = .next (failed s0 .range 0x10))

/-- A step runs the decoded command: when the 64 bytes at CMD_PTR decode to i, the step is exec of i, at the state that
holds the fetched words, with the descriptor and i's regions in the run's footprint and i's written regions in the run's
written regions. No other agent has written one of those bytes during the run (20_memory.md R70). -/
def Obligations.StepRunsDecodedCommand : Prop :=
  ∀ (s s0 : State) (i : Instr), Turn s s0 → s.phase = .fetch → s.cmdPtr % 4 = 0 → s.cmdPtr + 64 ≤ s.cfg.memSize →
    decodeBytes (s.mem.readBytes s.cmdPtr 64) = .ok i →
    (∀ w ∈ s.foreign, ∀ q ∈ { base := s.cmdPtr, len := 64 } :: (reads i ++ writes i), q.contains w.2 = false) →
    step s = exec i { s0 with
      phase := .validate (Descriptor.ofBytes (s.mem.readBytes s.cmdPtr 64))
      footprint := reads i ++ writes i ++ { base := s.cmdPtr, len := 64 } :: s.footprint
      written := writes i ++ s.written }

/-- From FETCH the engine ends the run, waits on the encoder, or stands at the next descriptor, still inside data memory
(40_control.md R107). "With BUSY = 0 the engine is IDLE and takes no step until START" (60_exceptions.md R217). Where inputs stand, a step takes the oldest (log 6). -/
def Obligations.EngineAdvances : Prop :=
  (∀ s t : State, s.phase = .fetch → engineStep s = .next t →
    (t.phase = .idle ∧ t.cmdPtr = s.cmdPtr) ∨ (∃ c, t.phase = .execute c ∧ t.cmdPtr = s.cmdPtr) ∨
      (t.phase = .fetch ∧ t.cmdPtr = s.cmdPtr + 64 ∧ t.cmdPtr ≤ s.cfg.memSize ∧ t.cmdCount = s.cmdCount + 1)) ∧
  (∀ s s0 : State, Turn s s0 → s.busy = false → step s = .next s0) ∧
  ∀ (s : State) (e : Event) (rest : List Event), s.inputs = e :: rest → step s = handle e { s with inputs := rest }

/-! ### Registers -/

/-- 10_state.md R22 and R34: what the host reads at every word offset after reset. -/
def Obligations.ResetRegisters : Prop :=
  (∀ off, off % 4 = 0 → State.reset.readReg off 4 =
    if off = 0x00 then 0x50585331 else if off = 0x1C then 0x000493E0 else 0) ∧
  State.reset.busy = false ∧ State.reset.encWait = false ∧ State.reset.irq = false

/-- 10_state.md R34. -/
def Obligations.ReservedOffsets : Prop :=
  ∀ (s : State) (off width : Nat) (v : Word), 0x48 ≤ off → off ≤ 0xFC →
    s.readReg off 4 = 0 ∧ s.writeReg off width v = s

/-- 10_state.md R22, R23: what a host read of each read-only register returns, in every state (CMD_PTR's low 32 bits, log 4),
and that a write at any offset but those of CTRL, STATUS, CMD_BASE and WS_CAP changes nothing. -/
def Obligations.ReadOnlyRegisters : Prop :=
  ∀ (s : State) (off width : Nat) (v : Word),
    (s.readReg 0x00 4 = 0x50585331 ∧ s.readReg 0x10 4 = BitVec.ofNat 32 s.cmdPtr ∧ s.readReg 0x14 4 = s.cmdCount ∧
      s.readReg 0x18 4 = s.errInfo ∧ s.readReg 0x20 4 = s.resW ∧ s.readReg 0x24 4 = s.resH ∧
      s.readReg 0x28 4 = s.resWaste ∧ s.readReg 0x2C 4 = s.wsBestW ∧ s.readReg 0x30 4 = s.wsBestH ∧
      s.readReg 0x34 4 = s.wsBestSize ∧ s.readReg 0x38 4 = s.wsEmits ∧ s.readReg 0x3C 4 = s.wsCands ∧
      s.readReg 0x40 4 = s.wsCurW ∧ s.readReg 0x44 4 = s.wsCurK) ∧
    (off ≠ 0x04 → off ≠ 0x08 → off ≠ 0x0C → off ≠ 0x1C → s.writeReg off width v = s)

/-- The host's register accesses (10_state.md R21, R35): at PXS_BASE + off a read returns readReg and a write does writeReg,
of which the other statements speak; an access that is no 32-bit access at a multiple of 4 reads 0 and writes nothing; no
read changes anything but what the host sees and the model's record of what it has seen (log 27). An address outside the
register space reaches nothing (log 14). -/
def Obligations.UnansweredAccesses : Prop :=
  (∀ (s : State) (off width : Nat) (v : Word), off < 0x100 →
    handle (.regWrite (s.cfg.pxsBase + off) width v) s = .next (s.writeReg off width v) ∧
    (∃ t, handle (.regRead (s.cfg.pxsBase + off) width) s = .next t ∧
      t = { s with hostData := s.readReg off width, written := t.written, unseen := t.unseen } ∧
      (off ≠ 0x08 ∨ s.busy = true → t = { s with hostData := s.readReg off width })) ∧
    (width ≠ 4 ∨ off % 4 ≠ 0 →
      handle (.regRead (s.cfg.pxsBase + off) width) s = .next { s with hostData := 0 } ∧
      handle (.regWrite (s.cfg.pxsBase + off) width v) s = .next s)) ∧
  ∀ (s : State) (addr width : Nat) (v : Word), addr < s.cfg.pxsBase ∨ s.cfg.pxsBase + 0x100 ≤ addr →
    handle (.regRead addr width) s = .next s ∧ handle (.regWrite addr width v) s = .next s

/-- The fields of STATUS and CTRL (10_state.md R24, R25), and the codes of 60_exceptions.md R200. -/
def Obligations.StatusAndCtrlFields : Prop :=
  ∀ s : State,
    (s.readReg 0x08 4).getLsbD 0 = s.busy ∧ (s.readReg 0x08 4).getLsbD 1 = s.done ∧
    (s.readReg 0x08 4).getLsbD 2 = s.err ∧ (s.readReg 0x08 4).getLsbD 3 = s.encWait ∧
    (s.readReg 0x08 4).extractLsb' 4 4 = 0 ∧
    (∀ p ∈ [(ErrCode.noError, 0x00#8), (.badOpcode, 0x01), (.badDesc, 0x02), (.empty, 0x03), (.limit, 0x04),
      (.dimMismatch, 0x05), (.paletteLen, 0x06), (.range, 0x07), (.overlap, 0x08), (.indexRange, 0x09),
      (.encError, 0x0A)], s.errCode = p.1 → (s.readReg 0x08 4).extractLsb' 8 8 = p.2) ∧
    (s.readReg 0x08 4).extractLsb' 16 16 = 0 ∧
    (s.readReg 0x04 4).getLsbD 0 = false ∧ (s.readReg 0x04 4).getLsbD 1 = s.irqEn ∧
    (s.readReg 0x04 4).getLsbD 2 = s.wz ∧ (s.readReg 0x04 4).extractLsb' 3 29 = 0

/-- 10_state.md R26. -/
def Obligations.StatusWrite : Prop :=
  ∀ (s : State) (v : Word), s.writeReg 0x08 4 v =
    { s with
      done := if v.getLsbD 1 then false else s.done
      err := if v.getLsbD 2 then false else s.err
      errCode := if v.getLsbD 2 then .noError else s.errCode }

/-- START, in IDLE and while BUSY (40_control.md R100). The records `written`, `unseen` and `foreign` are the model's own: that
START empties two of them and keeps what earlier runs wrote as unseen is log 27, log 15 and log 8. -/
def Obligations.StartARun : Prop :=
  ∀ (s : State) (v : Word), v.getLsbD 0 = true →
    (s.busy = false → s.writeReg 0x04 4 v =
      { s with
        irqEn := v.getLsbD 1, wz := v.getLsbD 2, done := false, err := false, errCode := .noError, errInfo := 0,
        cmdCount := 0, cmdPtr := s.cmdBase.toNat, phase := .fetch, footprint := [], written := [],
        unseen := s.written ++ s.unseen, foreign := [] }) ∧
    (s.busy = true → s.writeReg 0x04 4 v = { s with irqEn := v.getLsbD 1 })

/-- Register writes while the engine is idle (10_state.md R24, R27, R31). -/
def Obligations.IdleRegisterWrites : Prop :=
  ∀ (s : State) (v : Word), s.busy = false →
    (v.getLsbD 0 = false → s.writeReg 0x04 4 v = { s with irqEn := v.getLsbD 1, wz := v.getLsbD 2 }) ∧
    s.writeReg 0x0C 4 v = { s with cmdBase := v } ∧ (s.writeReg 0x0C 4 v).readReg 0x0C 4 = v ∧
    s.writeReg 0x1C 4 v = { s with wsCap := v } ∧ (s.writeReg 0x1C 4 v).readReg 0x1C 4 = v

/-- 10_state.md R36, in every state that meets the status invariant. -/
def Obligations.BusyRegisterWrites : Prop :=
  ∀ (s : State) (v : Word), StatusOk s → s.busy = true →
    s.writeReg 0x0C 4 v = s ∧ s.writeReg 0x1C 4 v = s ∧ s.writeReg 0x04 4 v = { s with irqEn := v.getLsbD 1 } ∧
      s.writeReg 0x08 4 v = s ∧
      ∀ off width, (s.writeReg off width v).wsCap = s.wsCap ∧ (s.writeReg off width v).wz = s.wz

/-- "So WS_CAP and CTRL.WZ cannot change during a run" (10_state.md R36), nor CMD_BASE or the parameters. -/
def Obligations.RunParametersFixed : Prop :=
  ∀ s t : State, s.busy = true → step s = .next t → t.busy = true →
    t.wz = s.wz ∧ t.wsCap = s.wsCap ∧ t.cmdBase = s.cmdBase ∧ t.cfg = s.cfg

/-- 60_exceptions.md R210: the line, and that it rises in the step in which BUSY falls. -/
def Obligations.InterruptLine : Prop :=
  (∀ s : State, s.irq = (s.irqEn && (s.done || s.err))) ∧
  ∀ s t : State, StatusOk s → s.busy = true → engineStep s = .next t →
    s.irq = false ∧ t.irq = (s.irqEn && !t.busy)

/-! ### END and errors -/

/-- 40_control.md R104: END ends the run and changes nothing but BUSY (the phase) and DONE. -/
def Obligations.EndEndsTheRun : Prop :=
  ∀ s : State, exec .endList s = .next { s with phase := .idle, done := true } ∧
    ∀ t, exec .endList s = .next t → t.busy = false ∧ t.cmdPtr = s.cmdPtr ∧ t.cmdCount = s.cmdCount ∧
      ∀ a, t.mem.read a = s.mem.read a

/-- 60_exceptions.md R202, R203: whatever the engine's move, if it raises an error then the engine is IDLE, CMD_PTR and
CMD_COUNT stay, RES_* stay, and unless the error is ENC_ERROR nothing but the error's own fields and the footprint
records changes: no byte of memory, no WS_*. -/
def Obligations.ErrorsArePrecise : Prop :=
  ∀ s t : State, s.err = false → engineStep s = .next t → t.err = true →
    t.phase = .idle ∧ t.done = s.done ∧ t.cmdPtr = s.cmdPtr ∧ t.cmdCount = s.cmdCount ∧ t.resW = s.resW ∧
      t.resH = s.resH ∧ t.resWaste = s.resWaste ∧ t.errCode ≠ .noError ∧
      (t.errCode ≠ .encError →
        t = { s with
          errCode := t.errCode, errInfo := t.errInfo, err := true, phase := .idle, footprint := t.footprint,
          written := t.written })

/-! ### Validation lists -/

/-- The validation list of DIFFUSE (41_dither.md R121). -/
def Obligations.DiffuseChecks : Prop :=
  ∀ (src dst width height : Nat) (s : State),
    ChecksInOrder (.diffuse src dst width height) s True
      [(width = 0, .empty, 3), (height = 0, .empty, 4), (s.cfg.dwMax < width, .limit, 3),
       (Misfit s src (8 * (width * height)), .range, 1), (Misfit s dst (4 * (width * height)), .range, 2),
       (Share dst (4 * (width * height)) src (8 * (width * height)), .overlap, 2)]

/-- The validation list of SEQ_ENC and of STR_ENC (42_transcoder.md R141, R150). -/
def Obligations.EncodeChecks : Prop :=
  ∀ (src dst width height fcount : Nat) (s : State) (i : Instr),
    i = .seqEnc src dst width height fcount ∨ i = .strEnc src dst width height fcount →
    ChecksInOrder i s True
      [(width = 0, .empty, 3), (height = 0, .empty, 4), (fcount = 0, .empty, 5),
       (height % fcount ≠ 0, .dimMismatch, 5), (Misfit s src (width * height), .range, 1),
       (Misfit s dst (width * height), .range, 2),
       (Share dst (width * height) src (width * height), .overlap, 2)]

/-- The validation list of SEQ_DEC (42_transcoder.md R145). -/
def Obligations.SeqDecChecks : Prop :=
  ∀ (src dst width height fcount pal palLen : Nat) (s : State),
    ChecksInOrder (.seqDec src dst width height fcount pal palLen) s
      (ScanFails (.seqDec src dst width height fcount pal palLen) s src (width * height) palLen)
      [(width = 0, .empty, 3), (height = 0, .empty, 4), (fcount = 0, .empty, 5),
       (width % fcount ≠ 0, .dimMismatch, 5), (BadPalette palLen, .paletteLen, 9),
       (Misfit s src (width * height), .range, 1), (Misfit s dst (4 * (width * height)), .range, 2),
       (Misfit s pal (4 * palLen), .range, 8),
       (Share dst (4 * (width * height)) src (width * height) ∨ Share dst (4 * (width * height)) pal (4 * palLen),
        .overlap, 2)]

/-- The validation list of STR_DEC (42_transcoder.md R154). -/
def Obligations.StrDecChecks : Prop :=
  ∀ (src dst width height fwidth fheight pal palLen : Nat) (s : State),
    ChecksInOrder (.strDec src dst width height fwidth fheight pal palLen) s
      (ScanFails (.strDec src dst width height fwidth fheight pal palLen) s src (width * height) palLen)
      [(width = 0, .empty, 3), (height = 0, .empty, 4), (fwidth = 0, .empty, 6), (fheight = 0, .empty, 7),
       ((width * height) % (fwidth * fheight) ≠ 0, .dimMismatch, 6), (BadPalette palLen, .paletteLen, 9),
       (Misfit s src (width * height), .range, 1), (Misfit s dst (4 * (width * height)), .range, 2),
       (Misfit s pal (4 * palLen), .range, 8),
       (Share dst (4 * (width * height)) src (width * height) ∨ Share dst (4 * (width * height)) pal (4 * palLen),
        .overlap, 2)]

/-- The validation list of RESOLVE (42_transcoder.md R158). -/
def Obligations.ResolveChecks : Prop :=
  ∀ (src dst width height pal palLen : Nat) (s : State),
    ChecksInOrder (.resolve src dst width height pal palLen) s
      (ScanFails (.resolve src dst width height pal palLen) s src (width * height) palLen)
      [(width = 0, .empty, 3), (height = 0, .empty, 4), (BadPalette palLen, .paletteLen, 9),
       (Misfit s src (width * height), .range, 1), (Misfit s dst (4 * (width * height)), .range, 2),
       (Misfit s pal (4 * palLen), .range, 8),
       (Share dst (4 * (width * height)) src (width * height) ∨ Share dst (4 * (width * height)) pal (4 * palLen),
        .overlap, 2)]

/-- The validation list of RASTER (43_optimizer.md R172), with h = ceil_div(T, w). -/
def Obligations.RasterChecks : Prop :=
  ∀ (src dst width height rwidth : Nat) (s : State),
    ChecksInOrder (.raster src dst width height rwidth) s True
      [(width = 0, .empty, 3), (height = 0, .empty, 4), (rwidth = 0, .empty, 10),
       (Misfit s src (width * height), .range, 1),
       (Misfit s dst (rwidth * ((width * height + rwidth - 1) / rwidth)), .range, 2),
       (Share dst (rwidth * ((width * height + rwidth - 1) / rwidth)) src (width * height), .overlap, 2)]

/-- The validation list of WSEARCH (43_optimizer.md R185), with S = F·Wf, T = S·Hf, CAP = WS_CAP, MAXR and NC. -/
def Obligations.WsearchChecks : Prop :=
  ∀ (src fcount fwidth fheight pal palLen scratch scrLen log logLen : Nat) (s : State),
    ChecksInOrder (.wsearch src fcount fwidth fheight pal palLen scratch scrLen log logLen) s
      (ScanFails (.wsearch src fcount fwidth fheight pal palLen scratch scrLen log logLen) s src
        (fcount * fwidth * fheight) palLen)
      [(fcount = 0, .empty, 5), (fwidth = 0, .empty, 6), (fheight = 0, .empty, 7), (s.wsCap = 0, .empty, 0x11C),
       (log % 4 ≠ 0, .badDesc, 13), (BadPalette palLen, .paletteLen, 9),
       (Misfit s src (fcount * fwidth * fheight), .range, 1), (Misfit s pal (4 * palLen), .range, 8),
       (Misfit s scratch scrLen, .range, 11), (Misfit s log logLen, .range, 13),
       (scrLen < maxRaster (fcount * fwidth) (fcount * fwidth * fheight) s.wsCap.toNat, .range, 12),
       (logLen < 16 * candCount (fcount * fwidth) s.wsCap.toNat, .range, 14),
       (Share scratch scrLen src (fcount * fwidth * fheight) ∨ Share scratch scrLen pal (4 * palLen) ∨
        Share scratch scrLen log logLen, .overlap, 11),
       (Share log logLen src (fcount * fwidth * fheight) ∨ Share log logLen pal (4 * palLen) ∨
        Share log logLen scratch scrLen, .overlap, 13)]

/-! ### Results -/

/-- DIFFUSE (41_dither.md R121 to R126): it completes, with RES_* and its frame; for each channel there are residuals r
such that every output byte is the clamped value's top 8 bits, every residual its low 8 bits, and the error waiting at a
pixel is at most 4080. -/
def Obligations.DiffuseResult : Prop :=
  ∀ (src dst width height : Nat) (s : State), s.cfg.legal = true → DiffuseOk src dst width height s →
    ∃ t, exec (.diffuse src dst width height) s = .next t ∧ Completes s t width height 0 ∧ t.cursor = s.cursor ∧
      SameOutside s t dst (4 * (width * height)) ∧
      ∀ c : Chan, ∃ r : Nat → Nat → Nat, ∀ y < height, ∀ x < width,
        (t.mem.read (dst + 4 * (y * width + x) + c.index)).toNat = clampedAt s.mem src width c r y x / 256 ∧
        r y x = clampedAt s.mem src width c r y x % 256 ∧ waitingError width r y x ≤ 4080

/-- The accumulators after DIFFUSE (41_dither.md R121, R124, R126; 10_state.md R38), over all DW_MAX + 2 cells of a row: every
cell of the next row is 0; the current row holds what the next row held before the swap, so its cells 0 to W + 1 are at
most 4080, and its others are 0, or with H = 1 what the next row held before the command. That the cells keep these values
between two DIFFUSEs, where 93_implementation_defined.md U2 lets them be any, is the model's choice (log 28). -/
def Obligations.DiffuseAccumulators : Prop :=
  ∀ (src dst width height : Nat) (s t : State), DiffuseOk src dst width height s →
    exec (.diffuse src dst width height) s = .next t →
    ∀ c : Chan, ((t.acc.get c).nxt.values t.cfg) = List.replicate (s.cfg.dwMax + 2) 0 ∧
      ((t.acc.get c).cur.values t.cfg).length = s.cfg.dwMax + 2 ∧
      (∀ j < width + 2, (t.acc.get c).cur.cell j ≤ 4080) ∧
      (∀ j, width + 2 ≤ j →
        (t.acc.get c).cur.cell j = if height = 1 then (s.acc.get c).nxt.cell j else 0)

/-- 41_dither.md R127: the output bytes are a function of W, H and the source bytes alone. -/
def Obligations.DiffuseIsDeterministic : Prop :=
  ∀ (src dst src' dst' width height : Nat) (s s' t t' : State),
    DiffuseOk src dst width height s → DiffuseOk src' dst' width height s' →
    (∀ n < 8 * (width * height), s'.mem.read (src' + n) = s.mem.read (src + n)) →
    exec (.diffuse src dst width height) s = .next t → exec (.diffuse src' dst' width height) s' = .next t' →
    ∀ n < 4 * (width * height), t'.mem.read (dst' + n) = t.mem.read (dst + n)

/-- SEQ_ENC (42_transcoder.md R141, R142). -/
def Obligations.SeqEncResult : Prop :=
  ∀ (src dst width height fcount : Nat) (s : State), s.cfg.legal = true → EncodeOk src dst width height fcount s →
    ∃ t, exec (.seqEnc src dst width height fcount) s = .next t ∧
      Completes s t (fcount * width) (height / fcount) 0 ∧ t.acc = s.acc ∧
      SameOutside s t dst (width * height) ∧
      ∀ f < fcount, ∀ y < height / fcount, ∀ x < width,
        t.mem.read (dst + (fcount * (y * width + x) + f)) =
          s.mem.read (src + (f * (height / fcount) * width + y * width + x))

/-- STR_ENC (42_transcoder.md R150). -/
def Obligations.StrEncResult : Prop :=
  ∀ (src dst width height fcount : Nat) (s : State), s.cfg.legal = true → EncodeOk src dst width height fcount s →
    ∃ t, exec (.strEnc src dst width height fcount) s = .next t ∧
      Completes s t fcount (width * (height / fcount)) 0 ∧ t.acc = s.acc ∧ t.cursor = s.cursor ∧
      SameOutside s t dst (width * height) ∧
      ∀ y < height / fcount, ∀ x < width, ∀ f < fcount,
        t.mem.read (dst + ((y * width + x) * fcount + f)) =
          s.mem.read (src + (f * (height / fcount) * width + y * width + x))

/-- 42_transcoder.md R151: STR_ENC and SEQ_ENC write the same bytes and differ only in RES_W and RES_H. -/
def Obligations.EncodersWriteTheSameBytes : Prop :=
  ∀ (src dst width height fcount : Nat) (s : State), s.cfg.legal = true → EncodeOk src dst width height fcount s →
    ∃ t t', exec (.strEnc src dst width height fcount) s = .next t ∧
      exec (.seqEnc src dst width height fcount) s = .next t' ∧
      (∀ a, t.mem.read a = t'.mem.read a) ∧
      t.resW.toNat = fcount ∧ t.resH.toNat = width * (height / fcount) ∧
      t'.resW.toNat = fcount * width ∧ t'.resH.toNat = height / fcount ∧ t.resWaste = t'.resWaste

/-- SEQ_DEC (42_transcoder.md R145, R146). -/
def Obligations.SeqDecResult : Prop :=
  ∀ (src dst width height fcount pal palLen : Nat) (s : State), s.cfg.legal = true → width ≠ 0 → height ≠ 0 →
    fcount ≠ 0 → width % fcount = 0 → PaletteOk src dst (width * height) pal palLen s →
    ∃ t, exec (.seqDec src dst width height fcount pal palLen) s = .next t ∧
      Completes s t (width / fcount) (fcount * height) 0 ∧ t.acc = s.acc ∧ t.cursor = s.cursor ∧
      SameOutside s t dst (4 * (width * height)) ∧
      ∀ y < height, ∀ x < width / fcount, ∀ f < fcount, ∀ c < 4,
        t.mem.read (dst + 4 * ((f * height + y) * (width / fcount) + x) + c) =
          s.mem.read (pal + 4 * (s.mem.read (src + ((y * (width / fcount) + x) * fcount + f))).toNat + c)

/-- STR_DEC (42_transcoder.md R154), with F = (W·H) div (Wf·Hf). -/
def Obligations.StrDecResult : Prop :=
  ∀ (src dst width height fwidth fheight pal palLen : Nat) (s : State), s.cfg.legal = true → width ≠ 0 →
    height ≠ 0 → fwidth ≠ 0 → fheight ≠ 0 → (width * height) % (fwidth * fheight) = 0 →
    PaletteOk src dst (width * height) pal palLen s →
    ∃ t, exec (.strDec src dst width height fwidth fheight pal palLen) s = .next t ∧
      Completes s t fwidth (width * height / (fwidth * fheight) * fheight) 0 ∧ t.acc = s.acc ∧
      t.cursor = s.cursor ∧ SameOutside s t dst (4 * (width * height)) ∧
      ∀ y < fheight, ∀ x < fwidth, ∀ f < width * height / (fwidth * fheight), ∀ c < 4,
        t.mem.read (dst + 4 * ((f * fheight + y) * fwidth + x) + c) =
          s.mem.read (pal + 4 * (s.mem.read (src + ((y * fwidth + x) *
            (width * height / (fwidth * fheight)) + f))).toNat + c)

/-- RESOLVE (42_transcoder.md R158). -/
def Obligations.ResolveResult : Prop :=
  ∀ (src dst width height pal palLen : Nat) (s : State), s.cfg.legal = true → width ≠ 0 → height ≠ 0 →
    PaletteOk src dst (width * height) pal palLen s →
    ∃ t, exec (.resolve src dst width height pal palLen) s = .next t ∧ Completes s t width height 0 ∧
      t.acc = s.acc ∧ t.cursor = s.cursor ∧ SameOutside s t dst (4 * (width * height)) ∧
      ∀ n < width * height, ∀ c < 4,
        t.mem.read (dst + 4 * n + c) = s.mem.read (pal + 4 * (s.mem.read (src + n)).toNat + c)

/-- 42_transcoder.md R147: SEQ_ENC of a strip, then SEQ_DEC of its output with the same F, writes the bytes that RESOLVE
of the strip writes. -/
def Obligations.SequenceRoundTrip : Prop :=
  ∀ (src mid dst wf hf frames pal palLen : Nat) (s : State), s.cfg.legal = true →
    EncodeOk src mid wf (frames * hf) frames s → PaletteOk src dst (wf * (frames * hf)) pal palLen s →
    Apart mid (wf * (frames * hf)) dst (4 * (wf * (frames * hf))) → Apart mid (wf * (frames * hf)) pal (4 * palLen) →
    ∃ t1 t2 t3, exec (.seqEnc src mid wf (frames * hf) frames) s = .next t1 ∧
      exec (.seqDec mid dst (frames * wf) hf frames pal palLen) t1 = .next t2 ∧
      exec (.resolve src dst wf (frames * hf) pal palLen) s = .next t3 ∧
      (∀ n < 4 * (wf * (frames * hf)), t2.mem.read (dst + n) = t3.mem.read (dst + n)) ∧
      t2.resW = t3.resW ∧ t2.resH = t3.resH

/-- 42_transcoder.md R156: the stream round trip, and both mixed ones. -/
def Obligations.StreamRoundTrip : Prop :=
  ∀ (src mid dst wf hf frames pal palLen : Nat) (s : State), s.cfg.legal = true →
    EncodeOk src mid wf (frames * hf) frames s → PaletteOk src dst (wf * (frames * hf)) pal palLen s →
    Apart mid (wf * (frames * hf)) dst (4 * (wf * (frames * hf))) → Apart mid (wf * (frames * hf)) pal (4 * palLen) →
    ∃ e1 e2 t1 t2 t3 t4, exec (.strEnc src mid wf (frames * hf) frames) s = .next e1 ∧
      exec (.seqEnc src mid wf (frames * hf) frames) s = .next e2 ∧
      exec (.strDec mid dst frames (wf * hf) wf hf pal palLen) e1 = .next t1 ∧
      exec (.seqDec mid dst (frames * wf) hf frames pal palLen) e1 = .next t2 ∧
      exec (.strDec mid dst (frames * wf) hf wf hf pal palLen) e2 = .next t3 ∧
      exec (.resolve src dst wf (frames * hf) pal palLen) s = .next t4 ∧
      ∀ n < 4 * (wf * (frames * hf)), t1.mem.read (dst + n) = t4.mem.read (dst + n) ∧
        t2.mem.read (dst + n) = t4.mem.read (dst + n) ∧ t3.mem.read (dst + n) = t4.mem.read (dst + n)

/-- RASTER (43_optimizer.md R172, 20_memory.md R62), with h = ceil_div(T, w): T = W·H source bytes, then zeros, and
0 ≤ w·h − T < w. -/
def Obligations.RasterResult : Prop :=
  ∀ (src dst width height w h : Nat) (s : State), s.cfg.legal = true → width ≠ 0 → height ≠ 0 → w ≠ 0 →
    h = (width * height + w - 1) / w → src + width * height ≤ s.cfg.memSize → dst + w * h ≤ s.cfg.memSize →
    Apart dst (w * h) src (width * height) →
    width * height ≤ w * h ∧ w * h - width * height < w ∧
    ∃ t, exec (.raster src dst width height w) s = .next t ∧ Completes s t w h (w * h - width * height) ∧
      t.acc = s.acc ∧ t.cursor = s.cursor ∧ SameOutside s t dst (w * h) ∧
      ∀ n < w * h, t.mem.read (dst + n) = if n < width * height then s.mem.read (src + n) else 0

/-! ### WSEARCH -/

/-- 43_optimizer.md R180: the candidate sequence; and MAXR (R185, check 6) is its largest raster. -/
def Obligations.CandidateSequence : Prop :=
  ∀ step cap : Nat, step ≠ 0 → cap ≠ 0 →
    1 ≤ candCount step cap ∧ candWidth step cap (candCount step cap) = cap ∧ cap ≤ candCount step cap * step ∧
    (∀ k, 1 ≤ k → k < candCount step cap → k * step < cap ∧ candWidth step cap k = k * step) ∧
    (∀ k, 1 ≤ k → k < candCount step cap → candWidth step cap k < candWidth step cap (k + 1)) ∧
    (cap ≤ step → candCount step cap = 1) ∧
    (cap % step = 0 → candCount step cap * step = cap) ∧
    ∀ total,
      (∀ k, 1 ≤ k → k ≤ candCount step cap → candCells step total cap k ≤ maxRaster step total cap) ∧
      ∃ k, 1 ≤ k ∧ k ≤ candCount step cap ∧ candCells step total cap k = maxRaster step total cap

/-- A WSEARCH that passes its checks and has no answer yet writes its first raster, sends its first request and waits
(43_optimizer.md R182, R186); the other registers and bytes stay. With WZ = 1 the first candidate is evaluated where it
has no wasted cell. After an answer OK = 1 the search goes to the next candidate d it evaluates, those between being
skipped (R181), writes its raster, sends its request and waits; scratch bytes at or beyond w·h keep their values. Where it
evaluates no more, it completes and sends nothing. What the answer itself does is WsearchEmitsImprovements. -/
def Obligations.WsearchSendsFirstRequest : Prop :=
  (∀ (src fcount fwidth fheight pal palLen scratch scrLen log logLen w h : Nat) (s : State), s.cfg.legal = true →
    WsearchOk src fcount fwidth fheight pal palLen scratch scrLen log logLen s → s.replies = [] →
    w = (if s.wsCap.toNat ≤ fcount * fwidth then s.wsCap.toNat else fcount * fwidth) →
    h = (fcount * fwidth * fheight + w - 1) / w → (s.wz = false ∨ w * h = fcount * fwidth * fheight) →
    ∃ t, exec (.wsearch src fcount fwidth fheight pal palLen scratch scrLen log logLen) s = .next t ∧
      t.busy = true ∧ t.encWait = true ∧ SearchFrame s t ∧ t.wsCurW.toNat = w ∧ t.wsCurK = 1 ∧ t.wsBestW = 0 ∧
      t.wsBestH = 0 ∧ t.wsBestSize = 0 ∧ t.wsEmits = 0 ∧ t.wsCands = 0 ∧ t.replies = [] ∧
      t.sent = s.sent ++ [.request { addr := scratch, w := w, h := h, pal := pal, palLen := palLen, k := 1 }] ∧
      SameOutside s t scratch (w * h) ∧
      ∀ n < w * h, t.mem.read (scratch + n) = if n < fcount * fwidth * fheight then s.mem.read (src + n) else 0) ∧
  (∀ (c d : Search) (r : EncReply) (w h : Nat) (s : State), WaitOk s c → s.phase = .execute c → s.replies = [r] →
    r.ok = true → d = { c with k := d.k } → c.k < d.k → d.k ≤ c.nCands →
    (∀ k, c.k < k → k < d.k → s.wz = true ∧ candCells c.step c.total c.cap k ≠ c.total) →
    w = (if c.cap ≤ d.k * c.step then c.cap else d.k * c.step) → h = (c.total + w - 1) / w →
    (s.wz = false ∨ w * h = c.total) →
    ∃ t, engineStep s = .next t ∧
      t = { s.takeReply c r with
        replies := [], wsCurW := BitVec.ofNat 32 w, wsCurK := BitVec.ofNat 32 d.k, mem := t.mem, phase := .execute d,
        sent := (s.takeReply c r).sent ++
          [.request { addr := c.scratch, w := w, h := h, pal := c.pal, palLen := c.palLen, k := d.k }] } ∧
      (∀ n < w * h, t.mem.read (c.scratch + n) = if n < c.total then s.mem.read (c.src + n) else 0) ∧
      ∀ a, (a < c.scratch ∨ c.scratch + w * h ≤ a) → t.mem.read a = (s.takeReply c r).mem.read a) ∧
  ∀ (c : Search) (r : EncReply) (s : State), WaitOk s c → s.phase = .execute c → s.replies = [r] → r.ok = true →
    (∀ k, c.k < k → k ≤ c.nCands → s.wz = true ∧ candCells c.step c.total c.cap k ≠ c.total) →
    ∃ t, engineStep s = .next t ∧ t.phase = .fetch ∧ t.cmdPtr = s.cmdPtr + 64 ∧ t.cmdCount = s.cmdCount + 1 ∧
      t.replies = [] ∧ t.sent = (s.takeReply c r).sent ∧ t.mem = (s.takeReply c r).mem ∧
      (c.k = c.nCands → t.wsCurW = s.wsCurW ∧ t.wsCurK = s.wsCurK) ∧
      (c.k < c.nCands → t.wsCurW.toNat = c.cap ∧ t.wsCurK.toNat = c.nCands)

/-- 43_optimizer.md R188: where the encoder answers OK to every candidate the search evaluates, WSEARCH completes;
WS_BEST_SIZE is the minimum of the sizes returned and WS_BEST_W the width of the first candidate that returned it. The
sizes are the answers at hand, the draws of R177 (log 5). It covers WZ = 0 and WZ = 1, and the search with no candidate to
evaluate. -/
def Obligations.WsearchFindsOptimum : Prop :=
  ∀ (src fcount fwidth fheight pal palLen scratch scrLen log logLen step total cap : Nat) (ev : List Nat) (s : State),
    s.cfg.legal = true → WsearchOk src fcount fwidth fheight pal palLen scratch scrLen log logLen s →
    step = fcount * fwidth → total = fcount * fwidth * fheight → cap = s.wsCap.toNat →
    ev = evaluated s.wz step total cap → ev.length ≤ s.replies.length →
    (∀ r ∈ s.replies.take ev.length, r.ok = true) →
    ∃ t, exec (.wsearch src fcount fwidth fheight pal palLen scratch scrLen log logLen) s = .next t ∧
      SearchEndFrame s t ∧ t.phase = .fetch ∧ t.cmdPtr = s.cmdPtr + 64 ∧ t.cmdCount = s.cmdCount + 1 ∧
      t.replies = s.replies.drop ev.length ∧ t.wsCands.toNat = ev.length ∧
      t.wsCurK.toNat = candCount step cap ∧ t.wsCurW.toNat = cap ∧
      (ev = [] → t.wsEmits = 0 ∧ t.wsBestW = 0 ∧ t.wsBestH = 0 ∧ t.wsBestSize = 0 ∧ t.resW = 0 ∧ t.resH = 0 ∧
        t.resWaste = 0) ∧
      (ev ≠ [] → ∃ j < ev.length, ∃ k r, ev[j]? = some k ∧ s.replies[j]? = some r ∧ t.wsBestSize = r.value ∧
        (∀ i r', i < ev.length → s.replies[i]? = some r' → r.value.toNat ≤ r'.value.toNat) ∧
        (∀ i r', i < j → s.replies[i]? = some r' → r.value.toNat < r'.value.toNat) ∧
        t.wsBestW.toNat = candWidth step cap k ∧
        t.wsBestH.toNat = (total + candWidth step cap k - 1) / candWidth step cap k ∧
        t.resW = t.wsBestW ∧ t.resH = t.wsBestH ∧
        t.resWaste.toNat = candCells step total cap k - total ∧ 1 ≤ t.wsEmits.toNat)

/-- 43_optimizer.md R187: after any WSEARCH, whether it waits, completes or stops on ENC_ERROR, the log is sound, and
WS_EMITS ≤ WS_CANDS ≤ NC; the same after any move of a search that waits. -/
def Obligations.WsearchLogIsMonotonic : Prop :=
  (∀ (src fcount fwidth fheight pal palLen scratch scrLen log logLen : Nat) (s t : State), s.cfg.legal = true →
    WsearchOk src fcount fwidth fheight pal palLen scratch scrLen log logLen s →
    exec (.wsearch src fcount fwidth fheight pal palLen scratch scrLen log logLen) s = .next t →
    LogOk log (candCount (fcount * fwidth) s.wsCap.toNat + 1) t ∧
      t.wsCands.toNat ≤ candCount (fcount * fwidth) s.wsCap.toNat) ∧
  ∀ (c : Search) (s t : State), WaitOk s c → s.phase = .execute c → engineStep s = .next t →
    LogOk c.log (c.nCands + 1) t ∧ t.wsCands.toNat ≤ c.nCands

/-- What the engine does with an answer OK = 1 (43_optimizer.md R183, R184): an improving candidate is emitted, another
gets KEEP = 0 and no record. WS_CANDS counts it (R186). -/
def Obligations.WsearchEmitsImprovements : Prop :=
  ∀ (s : State) (c : Search) (r : EncReply), WaitOk s c → r.ok = true →
    ((s.wsEmits = 0 ∨ r.value.toNat < s.wsBestSize.toNat) →
      ∃ m, s.takeReply c r =
          { s with
            wsCands := s.wsCands + 1, wsBestSize := r.value, wsBestW := BitVec.ofNat 32 c.width,
            wsBestH := BitVec.ofNat 32 c.height, wsEmits := s.wsEmits + 1, mem := m,
            sent := s.sent ++ [.verdict true c.width c.k] } ∧
        m.readLE (c.log + 16 * s.wsEmits.toNat) 4 = c.width ∧
        m.readLE (c.log + 16 * s.wsEmits.toNat + 4) 4 = c.height ∧
        m.readLE (c.log + 16 * s.wsEmits.toNat + 8) 4 = r.value.toNat ∧
        m.readLE (c.log + 16 * s.wsEmits.toNat + 12) 4 = c.k ∧
        ∀ a, (a < c.log + 16 * s.wsEmits.toNat ∨ c.log + 16 * s.wsEmits.toNat + 16 ≤ a) → m.read a = s.mem.read a) ∧
    (s.wsEmits ≠ 0 → s.wsBestSize.toNat ≤ r.value.toNat →
      s.takeReply c r =
        { s with wsCands := s.wsCands + 1, sent := s.sent ++ [.verdict false c.width c.k] })

/-- An answer OK = 0 ends the run with ENC_ERROR (43_optimizer.md R186): WS_CANDS counts the candidate, no verdict is sent,
nothing else changes. -/
def Obligations.EncoderErrorEndsRun : Prop :=
  ∀ (s : State) (c : Search) (v : Word) (rs : List EncReply), s.phase = .execute c →
    s.replies = { ok := false, value := v } :: rs →
    engineStep s = .next
      { s with
        replies := rs, wsCands := s.wsCands + 1, errCode := .encError, errInfo := v, err := true, phase := .idle }

/-- A search answers alike whenever its answers come (43_optimizer.md R177, log 5): an answer that arrives while it waits
gives the state that the same answer at hand before its request gives. -/
def Obligations.AnswersMayComeLate : Prop :=
  (∀ (src fcount fwidth fheight pal palLen scratch scrLen log logLen : Nat) (s t : State) (c : Search) (r : EncReply)
    (rs : List EncReply),
    exec (.wsearch src fcount fwidth fheight pal palLen scratch scrLen log logLen) { s with replies := [] } = .next t →
    t.phase = .execute c →
    engineStep { t with replies := r :: rs } =
      exec (.wsearch src fcount fwidth fheight pal palLen scratch scrLen log logLen) { s with replies := r :: rs }) ∧
  ∀ (s t : State) (c d : Search) (r r' : EncReply) (rs : List EncReply), s.phase = .execute c →
    engineStep { s with replies := [r] } = .next t → t.phase = .execute d →
    engineStep { t with replies := r' :: rs } = engineStep { s with replies := r :: r' :: rs }

/-- 43_optimizer.md R178: nothing but a response or a reset ends the wait; without an answer the engine takes no step. -/
def Obligations.SilentEncoderHangs : Prop :=
  ∀ (s : State) (c : Search), s.phase = .execute c → s.replies = [] →
    engineStep s = .next s ∧
    ∀ (e : Event) (t : State), handle e s = .next t → e ≠ .reset →
      t.phase = .execute c ∧ t.busy = true ∧ t.encWait = true

/-- An EncResponse is taken once, while a request stands; any other is refused, and so is an answer to a request that a reset
abandoned or that has been answered already (43_optimizer.md R176, 70_reset_and_hazards.md R231, R240). That which request
an answer is for is part of the input is the model's choice (log 29). -/
def Obligations.ResponsesArriveOnce : Prop :=
  ∀ (s : State) (r : EncReply),
    (s.encWait = true → s.replies = [] → handle (.encResponse r) s = .next { s with replies := [r] }) ∧
    (s.encWait = false ∨ s.replies ≠ [] → handle (.encResponse r) s = .refused .unexpectedResponse) ∧
    handle (.staleResponse r) s = .refused .staleResponse

/-! ### Frames over all commands -/

/-- A command changes no byte outside its written regions (20_memory.md R66, 43_optimizer.md R185); and a sound search that
goes on with an answer changes none outside the part of SCRATCH and LOG that its candidates can reach. -/
def Obligations.WritesStayInRegions : Prop :=
  (∀ (i : Instr) (s t : State), s.cfg.legal = true → exec i s = .next t →
    ∀ a, (∀ q ∈ writes i, q.contains a = false) → t.mem.read a = s.mem.read a) ∧
  ∀ (c : Search) (s t : State), WaitOk s c → s.phase = .execute c → engineStep s = .next t →
    ∀ a, (a < c.scratch ∨ c.scratch + c.maxRaster ≤ a) → (a < c.log ∨ c.log + 16 * c.nCands ≤ a) →
      t.mem.read a = s.mem.read a

/-- A command changes no byte of its read regions, the palette among them (20_memory.md R67, 42_transcoder.md R140), and
neither does a sound search that goes on with an answer. -/
def Obligations.SourcesAreKept : Prop :=
  (∀ (i : Instr) (s t : State), s.cfg.legal = true → exec i s = .next t →
    ∀ a, (∃ q ∈ reads i, q.contains a = true) → t.mem.read a = s.mem.read a) ∧
  ∀ (c : Search) (s t : State), WaitOk s c → s.phase = .execute c → engineStep s = .next t →
    ∀ a, (c.src ≤ a ∧ a < c.src + c.total ∨ c.pal ≤ a ∧ a < c.pal + 4 * c.palLen) →
      t.mem.read a = s.mem.read a

/-- Only WSEARCH writes WS_*, and only RASTER and WSEARCH write a non-zero RES_WASTE (10_state.md R32, R33). The last clauses
are the frame of a WSEARCH that waits, completes or fails, and of its moves once it has waited. -/
def Obligations.OnlyWsearchWritesSearchRegisters : Prop :=
  (∀ (i : Instr) (s t : State), exec i s = .next t →
    (∀ a b c d e f g h k l, i ≠ .wsearch a b c d e f g h k l) →
    SameSearchRegisters s t ∧ t.replies = s.replies ∧ t.sent = s.sent ∧
      ((∀ a b c d e, i ≠ .raster a b c d e) → t.resWaste = s.resWaste ∨ t.resWaste = 0)) ∧
  (∀ (s : State) (off width : Nat) (v : Word), SameSearchRegisters s (s.writeReg off width v)) ∧
  (∀ (src fcount fwidth fheight pal palLen scratch scrLen log logLen : Nat) (s t : State),
    exec (.wsearch src fcount fwidth fheight pal palLen scratch scrLen log logLen) s = .next t →
    SearchEndFrame { s with err := t.err, errCode := t.errCode, errInfo := t.errInfo } t) ∧
  ∀ (c : Search) (s t : State), s.phase = .execute c → engineStep s = .next t →
    SearchEndFrame { s with err := t.err, errCode := t.errCode, errInfo := t.errInfo } t

/-! ### The outside world -/

/-- Writes by the host or the encoder during a run (20_memory.md R70, R76): in the footprint so far they are refused; outside it,
where R70 leaves host accesses unconstrained, the write changes that byte alone and is recorded (log 8); where such a write came
first, the command that turns out to use the byte is refused. -/
def Obligations.FootprintWritesAreRefused : Prop :=
  (∀ (s : State) (g : Agent) (a : Nat) (v : Byte), s.busy = true → a < s.cfg.memSize →
    ((∃ q ∈ s.footprint, q.contains a = true) → handle (.memWrite g a v) s = .refused (.footprintWritten g)) ∧
    ((∀ q ∈ s.footprint, q.contains a = false) →
      ∃ t, handle (.memWrite g a v) s = .next t ∧ t = { s with mem := t.mem, foreign := (g, a) :: s.foreign } ∧
        ∀ b, t.mem.read b = if b = a then v else s.mem.read b)) ∧
  ∀ (s s0 : State) (i : Instr) (g : Agent) (a : Nat), Turn s s0 → s.phase = .fetch → s.cmdPtr % 4 = 0 →
    s.cmdPtr + 64 ≤ s.cfg.memSize → decodeBytes (s.mem.readBytes s.cmdPtr 64) = .ok i → (g, a) ∈ s.foreign →
    (∃ q ∈ { base := s.cmdPtr, len := 64 } :: (reads i ++ writes i), q.contains a = true) →
    ∃ g', step s = .refused (.footprintWritten g')

/-- What the host and the encoder reach of data memory (20_memory.md R50, R70, R73, R76; 93_implementation_defined.md U4, W2,
W6). A host read in a region that the run would write, or that a run has written whose end the host has not seen, is a
draw (log 7, log 27), and everywhere else the byte; once a host read of STATUS has returned BUSY = 0, it is the byte
everywhere. The encoder is served the raster and the palette of its request, in IDLE every byte (log 21), and refused
everything else. Writes while IDLE are plain writes; those
during a run are FootprintWritesAreRefused. No access reaches beyond MEM_SIZE (log 13). -/
def Obligations.IdleMemoryAccess : Prop :=
  (∀ (s : State) (a : Nat), a < s.cfg.memSize →
    ((∃ q ∈ s.unseen, q.contains a = true) ∨ WouldWrite s a →
      handle (.memRead .host a) s =
        .next { s with hostData := (Config.freeByte s.draws).setWidth 32, draws := s.draws + 1 }) ∧
    ((∀ q ∈ s.unseen, q.contains a = false) → ¬WouldWrite s a →
      handle (.memRead .host a) s = .next { s with hostData := (s.mem.read a).setWidth 32 })) ∧
  (∀ s : State, s.busy = false →
    ∃ t, handle (.regRead (s.cfg.pxsBase + 0x08) 4) s = .next t ∧
      t = { s with hostData := s.readReg 0x08 4, written := [], unseen := [] } ∧
      ∀ a, a < s.cfg.memSize → handle (.memRead .host a) t = .next { t with hostData := (s.mem.read a).setWidth 32 }) ∧
  (∀ (s : State) (a : Nat), a < s.cfg.memSize →
    (s.busy = false → handle (.memRead .encoder a) s = .next { s with encData := s.mem.read a }) ∧
    (∀ c, s.phase = .execute c →
      ((c.scratch ≤ a ∧ a < c.scratch + c.width * c.height) ∨ (c.pal ≤ a ∧ a < c.pal + 4 * c.palLen) →
        handle (.memRead .encoder a) s = .next { s with encData := s.mem.read a }) ∧
      (¬(c.scratch ≤ a ∧ a < c.scratch + c.width * c.height) → ¬(c.pal ≤ a ∧ a < c.pal + 4 * c.palLen) →
        handle (.memRead .encoder a) s = .refused .encoderReadOutside)) ∧
    (s.busy = true → s.encWait = false → handle (.memRead .encoder a) s = .refused .encoderReadOutside)) ∧
  (∀ (s : State) (g : Agent) (a : Nat) (v : Byte), s.busy = false → a < s.cfg.memSize →
    ∃ t, handle (.memWrite g a v) s = .next t ∧ t = { s with mem := t.mem } ∧
      ∀ b, t.mem.read b = if b = a then v else s.mem.read b) ∧
  ∀ (s : State) (g : Agent) (a : Nat) (v : Byte), s.cfg.memSize ≤ a →
    handle (.memRead g a) s = .fault .noSuchAddress ∧ handle (.memWrite g a v) s = .fault .noSuchAddress

/-- 70_reset_and_hazards.md R230: after reset every register reads its reset value, the engine is IDLE, the port idle, the
interrupt line low; data memory is unchanged where no run was in progress. -/
def Obligations.ResetEffect : Prop :=
  ∀ s : State, ∃ t, handle .reset s = .next t ∧ (∀ off width, t.readReg off width = State.reset.readReg off width) ∧
    t.busy = false ∧ t.encWait = false ∧ t.irq = false ∧ t.replies = [] ∧
    (∃ n, s.draws ≤ n ∧ t.acc = Accum.unspecified n ∧ t.draws = n + 8) ∧
    t.cfg = s.cfg ∧ (s.busy = false → t.mem = s.mem)

/-- 70_reset_and_hazards.md R231: a reset during a run leaves every byte outside the regions that the run would write, and
turns every byte of them into a draw. Which those are: those of the commands so far; and, at a fetch, those of the command
there and, unless it is a WSEARCH, those of the list after it, up to the command that ends the run or fails. After a
WSEARCH the model takes more rather than less (log 9). -/
def Obligations.ResetDuringRun : Prop :=
  (∀ s t : State, s.busy = true → handle .reset s = .next t →
    ∀ a, (¬WouldWrite s a → t.mem.read a = s.mem.read a) ∧
      (WouldWrite s a → ∃ n, s.draws ≤ n ∧ n < t.draws ∧ t.mem.read a = Config.freeByte n)) ∧
  (∀ (s : State) (a : Nat), (∃ q ∈ s.written, q.contains a = true) → WouldWrite s a) ∧
  ∀ (s u : State) (i : Instr), s.phase = .fetch → s.cmdPtr % 4 = 0 → s.cmdPtr + 64 ≤ s.cfg.memSize →
    decodeBytes (s.mem.readBytes s.cmdPtr 64) = .ok i → s.err = false → exec i s = .next u →
    (u.err = false → ∀ a, (∃ q ∈ writes i, q.contains a = true) → WouldWrite s a) ∧
    ((∀ a b c d e f g h k l, i ≠ .wsearch a b c d e f g h k l) →
      (u.err = false → ∀ a, WouldWrite s a ↔ (∃ q ∈ writes i, q.contains a = true) ∨ WouldWrite u a) ∧
      (u.err = true → ∀ a, WouldWrite s a ↔ ∃ q ∈ s.written, q.contains a = true))

/-! ### Invariants -/

/-- The three invariants hold after reset. -/
def Obligations.ResetIsSound : Prop := StatusOk State.reset ∧ PointerOk State.reset ∧ MemoryOk State.reset

/-- "DONE and ERR are never both 1" (10_state.md R25), ERR_CODE is 0x00 exactly when ERR = 0, both flags are 0 during a
run: every step keeps it. -/
def Obligations.StatusIsKept : Prop := ∀ s : State, StatusOk s → Safe StatusOk (step s)

/-- The command pointer's invariant (10_state.md R28, R29; 40_control.md R106): every step keeps it. Where it holds, a
run's commands have taken at most MEM_SIZE bytes of descriptors, and CMD_BASE mod 4 = CMD_PTR mod 4; the bound on
CMD_COUNT is the model's (log 18). -/
def Obligations.PointerIsKept : Prop :=
  ∀ s : State, PointerOk s →
    Safe PointerOk (step s) ∧
    (s.busy = true →
      64 * s.cmdCount.toNat ≤ s.cfg.memSize ∧ s.cmdCount.toNat ≤ 2 ^ 26 ∧ s.cmdBase.toNat % 4 = s.cmdPtr % 4)

/-- Memory stays canonical and inside data memory, the run's written regions fit, a waiting search stays sound: every
step keeps it. -/
def Obligations.MemoryIsKept : Prop := ∀ s : State, MemoryOk s → Safe MemoryOk (step s)
end

