-- ==== Sys2Proof/Laws/Memory.lean ====
section
/-! SUPPORT. The laws of data memory: a read after a write, the canonical form, and blocks of bytes. -/

namespace Sys2Proof.Machine

open Sys2Proof

namespace Memory

/-! ### One byte -/

theorem get?_write (m : Memory) (a b : Nat) (v : Byte) :
    (m.write a v).get? b = if b = a then some v else m.get? b := by
  induction m with
  | nil => by_cases h : b = a <;> simp [Memory.write, Memory.get?, h]
  | cons c m ih =>
    obtain ⟨k, u⟩ := c
    simp only [Memory.write]
    split
    · by_cases h : b = a <;> simp [Memory.get?, h]
    · split
      · next h => subst h; by_cases h' : b = a <;> simp [Memory.get?, h']
      · next h1 h2 =>
        simp only [Memory.get?, ih]
        by_cases h : b = k
        · simp [h, show k ≠ a by omega]
        · simp [h]

@[simp] theorem read_write_self (m : Memory) (a : Nat) (v : Byte) : (m.write a v).read a = v := by
  simp [Memory.read, get?_write]

theorem read_write_other (m : Memory) {a b : Nat} (v : Byte) (h : b ≠ a) : (m.write a v).read b = m.read b := by
  simp [Memory.read, get?_write, h]

theorem read_write (m : Memory) (a b : Nat) (v : Byte) :
    (m.write a v).read b = if b = a then v else m.read b := by
  split
  · next h => simp [h]
  · next h => exact read_write_other m v h

/-! ### The canonical form -/

theorem mem_write {m : Memory} {a : Nat} {v : Byte} {x : Host.Cell} (h : x ∈ m.write a v) : x = (a, v) ∨ x ∈ m := by
  induction m with
  | nil => simpa [Memory.write] using h
  | cons c m ih =>
    obtain ⟨k, u⟩ := c
    simp only [Memory.write] at h
    split at h
    · simpa using h
    · split at h
      · rcases List.mem_cons.1 h with h | h
        · exact .inl h
        · exact .inr (List.mem_cons_of_mem _ h)
      · rcases List.mem_cons.1 h with h | h
        · exact .inr (h ▸ List.mem_cons_self)
        · exact (ih h).imp id (List.mem_cons_of_mem _)

/-- A write keeps the canonical form. -/
theorem wf_write {m : Memory} (h : m.wf) (a : Nat) (v : Byte) : (m.write a v).wf := by
  induction m with
  | nil => simp [Memory.write, Memory.wf]
  | cons c m ih =>
    obtain ⟨k, u⟩ := c
    rw [Memory.wf, List.pairwise_cons] at h
    simp only [Memory.write]
    split
    · next hlt =>
      refine List.pairwise_cons.2 ⟨fun x hx => ?_, List.pairwise_cons.2 h⟩
      rcases List.mem_cons.1 hx with rfl | hx
      · exact hlt
      · exact Nat.lt_trans hlt (h.1 x hx)
    · split
      · next heq => subst heq; exact List.pairwise_cons.2 h
      · next h1 h2 =>
        refine List.pairwise_cons.2 ⟨fun x hx => ?_, ih h.2⟩
        rcases mem_write hx with rfl | hx
        · show k < a
          omega
        · exact h.1 x hx

theorem below_write {m : Memory} {n a : Nat} (h : m.below n) (ha : a < n) (v : Byte) : (m.write a v).below n := by
  intro x hx
  rcases mem_write hx with rfl | hx
  · exact ha
  · exact h x hx

/-- In the canonical form an address below every listed one is not listed. -/
theorem get?_eq_none_of_lt {m : Memory} {a : Nat} (h : ∀ x ∈ m, a < x.1) : m.get? a = none := by
  induction m with
  | nil => rfl
  | cons c m ih =>
    have h1 : a ≠ c.1 := Nat.ne_of_lt (h c List.mem_cons_self)
    simpa [Memory.get?, h1] using ih (fun x hx => h x (List.mem_cons_of_mem _ hx))

/-- Canonical memories that list the same bytes are equal data. -/
theorem ext_of_wf {m n : Memory} (hm : m.wf) (hn : n.wf) (h : ∀ a, m.get? a = n.get? a) : m = n := by
  induction m generalizing n with
  | nil =>
    cases n with
    | nil => rfl
    | cons c n => simpa [Memory.get?] using h c.1
  | cons c m ih =>
    cases n with
    | nil => simpa [Memory.get?] using h c.1
    | cons d n =>
      rw [Memory.wf, List.pairwise_cons] at hm hn
      obtain ⟨k, u⟩ := c
      obtain ⟨l, w⟩ := d
      rcases Nat.lt_trichotomy k l with hkl | hkl | hkl
      · have h2 := h k
        rw [get?_eq_none_of_lt (m := (l, w) :: n)] at h2
        · simp [Memory.get?] at h2
        · intro x hx
          rcases List.mem_cons.1 hx with rfl | hx
          · exact hkl
          · exact Nat.lt_trans hkl (hn.1 x hx)
      · subst hkl
        have h2 := h k
        simp only [Memory.get?, if_true, Option.some.injEq] at h2
        subst h2
        have : m = n := by
          refine ih hm.2 hn.2 fun a => ?_
          by_cases ha : a = k
          · subst ha
            rw [get?_eq_none_of_lt hm.1, get?_eq_none_of_lt hn.1]
          · simpa [Memory.get?, ha] using h a
        rw [this]
      · have h2 := h l
        rw [get?_eq_none_of_lt (m := (k, u) :: m)] at h2
        · simp [Memory.get?] at h2
        · intro x hx
          rcases List.mem_cons.1 hx with rfl | hx
          · exact hkl
          · exact Nat.lt_trans hkl (hm.1 x hx)

/-! ### Blocks of bytes -/

theorem wf_writeBytes {m : Memory} (h : m.wf) (a : Nat) (bs : List Byte) : (m.writeBytes a bs).wf := by
  induction bs generalizing m a with
  | nil => exact h
  | cons b bs ih => exact ih (wf_write h a b) (a + 1)

theorem below_writeBytes {m : Memory} {n a : Nat} (bs : List Byte) (h : m.below n) (ha : a + bs.length ≤ n) :
    (m.writeBytes a bs).below n := by
  induction bs generalizing m a with
  | nil => exact h
  | cons b bs ih =>
    simp only [List.length_cons] at ha
    exact ih (below_write h (by omega) b) (by omega)

/-- A block write is read back inside the block and leaves every other byte alone. -/
theorem read_writeBytes (m : Memory) (a b : Nat) (bs : List Byte) :
    (m.writeBytes a bs).read b = if a ≤ b then bs.getD (b - a) (m.read b) else m.read b := by
  induction bs generalizing m a with
  | nil => simp [Memory.writeBytes]
  | cons v bs ih =>
    rw [Memory.writeBytes, ih]
    rcases Nat.lt_trichotomy b a with h | h | h
    · rw [if_neg (by omega), if_neg (by omega), read_write_other _ _ (by omega)]
    · subst h; simp
    · rw [if_pos (by omega), if_pos (by omega), read_write_other _ _ (by omega),
        show b - a = (b - (a + 1)) + 1 by omega, List.getD_cons_succ]

theorem read_writeBytes_outside (m : Memory) {a b : Nat} {bs : List Byte} (h : b < a ∨ a + bs.length ≤ b) :
    (m.writeBytes a bs).read b = m.read b := by
  rw [read_writeBytes]
  split
  · rw [List.getD_eq_default _ _ (by omega)]
  · rfl

theorem readBytes_congr {m n : Memory} {a k : Nat} (h : ∀ b, a ≤ b → b < a + k → m.read b = n.read b) :
    m.readBytes a k = n.readBytes a k := by
  induction k generalizing a with
  | zero => rfl
  | succ k ih =>
    rw [Memory.readBytes, Memory.readBytes, h a (by omega) (by omega), ih (fun b h1 h2 => h b (by omega) (by omega))]

@[simp] theorem length_readBytes (m : Memory) (a n : Nat) : (m.readBytes a n).length = n := by
  induction n generalizing a with
  | zero => rfl
  | succ n ih => simp [Memory.readBytes, ih]

theorem getD_readBytes (m : Memory) (a n i : Nat) (d : Byte) (h : i < n) : (m.readBytes a n).getD i d = m.read (a + i) := by
  induction n generalizing a i with
  | zero => omega
  | succ n ih =>
    cases i with
    | zero => simp [Memory.readBytes]
    | succ i =>
      rw [Memory.readBytes, List.getD_cons_succ, ih (a + 1) i (by omega), show a + 1 + i = a + (i + 1) by omega]

end Memory

/-! ### Little-endian numbers (20_memory.md R53) -/

@[simp] theorem length_leBytes (n v : Nat) : (leBytes n v).length = n := by
  induction n generalizing v with
  | zero => rfl
  | succ n ih => simp [leBytes, ih]

theorem leValue_leBytes (n v : Nat) : leValue (leBytes n v) = v % 256 ^ n := by
  induction n generalizing v with
  | zero => simp [leBytes, leValue, Nat.mod_one]
  | succ n ih =>
    rw [leBytes, leValue, ih, Nat.pow_succ, Nat.mul_comm (256 ^ n) 256, Nat.mod_mul]
    simp

theorem readBytes_writeBytes (m : Memory) (a : Nat) (bs : List Byte) :
    (m.writeBytes a bs).readBytes a bs.length = bs := by
  apply List.ext_getElem
  · simp
  · intro i h1 h2
    have h3 : i < bs.length := h2
    have := Memory.getD_readBytes (m.writeBytes a bs) a bs.length i 0 h3
    rw [Memory.read_writeBytes, if_pos (by omega), show a + i - a = i by omega] at this
    simpa [List.getD_eq_getElem?_getD, h1, h2] using this

/-- MemRead(a, n) after MemWrite(a, n, v) gives the n low bytes of v. -/
theorem readLE_writeLE (m : Memory) (a n v : Nat) : (m.writeLE a n v).readLE a n = v % 256 ^ n := by
  have := readBytes_writeBytes m a (leBytes n v)
  rw [length_leBytes] at this
  rw [Memory.readLE, Memory.writeLE, this, leValue_leBytes]

theorem read_writeLE_outside (m : Memory) {a n v b : Nat} (h : b < a ∨ a + n ≤ b) :
    (m.writeLE a n v).read b = m.read b := by
  rw [Memory.writeLE, Memory.read_writeBytes_outside]
  simpa using h

theorem readLE_congr {m n : Memory} {a k : Nat} (h : ∀ b, a ≤ b → b < a + k → m.read b = n.read b) :
    m.readLE a k = n.readLE a k := by
  rw [Memory.readLE, Memory.readLE, Memory.readBytes_congr h]

end Sys2Proof.Machine
end

