-- ==== Sys2Proof/Laws/Loops.lean ====
section
/-! SUPPORT. The laws of the counted loop `forRange` (spec/00_scope.md R10), and what a loop of memory writes leaves. -/

namespace Sys2Proof.Machine

open Sys2Proof

/-! ### The loop -/

@[simp] theorem forRange_zero {α : Type} (f : Nat → α → α) (a : α) : forRange 0 f a = a := rfl

theorem forRange_succ {α : Type} (n : Nat) (f : Nat → α → α) (a : α) :
    forRange (n + 1) f a = f n (forRange n f a) := rfl

/-- A property that holds before the loop and that each round carries on holds after it. -/
theorem forRange_induct {α : Type} {n : Nat} {f : Nat → α → α} {a : α} (P : Nat → α → Prop) (h0 : P 0 a)
    (hs : ∀ i < n, ∀ x, P i x → P (i + 1) (f i x)) : P n (forRange n f a) := by
  induction n with
  | zero => exact h0
  | succ n ih => exact hs n (by omega) _ (ih (fun i hi => hs i (by omega)))

/-- A property that every round keeps. -/
theorem forRange_keeps {α : Type} {n : Nat} {f : Nat → α → α} {a : α} (P : α → Prop) (h0 : P a)
    (hs : ∀ i < n, ∀ x, P x → P (f i x)) : P (forRange n f a) :=
  forRange_induct (fun _ => P) h0 hs

theorem forRange_congr {α : Type} {n : Nat} {f g : Nat → α → α} (a : α) (h : ∀ i < n, ∀ x, f i x = g i x) :
    forRange n f a = forRange n g a := by
  induction n with
  | zero => rfl
  | succ n ih => rw [forRange_succ, forRange_succ, ih (fun i hi => h i (by omega)), h n (by omega)]

theorem forRange_add {α : Type} (m n : Nat) (f : Nat → α → α) (a : α) :
    forRange (m + n) f a = forRange n (fun i => f (m + i)) (forRange m f a) := by
  induction n with
  | zero => rfl
  | succ n ih => rw [← Nat.add_assoc, forRange_succ, ih, forRange_succ]

/-- Two nested loops are one loop over the flat index. -/
theorem forRange_nest {α : Type} (h w : Nat) (g : Nat → Nat → α → α) (a : α) :
    forRange h (fun y a => forRange w (g y) a) a = forRange (h * w) (fun i => g (i / w) (i % w)) a := by
  induction h with
  | zero => simp
  | succ h ih =>
    rw [forRange_succ, ih, Nat.succ_mul, forRange_add]
    refine forRange_congr _ fun i hi x => ?_
    have hw : 0 < w := by omega
    rw [Nat.mul_comm h w, Nat.mul_add_div hw, Nat.mul_add_mod, Nat.div_eq_of_lt hi, Nat.mod_eq_of_lt hi, Nat.add_zero]

/-! ### Loops of memory writes -/

/-- A loop whose round i writes the addresses `w i`, each with the value `val` gives the address, while every other byte
keeps its value: after it the written bytes hold `val` and the others are as before. A round may rely on the bytes
that no round writes. -/
theorem forRange_paint {n : Nat} {f : Nat → Memory → Memory} {m : Memory} (w : Nat → Nat → Prop) (val : Nat → Byte)
    (hf : ∀ i < n, ∀ m' : Memory, (∀ a, (∀ j < n, ¬ w j a) → m'.read a = m.read a) →
      ∀ a, (w i a → (f i m').read a = val a) ∧ (¬ w i a → (f i m').read a = m'.read a)) (a : Nat) :
    ((∃ i < n, w i a) → (forRange n f m).read a = val a) ∧
      ((∀ i < n, ¬ w i a) → (forRange n f m).read a = m.read a) := by
  have key : ∀ k ≤ n, ∀ a, ((∃ i < k, w i a) → (forRange k f m).read a = val a) ∧
      ((∀ i < k, ¬ w i a) → (forRange k f m).read a = m.read a) := by
    intro k
    induction k with
    | zero => exact fun _ a => ⟨fun ⟨i, hi, _⟩ => absurd hi (by omega), fun _ => rfl⟩
    | succ k ih =>
      intro hk a
      have ih' := ih (by omega)
      have hstep := hf k hk (forRange k f m) (fun a ha => (ih' a).2 (fun i hi => ha i (by omega))) a
      rw [forRange_succ]
      by_cases hw : w k a
      · exact ⟨fun _ => hstep.1 hw, fun h => absurd hw (h k (by omega))⟩
      · rw [hstep.2 hw]
        refine ⟨fun ⟨i, hi, hwi⟩ => (ih' a).1 ⟨i, ?_, hwi⟩, fun h => (ih' a).2 (fun i hi => h i (by omega))⟩
        rcases Nat.lt_succ_iff_lt_or_eq.1 hi with h | rfl
        · exact h
        · exact absurd hwi hw
  exact key n (Nat.le_refl n) a

/-- `forRange_paint` for one byte a round. -/
theorem forRange_writes {n : Nat} {f : Nat → Memory → Memory} {m : Memory} (addr : Nat → Nat) (val : Nat → Byte)
    (hf : ∀ i < n, ∀ m' : Memory, (∀ a, (∀ j < n, a ≠ addr j) → m'.read a = m.read a) →
      f i m' = m'.write (addr i) (val (addr i))) :
    (∀ i < n, (forRange n f m).read (addr i) = val (addr i)) ∧
      ∀ a, (∀ i < n, a ≠ addr i) → (forRange n f m).read a = m.read a := by
  have h := forRange_paint (n := n) (f := f) (m := m) (fun i a => a = addr i) val (fun i hi m' hm a => by
    rw [hf i hi m' hm, Memory.read_write]
    exact ⟨fun h => by rw [if_pos h, h], fun h => by rw [if_neg h]⟩)
  exact ⟨fun i hi => (h (addr i)).1 ⟨i, hi, rfl⟩, fun a ha => (h a).2 ha⟩

end Sys2Proof.Machine
end

