-- ==== Sys2Proof/Laws/Ops.lean ====
section
/-! SUPPORT. What the shared operations of Machine/Ops.lean and Machine/Operands.lean can do. -/

namespace Sys2Proof.Machine

open Sys2Proof

/-! ### Validation -/

@[simp] theorem firstError_nil : firstError [] = none := rfl

theorem firstError_cons (c : Option Err) (cs : List (Option Err)) :
    firstError (c :: cs) = c.or (firstError cs) := by
  cases c <;> rfl

theorem failIf_eq (b : Bool) (c : ErrCode) (i : Nat) : failIf b c i = if b then some ⟨c, i⟩ else none := rfl

@[simp] theorem failIf_eq_none {b : Bool} {c : ErrCode} {i : Nat} : failIf b c i = none ↔ b = false := by
  cases b <;> simp [failIf]

/-- No check of the list fails. -/
theorem firstError_eq_none {cs : List (Option Err)} : firstError cs = none ↔ ∀ c ∈ cs, c = none := by
  induction cs with
  | nil => simp
  | cons c cs ih => cases c <;> simp [firstError, ih]

/-- VALIDATE either raises the error of the first failing check or lets the command have its effect. -/
theorem State.validated_cases (s : State) (check : Option Err) (t : State) :
    (∃ e, check = some e ∧ s.validated check t = .next (s.raiseError e)) ∨
      (check = none ∧ s.validated check t = .next t) := by
  cases check with
  | some e => exact .inl ⟨e, rfl, rfl⟩
  | none => exact .inr ⟨rfl, rfl⟩

@[simp] theorem State.validated_some (s t : State) (e : Err) : s.validated (some e) t = .next (s.raiseError e) := rfl

@[simp] theorem State.validated_none (s t : State) : s.validated none t = .next t := rfl

/-! ### Regions -/

theorem Region.contains_iff {r : Region} {a : Nat} : r.contains a = true ↔ r.base ≤ a ∧ a < r.base + r.len := by
  simp [Region.contains]

theorem Region.fits_iff {r : Region} {c : Config} : r.fits c = true ↔ r.base + r.len ≤ c.memSize := by
  simp [Region.fits]

/-- Regions overlap exactly when they share a byte address (20_memory.md R67). -/
theorem Region.overlaps_iff {r q : Region} :
    r.overlaps q = true ↔ ∃ a, r.contains a = true ∧ q.contains a = true := by
  simp only [Region.overlaps, Region.contains, Bool.and_eq_true, decide_eq_true_eq]
  constructor
  · rintro ⟨⟨⟨h1, h2⟩, h3⟩, h4⟩
    exact ⟨max r.base q.base, by omega, by omega⟩
  · rintro ⟨a, h1, h2⟩
    omega

/-- Regions that do not overlap: one ends before the other starts, or one is empty. -/
theorem Region.overlaps_eq_false {r q : Region} :
    r.overlaps q = false ↔ r.len = 0 ∨ q.len = 0 ∨ r.base + r.len ≤ q.base ∨ q.base + q.len ≤ r.base := by
  rw [← Bool.not_eq_true, Region.overlaps]
  simp only [Bool.and_eq_true, decide_eq_true_eq]
  omega

/-! ### The index scan -/

theorem indexScan_eq_none {m : Memory} {src n palLen : Nat} :
    indexScan m src n palLen = none ↔ ∀ i < n, (m.read (src + i)).toNat < palLen := by
  unfold indexScan
  split
  · next i h =>
    rw [List.find?_range_eq_some] at h
    simp only [reduceCtorEq, false_iff, not_forall]
    refine ⟨i, by simpa using h.2.1, ?_⟩
    have := h.1
    simp only [decide_eq_true_eq] at this
    omega
  · next h =>
    rw [List.find?_range_eq_none] at h
    simpa using h

theorem indexScan_eq_some {m : Memory} {src n palLen : Nat} {e : Err} :
    indexScan m src n palLen = some e ↔
      e.code = .indexRange ∧ e.info < n ∧ palLen ≤ (m.read (src + e.info)).toNat ∧
        ∀ j < e.info, (m.read (src + j)).toNat < palLen := by
  unfold indexScan
  split
  · next i h =>
    rw [List.find?_range_eq_some] at h
    obtain ⟨h1, h2, h3⟩ := h
    simp only [decide_eq_true_eq] at h1
    simp only [List.mem_range] at h2
    simp only [Bool.not_eq_eq_eq_not, Bool.not_true, decide_eq_false_iff_not, Nat.not_le] at h3
    constructor
    · rintro ⟨⟩
      exact ⟨rfl, h2, h1, h3⟩
    · rintro ⟨hc, hi, hge, hlt⟩
      have : i = e.info := by
        rcases Nat.lt_trichotomy i e.info with h | h | h
        · have := hlt i h; omega
        · exact h
        · have := h3 e.info h; omega
      cases e
      simp_all
  · next h =>
    rw [List.find?_range_eq_none] at h
    simp only [reduceCtorEq, false_iff]
    rintro ⟨-, hi, hge, -⟩
    have := h e.info hi
    simp at this
    omega

/-! ### Palette lookup and rasters -/

/-- A colour written to a narrow pixel, seen byte by byte, where the pixel does not meet the palette entry. -/
theorem read_writeColour {pal dst n i : Nat} {m : Memory}
    (h : dst + 4 * n + 4 ≤ pal + 4 * i ∨ pal + 4 * i + 4 ≤ dst + 4 * n) (a : Nat) :
    (writeColour pal dst n i m).read a =
      if dst + 4 * n ≤ a ∧ a < dst + 4 * n + 4 then m.read (pal + 4 * i + (a - (dst + 4 * n))) else m.read a := by
  simp only [writeColour, forChannels, narrowAddr, Chan.index, Memory.read_write]
  split_ifs <;> first | omega | rfl | (congr 1; omega)

theorem wf_writeColour {pal dst n i : Nat} {m : Memory} (h : m.wf) : (writeColour pal dst n i m).wf :=
  Memory.wf_write (Memory.wf_write (Memory.wf_write (Memory.wf_write h _ _) _ _) _ _) _ _

theorem below_writeColour {pal dst n i b : Nat} {m : Memory} (h : m.below b) (hd : dst + 4 * n + 4 ≤ b) :
    (writeColour pal dst n i m).below b := by
  refine Memory.below_write (Memory.below_write (Memory.below_write (Memory.below_write h ?_ _) ?_ _) ?_ _) ?_ _ <;>
    simp only [narrowAddr, Chan.index] <;> omega

/-- A candidate raster (20_memory.md R62), seen byte by byte, where it does not meet its source. -/
theorem read_writeRaster {src total dst n : Nat} {m : Memory}
    (h : ∀ i < total, ∀ j < n, src + i ≠ dst + j) (a : Nat) :
    (writeRaster src total dst n m).read a =
      if dst ≤ a ∧ a < dst + n then (if a - dst < total then m.read (src + (a - dst)) else 0) else m.read a := by
  have key := forRange_writes (n := n) (m := m)
    (f := fun i m => m.write (dst + i) (if i < total then m.read (src + i) else 0)) (fun i => dst + i)
    (fun a => if a - dst < total then m.read (src + (a - dst)) else 0) (fun i hi m' hm => by
      simp only [Nat.add_sub_cancel_left]
      congr 1
      split
      · next ht => exact hm _ (fun j hj => h i ht j hj)
      · rfl)
  by_cases ha : dst ≤ a ∧ a < dst + n
  · rw [if_pos ha]
    have := key.1 (a - dst) (by omega)
    simpa [writeRaster, show dst + (a - dst) = a by omega] using this
  · rw [if_neg ha]
    exact key.2 a (fun i hi => by omega)

theorem wf_writeRaster {src total dst n : Nat} {m : Memory} (h : m.wf) : (writeRaster src total dst n m).wf :=
  forRange_keeps (fun m : Memory => m.wf) h (fun _ _ _ hx => Memory.wf_write hx _ _)

theorem below_writeRaster {src total dst n b : Nat} {m : Memory} (h : m.below b) (hd : dst + n ≤ b) :
    (writeRaster src total dst n m).below b :=
  forRange_keeps (fun m : Memory => m.below b) h (fun _ _ _ hx => Memory.below_write hx (by omega) _)

theorem wf_writeRecord {a w h size k : Nat} {m : Memory} (hm : m.wf) : (writeRecord a w h size k m).wf :=
  Memory.wf_writeBytes (Memory.wf_writeBytes (Memory.wf_writeBytes (Memory.wf_writeBytes hm _ _) _ _) _ _) _ _

theorem below_writeRecord {a w h size k b : Nat} {m : Memory} (hm : m.below b) (ha : a + 16 ≤ b) :
    (writeRecord a w h size k m).below b := by
  refine Memory.below_writeBytes _ (Memory.below_writeBytes _ (Memory.below_writeBytes _
    (Memory.below_writeBytes _ hm ?_) ?_) ?_) ?_ <;> simp <;> omega

/-- A log record leaves every byte outside its 16 alone (20_memory.md R63). -/
theorem read_writeRecord_outside {a w h size k b : Nat} {m : Memory} (hb : b < a ∨ a + 16 ≤ b) :
    (writeRecord a w h size k m).read b = m.read b := by
  unfold writeRecord
  rw [read_writeLE_outside _ (by omega), read_writeLE_outside _ (by omega), read_writeLE_outside _ (by omega),
    read_writeLE_outside _ (by omega)]

/-- The four words of a log record (20_memory.md R63). -/
theorem readLE_writeRecord (a w h size k : Nat) (m : Memory) :
    (writeRecord a w h size k m).readLE a 4 = w % 2 ^ 32 ∧
      (writeRecord a w h size k m).readLE (a + 4) 4 = h % 2 ^ 32 ∧
      (writeRecord a w h size k m).readLE (a + 8) 4 = size % 2 ^ 32 ∧
      (writeRecord a w h size k m).readLE (a + 12) 4 = k % 2 ^ 32 := by
  have e : (256 : Nat) ^ 4 = 2 ^ 32 := by decide
  unfold writeRecord
  refine ⟨?_, ?_, ?_, ?_⟩
  · rw [readLE_congr (fun b h1 h2 => read_writeLE_outside _ (by omega)),
      readLE_congr (fun b h1 h2 => read_writeLE_outside _ (by omega)),
      readLE_congr (fun b h1 h2 => read_writeLE_outside _ (by omega)), readLE_writeLE, e]
  · rw [readLE_congr (fun b h1 h2 => read_writeLE_outside _ (by omega)),
      readLE_congr (fun b h1 h2 => read_writeLE_outside _ (by omega)), readLE_writeLE, e]
  · rw [readLE_congr (fun b h1 h2 => read_writeLE_outside _ (by omega)), readLE_writeLE, e]
  · rw [readLE_writeLE, e]

theorem wf_drawBytes {a n first : Nat} {m : Memory} (h : m.wf) : (m.drawBytes a n first).wf :=
  forRange_keeps (fun m : Memory => m.wf) h (fun _ _ _ hx => Memory.wf_write hx _ _)

/-- Draws leave every byte outside their region alone (70_reset_and_hazards.md R231). -/
theorem read_drawBytes_outside {a n first b : Nat} {m : Memory} (h : b < a ∨ a + n ≤ b) :
    (m.drawBytes a n first).read b = m.read b :=
  forRange_keeps (fun x : Memory => x.read b = m.read b) rfl
    (fun i hi x hx => by rw [Memory.read_write_other _ _ (by omega), hx])

end Sys2Proof.Machine
end

