-- ==== Sys2Proof/Laws/State.lean ====
section
/-! SUPPORT. One lemma per field per named update of State, each true by unfolding; generated. -/

namespace Sys2Proof.Machine

open Sys2Proof

/-! ### `State.raiseError` -/

@[simp] theorem State.raiseError_cfg (s : State) (e : Err) : (s.raiseError e).cfg = s.cfg := rfl
@[simp] theorem State.raiseError_irqEn (s : State) (e : Err) : (s.raiseError e).irqEn = s.irqEn := rfl
@[simp] theorem State.raiseError_wz (s : State) (e : Err) : (s.raiseError e).wz = s.wz := rfl
@[simp] theorem State.raiseError_done (s : State) (e : Err) : (s.raiseError e).done = s.done := rfl
@[simp] theorem State.raiseError_err (s : State) (e : Err) : (s.raiseError e).err = true := rfl
@[simp] theorem State.raiseError_errCode (s : State) (e : Err) : (s.raiseError e).errCode = e.code := rfl
@[simp] theorem State.raiseError_cmdBase (s : State) (e : Err) : (s.raiseError e).cmdBase = s.cmdBase := rfl
@[simp] theorem State.raiseError_cmdPtr (s : State) (e : Err) : (s.raiseError e).cmdPtr = s.cmdPtr := rfl
@[simp] theorem State.raiseError_cmdCount (s : State) (e : Err) : (s.raiseError e).cmdCount = s.cmdCount := rfl
@[simp] theorem State.raiseError_errInfo (s : State) (e : Err) :
    (s.raiseError e).errInfo = BitVec.ofNat 32 e.info := rfl
@[simp] theorem State.raiseError_wsCap (s : State) (e : Err) : (s.raiseError e).wsCap = s.wsCap := rfl
@[simp] theorem State.raiseError_resW (s : State) (e : Err) : (s.raiseError e).resW = s.resW := rfl
@[simp] theorem State.raiseError_resH (s : State) (e : Err) : (s.raiseError e).resH = s.resH := rfl
@[simp] theorem State.raiseError_resWaste (s : State) (e : Err) : (s.raiseError e).resWaste = s.resWaste := rfl
@[simp] theorem State.raiseError_wsBestW (s : State) (e : Err) : (s.raiseError e).wsBestW = s.wsBestW := rfl
@[simp] theorem State.raiseError_wsBestH (s : State) (e : Err) : (s.raiseError e).wsBestH = s.wsBestH := rfl
@[simp] theorem State.raiseError_wsBestSize (s : State) (e : Err) : (s.raiseError e).wsBestSize = s.wsBestSize := rfl
@[simp] theorem State.raiseError_wsEmits (s : State) (e : Err) : (s.raiseError e).wsEmits = s.wsEmits := rfl
@[simp] theorem State.raiseError_wsCands (s : State) (e : Err) : (s.raiseError e).wsCands = s.wsCands := rfl
@[simp] theorem State.raiseError_wsCurW (s : State) (e : Err) : (s.raiseError e).wsCurW = s.wsCurW := rfl
@[simp] theorem State.raiseError_wsCurK (s : State) (e : Err) : (s.raiseError e).wsCurK = s.wsCurK := rfl
@[simp] theorem State.raiseError_phase (s : State) (e : Err) : (s.raiseError e).phase = .idle := rfl
@[simp] theorem State.raiseError_acc (s : State) (e : Err) : (s.raiseError e).acc = s.acc := rfl
@[simp] theorem State.raiseError_cursor (s : State) (e : Err) : (s.raiseError e).cursor = s.cursor := rfl
@[simp] theorem State.raiseError_replies (s : State) (e : Err) : (s.raiseError e).replies = s.replies := rfl
@[simp] theorem State.raiseError_sent (s : State) (e : Err) : (s.raiseError e).sent = s.sent := rfl
@[simp] theorem State.raiseError_mem (s : State) (e : Err) : (s.raiseError e).mem = s.mem := rfl
@[simp] theorem State.raiseError_footprint (s : State) (e : Err) : (s.raiseError e).footprint = s.footprint := rfl
@[simp] theorem State.raiseError_written (s : State) (e : Err) : (s.raiseError e).written = s.written := rfl
@[simp] theorem State.raiseError_unseen (s : State) (e : Err) : (s.raiseError e).unseen = s.unseen := rfl
@[simp] theorem State.raiseError_foreign (s : State) (e : Err) : (s.raiseError e).foreign = s.foreign := rfl
@[simp] theorem State.raiseError_inputs (s : State) (e : Err) : (s.raiseError e).inputs = s.inputs := rfl
@[simp] theorem State.raiseError_hostData (s : State) (e : Err) : (s.raiseError e).hostData = s.hostData := rfl
@[simp] theorem State.raiseError_encData (s : State) (e : Err) : (s.raiseError e).encData = s.encData := rfl
@[simp] theorem State.raiseError_draws (s : State) (e : Err) : (s.raiseError e).draws = s.draws := rfl

/-! ### `State.complete` -/

@[simp] theorem State.complete_cfg (s : State) (w h waste : Nat) : (s.complete w h waste).cfg = s.cfg := rfl
@[simp] theorem State.complete_irqEn (s : State) (w h waste : Nat) : (s.complete w h waste).irqEn = s.irqEn := rfl
@[simp] theorem State.complete_wz (s : State) (w h waste : Nat) : (s.complete w h waste).wz = s.wz := rfl
@[simp] theorem State.complete_done (s : State) (w h waste : Nat) : (s.complete w h waste).done = s.done := rfl
@[simp] theorem State.complete_err (s : State) (w h waste : Nat) : (s.complete w h waste).err = s.err := rfl
@[simp] theorem State.complete_errCode (s : State) (w h waste : Nat) :
    (s.complete w h waste).errCode = s.errCode := rfl
@[simp] theorem State.complete_cmdBase (s : State) (w h waste : Nat) :
    (s.complete w h waste).cmdBase = s.cmdBase := rfl
@[simp] theorem State.complete_cmdPtr (s : State) (w h waste : Nat) :
    (s.complete w h waste).cmdPtr = s.cmdPtr + 64 := rfl
@[simp] theorem State.complete_cmdCount (s : State) (w h waste : Nat) :
    (s.complete w h waste).cmdCount = s.cmdCount + 1 := rfl
@[simp] theorem State.complete_errInfo (s : State) (w h waste : Nat) :
    (s.complete w h waste).errInfo = s.errInfo := rfl
@[simp] theorem State.complete_wsCap (s : State) (w h waste : Nat) : (s.complete w h waste).wsCap = s.wsCap := rfl
@[simp] theorem State.complete_resW (s : State) (w h waste : Nat) :
    (s.complete w h waste).resW = BitVec.ofNat 32 w := rfl
@[simp] theorem State.complete_resH (s : State) (w h waste : Nat) :
    (s.complete w h waste).resH = BitVec.ofNat 32 h := rfl
@[simp] theorem State.complete_resWaste (s : State) (w h waste : Nat) :
    (s.complete w h waste).resWaste = BitVec.ofNat 32 waste := rfl
@[simp] theorem State.complete_wsBestW (s : State) (w h waste : Nat) :
    (s.complete w h waste).wsBestW = s.wsBestW := rfl
@[simp] theorem State.complete_wsBestH (s : State) (w h waste : Nat) :
    (s.complete w h waste).wsBestH = s.wsBestH := rfl
@[simp] theorem State.complete_wsBestSize (s : State) (w h waste : Nat) :
    (s.complete w h waste).wsBestSize = s.wsBestSize := rfl
@[simp] theorem State.complete_wsEmits (s : State) (w h waste : Nat) :
    (s.complete w h waste).wsEmits = s.wsEmits := rfl
@[simp] theorem State.complete_wsCands (s : State) (w h waste : Nat) :
    (s.complete w h waste).wsCands = s.wsCands := rfl
@[simp] theorem State.complete_wsCurW (s : State) (w h waste : Nat) : (s.complete w h waste).wsCurW = s.wsCurW := rfl
@[simp] theorem State.complete_wsCurK (s : State) (w h waste : Nat) : (s.complete w h waste).wsCurK = s.wsCurK := rfl
@[simp] theorem State.complete_phase (s : State) (w h waste : Nat) : (s.complete w h waste).phase = .fetch := rfl
@[simp] theorem State.complete_acc (s : State) (w h waste : Nat) : (s.complete w h waste).acc = s.acc := rfl
@[simp] theorem State.complete_cursor (s : State) (w h waste : Nat) : (s.complete w h waste).cursor = s.cursor := rfl
@[simp] theorem State.complete_replies (s : State) (w h waste : Nat) :
    (s.complete w h waste).replies = s.replies := rfl
@[simp] theorem State.complete_sent (s : State) (w h waste : Nat) : (s.complete w h waste).sent = s.sent := rfl
@[simp] theorem State.complete_mem (s : State) (w h waste : Nat) : (s.complete w h waste).mem = s.mem := rfl
@[simp] theorem State.complete_footprint (s : State) (w h waste : Nat) :
    (s.complete w h waste).footprint = s.footprint := rfl
@[simp] theorem State.complete_written (s : State) (w h waste : Nat) :
    (s.complete w h waste).written = s.written := rfl
@[simp] theorem State.complete_unseen (s : State) (w h waste : Nat) :
    (s.complete w h waste).unseen = s.unseen := rfl
@[simp] theorem State.complete_foreign (s : State) (w h waste : Nat) :
    (s.complete w h waste).foreign = s.foreign := rfl
@[simp] theorem State.complete_inputs (s : State) (w h waste : Nat) : (s.complete w h waste).inputs = s.inputs := rfl
@[simp] theorem State.complete_hostData (s : State) (w h waste : Nat) :
    (s.complete w h waste).hostData = s.hostData := rfl
@[simp] theorem State.complete_encData (s : State) (w h waste : Nat) :
    (s.complete w h waste).encData = s.encData := rfl
@[simp] theorem State.complete_draws (s : State) (w h waste : Nat) : (s.complete w h waste).draws = s.draws := rfl

/-! ### `State.start` -/

@[simp] theorem State.start_cfg (s : State) (b z : Bool) : (s.start b z).cfg = s.cfg := rfl
@[simp] theorem State.start_irqEn (s : State) (b z : Bool) : (s.start b z).irqEn = b := rfl
@[simp] theorem State.start_wz (s : State) (b z : Bool) : (s.start b z).wz = z := rfl
@[simp] theorem State.start_done (s : State) (b z : Bool) : (s.start b z).done = false := rfl
@[simp] theorem State.start_err (s : State) (b z : Bool) : (s.start b z).err = false := rfl
@[simp] theorem State.start_errCode (s : State) (b z : Bool) : (s.start b z).errCode = .noError := rfl
@[simp] theorem State.start_cmdBase (s : State) (b z : Bool) : (s.start b z).cmdBase = s.cmdBase := rfl
@[simp] theorem State.start_cmdPtr (s : State) (b z : Bool) : (s.start b z).cmdPtr = s.cmdBase.toNat := rfl
@[simp] theorem State.start_cmdCount (s : State) (b z : Bool) : (s.start b z).cmdCount = 0 := rfl
@[simp] theorem State.start_errInfo (s : State) (b z : Bool) : (s.start b z).errInfo = 0 := rfl
@[simp] theorem State.start_wsCap (s : State) (b z : Bool) : (s.start b z).wsCap = s.wsCap := rfl
@[simp] theorem State.start_resW (s : State) (b z : Bool) : (s.start b z).resW = s.resW := rfl
@[simp] theorem State.start_resH (s : State) (b z : Bool) : (s.start b z).resH = s.resH := rfl
@[simp] theorem State.start_resWaste (s : State) (b z : Bool) : (s.start b z).resWaste = s.resWaste := rfl
@[simp] theorem State.start_wsBestW (s : State) (b z : Bool) : (s.start b z).wsBestW = s.wsBestW := rfl
@[simp] theorem State.start_wsBestH (s : State) (b z : Bool) : (s.start b z).wsBestH = s.wsBestH := rfl
@[simp] theorem State.start_wsBestSize (s : State) (b z : Bool) : (s.start b z).wsBestSize = s.wsBestSize := rfl
@[simp] theorem State.start_wsEmits (s : State) (b z : Bool) : (s.start b z).wsEmits = s.wsEmits := rfl
@[simp] theorem State.start_wsCands (s : State) (b z : Bool) : (s.start b z).wsCands = s.wsCands := rfl
@[simp] theorem State.start_wsCurW (s : State) (b z : Bool) : (s.start b z).wsCurW = s.wsCurW := rfl
@[simp] theorem State.start_wsCurK (s : State) (b z : Bool) : (s.start b z).wsCurK = s.wsCurK := rfl
@[simp] theorem State.start_phase (s : State) (b z : Bool) : (s.start b z).phase = .fetch := rfl
@[simp] theorem State.start_acc (s : State) (b z : Bool) : (s.start b z).acc = s.acc := rfl
@[simp] theorem State.start_cursor (s : State) (b z : Bool) : (s.start b z).cursor = s.cursor := rfl
@[simp] theorem State.start_replies (s : State) (b z : Bool) : (s.start b z).replies = s.replies := rfl
@[simp] theorem State.start_sent (s : State) (b z : Bool) : (s.start b z).sent = s.sent := rfl
@[simp] theorem State.start_mem (s : State) (b z : Bool) : (s.start b z).mem = s.mem := rfl
@[simp] theorem State.start_footprint (s : State) (b z : Bool) : (s.start b z).footprint = [] := rfl
@[simp] theorem State.start_written (s : State) (b z : Bool) : (s.start b z).written = [] := rfl
@[simp] theorem State.start_unseen (s : State) (b z : Bool) : (s.start b z).unseen = s.written ++ s.unseen := rfl
@[simp] theorem State.start_foreign (s : State) (b z : Bool) : (s.start b z).foreign = [] := rfl
@[simp] theorem State.start_inputs (s : State) (b z : Bool) : (s.start b z).inputs = s.inputs := rfl
@[simp] theorem State.start_hostData (s : State) (b z : Bool) : (s.start b z).hostData = s.hostData := rfl
@[simp] theorem State.start_encData (s : State) (b z : Bool) : (s.start b z).encData = s.encData := rfl
@[simp] theorem State.start_draws (s : State) (b z : Bool) : (s.start b z).draws = s.draws := rfl

/-! ### `State.claim` -/

@[simp] theorem State.claim_cfg (s : State) (i : Instr) : (s.claim i).cfg = s.cfg := rfl
@[simp] theorem State.claim_irqEn (s : State) (i : Instr) : (s.claim i).irqEn = s.irqEn := rfl
@[simp] theorem State.claim_wz (s : State) (i : Instr) : (s.claim i).wz = s.wz := rfl
@[simp] theorem State.claim_done (s : State) (i : Instr) : (s.claim i).done = s.done := rfl
@[simp] theorem State.claim_err (s : State) (i : Instr) : (s.claim i).err = s.err := rfl
@[simp] theorem State.claim_errCode (s : State) (i : Instr) : (s.claim i).errCode = s.errCode := rfl
@[simp] theorem State.claim_cmdBase (s : State) (i : Instr) : (s.claim i).cmdBase = s.cmdBase := rfl
@[simp] theorem State.claim_cmdPtr (s : State) (i : Instr) : (s.claim i).cmdPtr = s.cmdPtr := rfl
@[simp] theorem State.claim_cmdCount (s : State) (i : Instr) : (s.claim i).cmdCount = s.cmdCount := rfl
@[simp] theorem State.claim_errInfo (s : State) (i : Instr) : (s.claim i).errInfo = s.errInfo := rfl
@[simp] theorem State.claim_wsCap (s : State) (i : Instr) : (s.claim i).wsCap = s.wsCap := rfl
@[simp] theorem State.claim_resW (s : State) (i : Instr) : (s.claim i).resW = s.resW := rfl
@[simp] theorem State.claim_resH (s : State) (i : Instr) : (s.claim i).resH = s.resH := rfl
@[simp] theorem State.claim_resWaste (s : State) (i : Instr) : (s.claim i).resWaste = s.resWaste := rfl
@[simp] theorem State.claim_wsBestW (s : State) (i : Instr) : (s.claim i).wsBestW = s.wsBestW := rfl
@[simp] theorem State.claim_wsBestH (s : State) (i : Instr) : (s.claim i).wsBestH = s.wsBestH := rfl
@[simp] theorem State.claim_wsBestSize (s : State) (i : Instr) : (s.claim i).wsBestSize = s.wsBestSize := rfl
@[simp] theorem State.claim_wsEmits (s : State) (i : Instr) : (s.claim i).wsEmits = s.wsEmits := rfl
@[simp] theorem State.claim_wsCands (s : State) (i : Instr) : (s.claim i).wsCands = s.wsCands := rfl
@[simp] theorem State.claim_wsCurW (s : State) (i : Instr) : (s.claim i).wsCurW = s.wsCurW := rfl
@[simp] theorem State.claim_wsCurK (s : State) (i : Instr) : (s.claim i).wsCurK = s.wsCurK := rfl
@[simp] theorem State.claim_phase (s : State) (i : Instr) : (s.claim i).phase = s.phase := rfl
@[simp] theorem State.claim_acc (s : State) (i : Instr) : (s.claim i).acc = s.acc := rfl
@[simp] theorem State.claim_cursor (s : State) (i : Instr) : (s.claim i).cursor = s.cursor := rfl
@[simp] theorem State.claim_replies (s : State) (i : Instr) : (s.claim i).replies = s.replies := rfl
@[simp] theorem State.claim_sent (s : State) (i : Instr) : (s.claim i).sent = s.sent := rfl
@[simp] theorem State.claim_mem (s : State) (i : Instr) : (s.claim i).mem = s.mem := rfl
@[simp] theorem State.claim_footprint (s : State) (i : Instr) :
    (s.claim i).footprint = reads i ++ writes i ++ s.footprint := rfl
@[simp] theorem State.claim_written (s : State) (i : Instr) : (s.claim i).written = writes i ++ s.written := rfl
@[simp] theorem State.claim_unseen (s : State) (i : Instr) : (s.claim i).unseen = s.unseen := rfl
@[simp] theorem State.claim_foreign (s : State) (i : Instr) : (s.claim i).foreign = s.foreign := rfl
@[simp] theorem State.claim_inputs (s : State) (i : Instr) : (s.claim i).inputs = s.inputs := rfl
@[simp] theorem State.claim_hostData (s : State) (i : Instr) : (s.claim i).hostData = s.hostData := rfl
@[simp] theorem State.claim_encData (s : State) (i : Instr) : (s.claim i).encData = s.encData := rfl
@[simp] theorem State.claim_draws (s : State) (i : Instr) : (s.claim i).draws = s.draws := rfl

/-! ### `State.fetched` -/

@[simp] theorem State.fetched_cfg (s : State) : (s.fetched).cfg = s.cfg := rfl
@[simp] theorem State.fetched_irqEn (s : State) : (s.fetched).irqEn = s.irqEn := rfl
@[simp] theorem State.fetched_wz (s : State) : (s.fetched).wz = s.wz := rfl
@[simp] theorem State.fetched_done (s : State) : (s.fetched).done = s.done := rfl
@[simp] theorem State.fetched_err (s : State) : (s.fetched).err = s.err := rfl
@[simp] theorem State.fetched_errCode (s : State) : (s.fetched).errCode = s.errCode := rfl
@[simp] theorem State.fetched_cmdBase (s : State) : (s.fetched).cmdBase = s.cmdBase := rfl
@[simp] theorem State.fetched_cmdPtr (s : State) : (s.fetched).cmdPtr = s.cmdPtr := rfl
@[simp] theorem State.fetched_cmdCount (s : State) : (s.fetched).cmdCount = s.cmdCount := rfl
@[simp] theorem State.fetched_errInfo (s : State) : (s.fetched).errInfo = s.errInfo := rfl
@[simp] theorem State.fetched_wsCap (s : State) : (s.fetched).wsCap = s.wsCap := rfl
@[simp] theorem State.fetched_resW (s : State) : (s.fetched).resW = s.resW := rfl
@[simp] theorem State.fetched_resH (s : State) : (s.fetched).resH = s.resH := rfl
@[simp] theorem State.fetched_resWaste (s : State) : (s.fetched).resWaste = s.resWaste := rfl
@[simp] theorem State.fetched_wsBestW (s : State) : (s.fetched).wsBestW = s.wsBestW := rfl
@[simp] theorem State.fetched_wsBestH (s : State) : (s.fetched).wsBestH = s.wsBestH := rfl
@[simp] theorem State.fetched_wsBestSize (s : State) : (s.fetched).wsBestSize = s.wsBestSize := rfl
@[simp] theorem State.fetched_wsEmits (s : State) : (s.fetched).wsEmits = s.wsEmits := rfl
@[simp] theorem State.fetched_wsCands (s : State) : (s.fetched).wsCands = s.wsCands := rfl
@[simp] theorem State.fetched_wsCurW (s : State) : (s.fetched).wsCurW = s.wsCurW := rfl
@[simp] theorem State.fetched_wsCurK (s : State) : (s.fetched).wsCurK = s.wsCurK := rfl
@[simp] theorem State.fetched_phase (s : State) : (s.fetched).phase = .validate s.fetchWords := rfl
@[simp] theorem State.fetched_acc (s : State) : (s.fetched).acc = s.acc := rfl
@[simp] theorem State.fetched_cursor (s : State) : (s.fetched).cursor = s.cursor := rfl
@[simp] theorem State.fetched_replies (s : State) : (s.fetched).replies = s.replies := rfl
@[simp] theorem State.fetched_sent (s : State) : (s.fetched).sent = s.sent := rfl
@[simp] theorem State.fetched_mem (s : State) : (s.fetched).mem = s.mem := rfl
@[simp] theorem State.fetched_footprint (s : State) : (s.fetched).footprint = s.descRegion :: s.footprint := rfl
@[simp] theorem State.fetched_written (s : State) : (s.fetched).written = s.written := rfl
@[simp] theorem State.fetched_unseen (s : State) : (s.fetched).unseen = s.unseen := rfl
@[simp] theorem State.fetched_foreign (s : State) : (s.fetched).foreign = s.foreign := rfl
@[simp] theorem State.fetched_inputs (s : State) : (s.fetched).inputs = s.inputs := rfl
@[simp] theorem State.fetched_hostData (s : State) : (s.fetched).hostData = s.hostData := rfl
@[simp] theorem State.fetched_encData (s : State) : (s.fetched).encData = s.encData := rfl
@[simp] theorem State.fetched_draws (s : State) : (s.fetched).draws = s.draws := rfl

/-! ### `State.enterCandidate` -/

@[simp] theorem State.enterCandidate_cfg (s : State) (c : Search) : (s.enterCandidate c).cfg = s.cfg := rfl
@[simp] theorem State.enterCandidate_irqEn (s : State) (c : Search) : (s.enterCandidate c).irqEn = s.irqEn := rfl
@[simp] theorem State.enterCandidate_wz (s : State) (c : Search) : (s.enterCandidate c).wz = s.wz := rfl
@[simp] theorem State.enterCandidate_done (s : State) (c : Search) : (s.enterCandidate c).done = s.done := rfl
@[simp] theorem State.enterCandidate_err (s : State) (c : Search) : (s.enterCandidate c).err = s.err := rfl
@[simp] theorem State.enterCandidate_errCode (s : State) (c : Search) :
    (s.enterCandidate c).errCode = s.errCode := rfl
@[simp] theorem State.enterCandidate_cmdBase (s : State) (c : Search) :
    (s.enterCandidate c).cmdBase = s.cmdBase := rfl
@[simp] theorem State.enterCandidate_cmdPtr (s : State) (c : Search) : (s.enterCandidate c).cmdPtr = s.cmdPtr := rfl
@[simp] theorem State.enterCandidate_cmdCount (s : State) (c : Search) :
    (s.enterCandidate c).cmdCount = s.cmdCount := rfl
@[simp] theorem State.enterCandidate_errInfo (s : State) (c : Search) :
    (s.enterCandidate c).errInfo = s.errInfo := rfl
@[simp] theorem State.enterCandidate_wsCap (s : State) (c : Search) : (s.enterCandidate c).wsCap = s.wsCap := rfl
@[simp] theorem State.enterCandidate_resW (s : State) (c : Search) : (s.enterCandidate c).resW = s.resW := rfl
@[simp] theorem State.enterCandidate_resH (s : State) (c : Search) : (s.enterCandidate c).resH = s.resH := rfl
@[simp] theorem State.enterCandidate_resWaste (s : State) (c : Search) :
    (s.enterCandidate c).resWaste = s.resWaste := rfl
@[simp] theorem State.enterCandidate_wsBestW (s : State) (c : Search) :
    (s.enterCandidate c).wsBestW = s.wsBestW := rfl
@[simp] theorem State.enterCandidate_wsBestH (s : State) (c : Search) :
    (s.enterCandidate c).wsBestH = s.wsBestH := rfl
@[simp] theorem State.enterCandidate_wsBestSize (s : State) (c : Search) :
    (s.enterCandidate c).wsBestSize = s.wsBestSize := rfl
@[simp] theorem State.enterCandidate_wsEmits (s : State) (c : Search) :
    (s.enterCandidate c).wsEmits = s.wsEmits := rfl
@[simp] theorem State.enterCandidate_wsCands (s : State) (c : Search) :
    (s.enterCandidate c).wsCands = s.wsCands := rfl
@[simp] theorem State.enterCandidate_wsCurW (s : State) (c : Search) :
    (s.enterCandidate c).wsCurW = BitVec.ofNat 32 c.width := rfl
@[simp] theorem State.enterCandidate_wsCurK (s : State) (c : Search) :
    (s.enterCandidate c).wsCurK = BitVec.ofNat 32 c.k := rfl
@[simp] theorem State.enterCandidate_phase (s : State) (c : Search) : (s.enterCandidate c).phase = s.phase := rfl
@[simp] theorem State.enterCandidate_acc (s : State) (c : Search) : (s.enterCandidate c).acc = s.acc := rfl
@[simp] theorem State.enterCandidate_cursor (s : State) (c : Search) : (s.enterCandidate c).cursor = s.cursor := rfl
@[simp] theorem State.enterCandidate_replies (s : State) (c : Search) :
    (s.enterCandidate c).replies = s.replies := rfl
@[simp] theorem State.enterCandidate_sent (s : State) (c : Search) : (s.enterCandidate c).sent = s.sent := rfl
@[simp] theorem State.enterCandidate_mem (s : State) (c : Search) : (s.enterCandidate c).mem = s.mem := rfl
@[simp] theorem State.enterCandidate_footprint (s : State) (c : Search) :
    (s.enterCandidate c).footprint = s.footprint := rfl
@[simp] theorem State.enterCandidate_written (s : State) (c : Search) :
    (s.enterCandidate c).written = s.written := rfl
@[simp] theorem State.enterCandidate_unseen (s : State) (c : Search) :
    (s.enterCandidate c).unseen = s.unseen := rfl
@[simp] theorem State.enterCandidate_foreign (s : State) (c : Search) :
    (s.enterCandidate c).foreign = s.foreign := rfl
@[simp] theorem State.enterCandidate_inputs (s : State) (c : Search) : (s.enterCandidate c).inputs = s.inputs := rfl
@[simp] theorem State.enterCandidate_hostData (s : State) (c : Search) :
    (s.enterCandidate c).hostData = s.hostData := rfl
@[simp] theorem State.enterCandidate_encData (s : State) (c : Search) :
    (s.enterCandidate c).encData = s.encData := rfl
@[simp] theorem State.enterCandidate_draws (s : State) (c : Search) : (s.enterCandidate c).draws = s.draws := rfl

/-! ### `State.sendRequest` -/

@[simp] theorem State.sendRequest_cfg (s : State) (c : Search) : (s.sendRequest c).cfg = s.cfg := rfl
@[simp] theorem State.sendRequest_irqEn (s : State) (c : Search) : (s.sendRequest c).irqEn = s.irqEn := rfl
@[simp] theorem State.sendRequest_wz (s : State) (c : Search) : (s.sendRequest c).wz = s.wz := rfl
@[simp] theorem State.sendRequest_done (s : State) (c : Search) : (s.sendRequest c).done = s.done := rfl
@[simp] theorem State.sendRequest_err (s : State) (c : Search) : (s.sendRequest c).err = s.err := rfl
@[simp] theorem State.sendRequest_errCode (s : State) (c : Search) : (s.sendRequest c).errCode = s.errCode := rfl
@[simp] theorem State.sendRequest_cmdBase (s : State) (c : Search) : (s.sendRequest c).cmdBase = s.cmdBase := rfl
@[simp] theorem State.sendRequest_cmdPtr (s : State) (c : Search) : (s.sendRequest c).cmdPtr = s.cmdPtr := rfl
@[simp] theorem State.sendRequest_cmdCount (s : State) (c : Search) : (s.sendRequest c).cmdCount = s.cmdCount := rfl
@[simp] theorem State.sendRequest_errInfo (s : State) (c : Search) : (s.sendRequest c).errInfo = s.errInfo := rfl
@[simp] theorem State.sendRequest_wsCap (s : State) (c : Search) : (s.sendRequest c).wsCap = s.wsCap := rfl
@[simp] theorem State.sendRequest_resW (s : State) (c : Search) : (s.sendRequest c).resW = s.resW := rfl
@[simp] theorem State.sendRequest_resH (s : State) (c : Search) : (s.sendRequest c).resH = s.resH := rfl
@[simp] theorem State.sendRequest_resWaste (s : State) (c : Search) : (s.sendRequest c).resWaste = s.resWaste := rfl
@[simp] theorem State.sendRequest_wsBestW (s : State) (c : Search) : (s.sendRequest c).wsBestW = s.wsBestW := rfl
@[simp] theorem State.sendRequest_wsBestH (s : State) (c : Search) : (s.sendRequest c).wsBestH = s.wsBestH := rfl
@[simp] theorem State.sendRequest_wsBestSize (s : State) (c : Search) :
    (s.sendRequest c).wsBestSize = s.wsBestSize := rfl
@[simp] theorem State.sendRequest_wsEmits (s : State) (c : Search) : (s.sendRequest c).wsEmits = s.wsEmits := rfl
@[simp] theorem State.sendRequest_wsCands (s : State) (c : Search) : (s.sendRequest c).wsCands = s.wsCands := rfl
@[simp] theorem State.sendRequest_wsCurW (s : State) (c : Search) : (s.sendRequest c).wsCurW = s.wsCurW := rfl
@[simp] theorem State.sendRequest_wsCurK (s : State) (c : Search) : (s.sendRequest c).wsCurK = s.wsCurK := rfl
@[simp] theorem State.sendRequest_phase (s : State) (c : Search) : (s.sendRequest c).phase = s.phase := rfl
@[simp] theorem State.sendRequest_acc (s : State) (c : Search) : (s.sendRequest c).acc = s.acc := rfl
@[simp] theorem State.sendRequest_cursor (s : State) (c : Search) : (s.sendRequest c).cursor = s.cursor := rfl
@[simp] theorem State.sendRequest_replies (s : State) (c : Search) : (s.sendRequest c).replies = s.replies := rfl
@[simp] theorem State.sendRequest_sent (s : State) (c : Search) :
    (s.sendRequest c).sent = s.sent ++ [.request c.request] := rfl
@[simp] theorem State.sendRequest_mem (s : State) (c : Search) :
    (s.sendRequest c).mem = writeRaster c.src c.total c.scratch (c.width * c.height) s.mem := rfl
@[simp] theorem State.sendRequest_footprint (s : State) (c : Search) :
    (s.sendRequest c).footprint = s.footprint := rfl
@[simp] theorem State.sendRequest_written (s : State) (c : Search) : (s.sendRequest c).written = s.written := rfl
@[simp] theorem State.sendRequest_unseen (s : State) (c : Search) : (s.sendRequest c).unseen = s.unseen := rfl
@[simp] theorem State.sendRequest_foreign (s : State) (c : Search) : (s.sendRequest c).foreign = s.foreign := rfl
@[simp] theorem State.sendRequest_inputs (s : State) (c : Search) : (s.sendRequest c).inputs = s.inputs := rfl
@[simp] theorem State.sendRequest_hostData (s : State) (c : Search) : (s.sendRequest c).hostData = s.hostData := rfl
@[simp] theorem State.sendRequest_encData (s : State) (c : Search) : (s.sendRequest c).encData = s.encData := rfl
@[simp] theorem State.sendRequest_draws (s : State) (c : Search) : (s.sendRequest c).draws = s.draws := rfl

/-! ### `State.emit` -/

@[simp] theorem State.emit_cfg (s : State) (c : Search) (z : Word) : (s.emit c z).cfg = s.cfg := rfl
@[simp] theorem State.emit_irqEn (s : State) (c : Search) (z : Word) : (s.emit c z).irqEn = s.irqEn := rfl
@[simp] theorem State.emit_wz (s : State) (c : Search) (z : Word) : (s.emit c z).wz = s.wz := rfl
@[simp] theorem State.emit_done (s : State) (c : Search) (z : Word) : (s.emit c z).done = s.done := rfl
@[simp] theorem State.emit_err (s : State) (c : Search) (z : Word) : (s.emit c z).err = s.err := rfl
@[simp] theorem State.emit_errCode (s : State) (c : Search) (z : Word) : (s.emit c z).errCode = s.errCode := rfl
@[simp] theorem State.emit_cmdBase (s : State) (c : Search) (z : Word) : (s.emit c z).cmdBase = s.cmdBase := rfl
@[simp] theorem State.emit_cmdPtr (s : State) (c : Search) (z : Word) : (s.emit c z).cmdPtr = s.cmdPtr := rfl
@[simp] theorem State.emit_cmdCount (s : State) (c : Search) (z : Word) : (s.emit c z).cmdCount = s.cmdCount := rfl
@[simp] theorem State.emit_errInfo (s : State) (c : Search) (z : Word) : (s.emit c z).errInfo = s.errInfo := rfl
@[simp] theorem State.emit_wsCap (s : State) (c : Search) (z : Word) : (s.emit c z).wsCap = s.wsCap := rfl
@[simp] theorem State.emit_resW (s : State) (c : Search) (z : Word) : (s.emit c z).resW = s.resW := rfl
@[simp] theorem State.emit_resH (s : State) (c : Search) (z : Word) : (s.emit c z).resH = s.resH := rfl
@[simp] theorem State.emit_resWaste (s : State) (c : Search) (z : Word) : (s.emit c z).resWaste = s.resWaste := rfl
@[simp] theorem State.emit_wsBestW (s : State) (c : Search) (z : Word) :
    (s.emit c z).wsBestW = BitVec.ofNat 32 c.width := rfl
@[simp] theorem State.emit_wsBestH (s : State) (c : Search) (z : Word) :
    (s.emit c z).wsBestH = BitVec.ofNat 32 c.height := rfl
@[simp] theorem State.emit_wsBestSize (s : State) (c : Search) (z : Word) : (s.emit c z).wsBestSize = z := rfl
@[simp] theorem State.emit_wsEmits (s : State) (c : Search) (z : Word) : (s.emit c z).wsEmits = s.wsEmits + 1 := rfl
@[simp] theorem State.emit_wsCands (s : State) (c : Search) (z : Word) : (s.emit c z).wsCands = s.wsCands := rfl
@[simp] theorem State.emit_wsCurW (s : State) (c : Search) (z : Word) : (s.emit c z).wsCurW = s.wsCurW := rfl
@[simp] theorem State.emit_wsCurK (s : State) (c : Search) (z : Word) : (s.emit c z).wsCurK = s.wsCurK := rfl
@[simp] theorem State.emit_phase (s : State) (c : Search) (z : Word) : (s.emit c z).phase = s.phase := rfl
@[simp] theorem State.emit_acc (s : State) (c : Search) (z : Word) : (s.emit c z).acc = s.acc := rfl
@[simp] theorem State.emit_cursor (s : State) (c : Search) (z : Word) : (s.emit c z).cursor = s.cursor := rfl
@[simp] theorem State.emit_replies (s : State) (c : Search) (z : Word) : (s.emit c z).replies = s.replies := rfl
@[simp] theorem State.emit_sent (s : State) (c : Search) (z : Word) :
    (s.emit c z).sent = s.sent ++ [.verdict true c.width c.k] := rfl
@[simp] theorem State.emit_mem (s : State) (c : Search) (z : Word) :
    (s.emit c z).mem = writeRecord (c.log + 16 * s.wsEmits.toNat) c.width c.height z.toNat c.k s.mem := rfl
@[simp] theorem State.emit_footprint (s : State) (c : Search) (z : Word) : (s.emit c z).footprint = s.footprint := rfl
@[simp] theorem State.emit_written (s : State) (c : Search) (z : Word) : (s.emit c z).written = s.written := rfl
@[simp] theorem State.emit_unseen (s : State) (c : Search) (z : Word) : (s.emit c z).unseen = s.unseen := rfl
@[simp] theorem State.emit_foreign (s : State) (c : Search) (z : Word) : (s.emit c z).foreign = s.foreign := rfl
@[simp] theorem State.emit_inputs (s : State) (c : Search) (z : Word) : (s.emit c z).inputs = s.inputs := rfl
@[simp] theorem State.emit_hostData (s : State) (c : Search) (z : Word) : (s.emit c z).hostData = s.hostData := rfl
@[simp] theorem State.emit_encData (s : State) (c : Search) (z : Word) : (s.emit c z).encData = s.encData := rfl
@[simp] theorem State.emit_draws (s : State) (c : Search) (z : Word) : (s.emit c z).draws = s.draws := rfl

/-! ### `State.drop` -/

@[simp] theorem State.drop_cfg (s : State) (c : Search) : (s.drop c).cfg = s.cfg := rfl
@[simp] theorem State.drop_irqEn (s : State) (c : Search) : (s.drop c).irqEn = s.irqEn := rfl
@[simp] theorem State.drop_wz (s : State) (c : Search) : (s.drop c).wz = s.wz := rfl
@[simp] theorem State.drop_done (s : State) (c : Search) : (s.drop c).done = s.done := rfl
@[simp] theorem State.drop_err (s : State) (c : Search) : (s.drop c).err = s.err := rfl
@[simp] theorem State.drop_errCode (s : State) (c : Search) : (s.drop c).errCode = s.errCode := rfl
@[simp] theorem State.drop_cmdBase (s : State) (c : Search) : (s.drop c).cmdBase = s.cmdBase := rfl
@[simp] theorem State.drop_cmdPtr (s : State) (c : Search) : (s.drop c).cmdPtr = s.cmdPtr := rfl
@[simp] theorem State.drop_cmdCount (s : State) (c : Search) : (s.drop c).cmdCount = s.cmdCount := rfl
@[simp] theorem State.drop_errInfo (s : State) (c : Search) : (s.drop c).errInfo = s.errInfo := rfl
@[simp] theorem State.drop_wsCap (s : State) (c : Search) : (s.drop c).wsCap = s.wsCap := rfl
@[simp] theorem State.drop_resW (s : State) (c : Search) : (s.drop c).resW = s.resW := rfl
@[simp] theorem State.drop_resH (s : State) (c : Search) : (s.drop c).resH = s.resH := rfl
@[simp] theorem State.drop_resWaste (s : State) (c : Search) : (s.drop c).resWaste = s.resWaste := rfl
@[simp] theorem State.drop_wsBestW (s : State) (c : Search) : (s.drop c).wsBestW = s.wsBestW := rfl
@[simp] theorem State.drop_wsBestH (s : State) (c : Search) : (s.drop c).wsBestH = s.wsBestH := rfl
@[simp] theorem State.drop_wsBestSize (s : State) (c : Search) : (s.drop c).wsBestSize = s.wsBestSize := rfl
@[simp] theorem State.drop_wsEmits (s : State) (c : Search) : (s.drop c).wsEmits = s.wsEmits := rfl
@[simp] theorem State.drop_wsCands (s : State) (c : Search) : (s.drop c).wsCands = s.wsCands := rfl
@[simp] theorem State.drop_wsCurW (s : State) (c : Search) : (s.drop c).wsCurW = s.wsCurW := rfl
@[simp] theorem State.drop_wsCurK (s : State) (c : Search) : (s.drop c).wsCurK = s.wsCurK := rfl
@[simp] theorem State.drop_phase (s : State) (c : Search) : (s.drop c).phase = s.phase := rfl
@[simp] theorem State.drop_acc (s : State) (c : Search) : (s.drop c).acc = s.acc := rfl
@[simp] theorem State.drop_cursor (s : State) (c : Search) : (s.drop c).cursor = s.cursor := rfl
@[simp] theorem State.drop_replies (s : State) (c : Search) : (s.drop c).replies = s.replies := rfl
@[simp] theorem State.drop_sent (s : State) (c : Search) :
    (s.drop c).sent = s.sent ++ [.verdict false c.width c.k] := rfl
@[simp] theorem State.drop_mem (s : State) (c : Search) : (s.drop c).mem = s.mem := rfl
@[simp] theorem State.drop_footprint (s : State) (c : Search) : (s.drop c).footprint = s.footprint := rfl
@[simp] theorem State.drop_written (s : State) (c : Search) : (s.drop c).written = s.written := rfl
@[simp] theorem State.drop_unseen (s : State) (c : Search) : (s.drop c).unseen = s.unseen := rfl
@[simp] theorem State.drop_foreign (s : State) (c : Search) : (s.drop c).foreign = s.foreign := rfl
@[simp] theorem State.drop_inputs (s : State) (c : Search) : (s.drop c).inputs = s.inputs := rfl
@[simp] theorem State.drop_hostData (s : State) (c : Search) : (s.drop c).hostData = s.hostData := rfl
@[simp] theorem State.drop_encData (s : State) (c : Search) : (s.drop c).encData = s.encData := rfl
@[simp] theorem State.drop_draws (s : State) (c : Search) : (s.drop c).draws = s.draws := rfl

/-! ### `State.clearSearch` -/

@[simp] theorem State.clearSearch_cfg (s : State) : (s.clearSearch).cfg = s.cfg := rfl
@[simp] theorem State.clearSearch_irqEn (s : State) : (s.clearSearch).irqEn = s.irqEn := rfl
@[simp] theorem State.clearSearch_wz (s : State) : (s.clearSearch).wz = s.wz := rfl
@[simp] theorem State.clearSearch_done (s : State) : (s.clearSearch).done = s.done := rfl
@[simp] theorem State.clearSearch_err (s : State) : (s.clearSearch).err = s.err := rfl
@[simp] theorem State.clearSearch_errCode (s : State) : (s.clearSearch).errCode = s.errCode := rfl
@[simp] theorem State.clearSearch_cmdBase (s : State) : (s.clearSearch).cmdBase = s.cmdBase := rfl
@[simp] theorem State.clearSearch_cmdPtr (s : State) : (s.clearSearch).cmdPtr = s.cmdPtr := rfl
@[simp] theorem State.clearSearch_cmdCount (s : State) : (s.clearSearch).cmdCount = s.cmdCount := rfl
@[simp] theorem State.clearSearch_errInfo (s : State) : (s.clearSearch).errInfo = s.errInfo := rfl
@[simp] theorem State.clearSearch_wsCap (s : State) : (s.clearSearch).wsCap = s.wsCap := rfl
@[simp] theorem State.clearSearch_resW (s : State) : (s.clearSearch).resW = s.resW := rfl
@[simp] theorem State.clearSearch_resH (s : State) : (s.clearSearch).resH = s.resH := rfl
@[simp] theorem State.clearSearch_resWaste (s : State) : (s.clearSearch).resWaste = s.resWaste := rfl
@[simp] theorem State.clearSearch_wsBestW (s : State) : (s.clearSearch).wsBestW = 0 := rfl
@[simp] theorem State.clearSearch_wsBestH (s : State) : (s.clearSearch).wsBestH = 0 := rfl
@[simp] theorem State.clearSearch_wsBestSize (s : State) : (s.clearSearch).wsBestSize = 0 := rfl
@[simp] theorem State.clearSearch_wsEmits (s : State) : (s.clearSearch).wsEmits = 0 := rfl
@[simp] theorem State.clearSearch_wsCands (s : State) : (s.clearSearch).wsCands = 0 := rfl
@[simp] theorem State.clearSearch_wsCurW (s : State) : (s.clearSearch).wsCurW = 0 := rfl
@[simp] theorem State.clearSearch_wsCurK (s : State) : (s.clearSearch).wsCurK = 0 := rfl
@[simp] theorem State.clearSearch_phase (s : State) : (s.clearSearch).phase = s.phase := rfl
@[simp] theorem State.clearSearch_acc (s : State) : (s.clearSearch).acc = s.acc := rfl
@[simp] theorem State.clearSearch_cursor (s : State) : (s.clearSearch).cursor = s.cursor := rfl
@[simp] theorem State.clearSearch_replies (s : State) : (s.clearSearch).replies = s.replies := rfl
@[simp] theorem State.clearSearch_sent (s : State) : (s.clearSearch).sent = s.sent := rfl
@[simp] theorem State.clearSearch_mem (s : State) : (s.clearSearch).mem = s.mem := rfl
@[simp] theorem State.clearSearch_footprint (s : State) : (s.clearSearch).footprint = s.footprint := rfl
@[simp] theorem State.clearSearch_written (s : State) : (s.clearSearch).written = s.written := rfl
@[simp] theorem State.clearSearch_unseen (s : State) : (s.clearSearch).unseen = s.unseen := rfl
@[simp] theorem State.clearSearch_foreign (s : State) : (s.clearSearch).foreign = s.foreign := rfl
@[simp] theorem State.clearSearch_inputs (s : State) : (s.clearSearch).inputs = s.inputs := rfl
@[simp] theorem State.clearSearch_hostData (s : State) : (s.clearSearch).hostData = s.hostData := rfl
@[simp] theorem State.clearSearch_encData (s : State) : (s.clearSearch).encData = s.encData := rfl
@[simp] theorem State.clearSearch_draws (s : State) : (s.clearSearch).draws = s.draws := rfl

/-! ### `State.countCandidate` -/

@[simp] theorem State.countCandidate_cfg (s : State) : s.countCandidate.cfg = s.cfg := rfl
@[simp] theorem State.countCandidate_irqEn (s : State) : s.countCandidate.irqEn = s.irqEn := rfl
@[simp] theorem State.countCandidate_wz (s : State) : s.countCandidate.wz = s.wz := rfl
@[simp] theorem State.countCandidate_done (s : State) : s.countCandidate.done = s.done := rfl
@[simp] theorem State.countCandidate_err (s : State) : s.countCandidate.err = s.err := rfl
@[simp] theorem State.countCandidate_errCode (s : State) : s.countCandidate.errCode = s.errCode := rfl
@[simp] theorem State.countCandidate_cmdBase (s : State) : s.countCandidate.cmdBase = s.cmdBase := rfl
@[simp] theorem State.countCandidate_cmdPtr (s : State) : s.countCandidate.cmdPtr = s.cmdPtr := rfl
@[simp] theorem State.countCandidate_cmdCount (s : State) : s.countCandidate.cmdCount = s.cmdCount := rfl
@[simp] theorem State.countCandidate_errInfo (s : State) : s.countCandidate.errInfo = s.errInfo := rfl
@[simp] theorem State.countCandidate_wsCap (s : State) : s.countCandidate.wsCap = s.wsCap := rfl
@[simp] theorem State.countCandidate_resW (s : State) : s.countCandidate.resW = s.resW := rfl
@[simp] theorem State.countCandidate_resH (s : State) : s.countCandidate.resH = s.resH := rfl
@[simp] theorem State.countCandidate_resWaste (s : State) : s.countCandidate.resWaste = s.resWaste := rfl
@[simp] theorem State.countCandidate_wsBestW (s : State) : s.countCandidate.wsBestW = s.wsBestW := rfl
@[simp] theorem State.countCandidate_wsBestH (s : State) : s.countCandidate.wsBestH = s.wsBestH := rfl
@[simp] theorem State.countCandidate_wsBestSize (s : State) : s.countCandidate.wsBestSize = s.wsBestSize := rfl
@[simp] theorem State.countCandidate_wsEmits (s : State) : s.countCandidate.wsEmits = s.wsEmits := rfl
@[simp] theorem State.countCandidate_wsCands (s : State) : s.countCandidate.wsCands = s.wsCands + 1 := rfl
@[simp] theorem State.countCandidate_wsCurW (s : State) : s.countCandidate.wsCurW = s.wsCurW := rfl
@[simp] theorem State.countCandidate_wsCurK (s : State) : s.countCandidate.wsCurK = s.wsCurK := rfl
@[simp] theorem State.countCandidate_phase (s : State) : s.countCandidate.phase = s.phase := rfl
@[simp] theorem State.countCandidate_acc (s : State) : s.countCandidate.acc = s.acc := rfl
@[simp] theorem State.countCandidate_cursor (s : State) : s.countCandidate.cursor = s.cursor := rfl
@[simp] theorem State.countCandidate_replies (s : State) : s.countCandidate.replies = s.replies := rfl
@[simp] theorem State.countCandidate_sent (s : State) : s.countCandidate.sent = s.sent := rfl
@[simp] theorem State.countCandidate_mem (s : State) : s.countCandidate.mem = s.mem := rfl
@[simp] theorem State.countCandidate_footprint (s : State) : s.countCandidate.footprint = s.footprint := rfl
@[simp] theorem State.countCandidate_written (s : State) : s.countCandidate.written = s.written := rfl
@[simp] theorem State.countCandidate_unseen (s : State) : s.countCandidate.unseen = s.unseen := rfl
@[simp] theorem State.countCandidate_foreign (s : State) : s.countCandidate.foreign = s.foreign := rfl
@[simp] theorem State.countCandidate_inputs (s : State) : s.countCandidate.inputs = s.inputs := rfl
@[simp] theorem State.countCandidate_hostData (s : State) : s.countCandidate.hostData = s.hostData := rfl
@[simp] theorem State.countCandidate_encData (s : State) : s.countCandidate.encData = s.encData := rfl
@[simp] theorem State.countCandidate_draws (s : State) : s.countCandidate.draws = s.draws := rfl

/-! ### `State.writeStatus` -/

@[simp] theorem State.writeStatus_cfg (s : State) (v : Word) : (s.writeStatus v).cfg = s.cfg := rfl
@[simp] theorem State.writeStatus_irqEn (s : State) (v : Word) : (s.writeStatus v).irqEn = s.irqEn := rfl
@[simp] theorem State.writeStatus_wz (s : State) (v : Word) : (s.writeStatus v).wz = s.wz := rfl
@[simp] theorem State.writeStatus_done (s : State) (v : Word) :
    (s.writeStatus v).done = (s.done && !v.getLsbD 1) := rfl
@[simp] theorem State.writeStatus_err (s : State) (v : Word) : (s.writeStatus v).err = (s.err && !v.getLsbD 2) := rfl
@[simp] theorem State.writeStatus_errCode (s : State) (v : Word) :
    (s.writeStatus v).errCode = if v.getLsbD 2 then .noError else s.errCode := rfl
@[simp] theorem State.writeStatus_cmdBase (s : State) (v : Word) : (s.writeStatus v).cmdBase = s.cmdBase := rfl
@[simp] theorem State.writeStatus_cmdPtr (s : State) (v : Word) : (s.writeStatus v).cmdPtr = s.cmdPtr := rfl
@[simp] theorem State.writeStatus_cmdCount (s : State) (v : Word) : (s.writeStatus v).cmdCount = s.cmdCount := rfl
@[simp] theorem State.writeStatus_errInfo (s : State) (v : Word) : (s.writeStatus v).errInfo = s.errInfo := rfl
@[simp] theorem State.writeStatus_wsCap (s : State) (v : Word) : (s.writeStatus v).wsCap = s.wsCap := rfl
@[simp] theorem State.writeStatus_resW (s : State) (v : Word) : (s.writeStatus v).resW = s.resW := rfl
@[simp] theorem State.writeStatus_resH (s : State) (v : Word) : (s.writeStatus v).resH = s.resH := rfl
@[simp] theorem State.writeStatus_resWaste (s : State) (v : Word) : (s.writeStatus v).resWaste = s.resWaste := rfl
@[simp] theorem State.writeStatus_wsBestW (s : State) (v : Word) : (s.writeStatus v).wsBestW = s.wsBestW := rfl
@[simp] theorem State.writeStatus_wsBestH (s : State) (v : Word) : (s.writeStatus v).wsBestH = s.wsBestH := rfl
@[simp] theorem State.writeStatus_wsBestSize (s : State) (v : Word) :
    (s.writeStatus v).wsBestSize = s.wsBestSize := rfl
@[simp] theorem State.writeStatus_wsEmits (s : State) (v : Word) : (s.writeStatus v).wsEmits = s.wsEmits := rfl
@[simp] theorem State.writeStatus_wsCands (s : State) (v : Word) : (s.writeStatus v).wsCands = s.wsCands := rfl
@[simp] theorem State.writeStatus_wsCurW (s : State) (v : Word) : (s.writeStatus v).wsCurW = s.wsCurW := rfl
@[simp] theorem State.writeStatus_wsCurK (s : State) (v : Word) : (s.writeStatus v).wsCurK = s.wsCurK := rfl
@[simp] theorem State.writeStatus_phase (s : State) (v : Word) : (s.writeStatus v).phase = s.phase := rfl
@[simp] theorem State.writeStatus_acc (s : State) (v : Word) : (s.writeStatus v).acc = s.acc := rfl
@[simp] theorem State.writeStatus_cursor (s : State) (v : Word) : (s.writeStatus v).cursor = s.cursor := rfl
@[simp] theorem State.writeStatus_replies (s : State) (v : Word) : (s.writeStatus v).replies = s.replies := rfl
@[simp] theorem State.writeStatus_sent (s : State) (v : Word) : (s.writeStatus v).sent = s.sent := rfl
@[simp] theorem State.writeStatus_mem (s : State) (v : Word) : (s.writeStatus v).mem = s.mem := rfl
@[simp] theorem State.writeStatus_footprint (s : State) (v : Word) : (s.writeStatus v).footprint = s.footprint := rfl
@[simp] theorem State.writeStatus_written (s : State) (v : Word) : (s.writeStatus v).written = s.written := rfl
@[simp] theorem State.writeStatus_unseen (s : State) (v : Word) : (s.writeStatus v).unseen = s.unseen := rfl
@[simp] theorem State.writeStatus_foreign (s : State) (v : Word) : (s.writeStatus v).foreign = s.foreign := rfl
@[simp] theorem State.writeStatus_inputs (s : State) (v : Word) : (s.writeStatus v).inputs = s.inputs := rfl
@[simp] theorem State.writeStatus_hostData (s : State) (v : Word) : (s.writeStatus v).hostData = s.hostData := rfl
@[simp] theorem State.writeStatus_encData (s : State) (v : Word) : (s.writeStatus v).encData = s.encData := rfl
@[simp] theorem State.writeStatus_draws (s : State) (v : Word) : (s.writeStatus v).draws = s.draws := rfl

/-! ### `State.resetBlock` -/

@[simp] theorem State.resetBlock_cfg (s : State) : (s.resetBlock).cfg = s.cfg := rfl
@[simp] theorem State.resetBlock_irqEn (s : State) : (s.resetBlock).irqEn = State.reset.irqEn := rfl
@[simp] theorem State.resetBlock_wz (s : State) : (s.resetBlock).wz = State.reset.wz := rfl
@[simp] theorem State.resetBlock_done (s : State) : (s.resetBlock).done = State.reset.done := rfl
@[simp] theorem State.resetBlock_err (s : State) : (s.resetBlock).err = State.reset.err := rfl
@[simp] theorem State.resetBlock_errCode (s : State) : (s.resetBlock).errCode = State.reset.errCode := rfl
@[simp] theorem State.resetBlock_cmdBase (s : State) : (s.resetBlock).cmdBase = State.reset.cmdBase := rfl
@[simp] theorem State.resetBlock_cmdPtr (s : State) : (s.resetBlock).cmdPtr = State.reset.cmdPtr := rfl
@[simp] theorem State.resetBlock_cmdCount (s : State) : (s.resetBlock).cmdCount = State.reset.cmdCount := rfl
@[simp] theorem State.resetBlock_errInfo (s : State) : (s.resetBlock).errInfo = State.reset.errInfo := rfl
@[simp] theorem State.resetBlock_wsCap (s : State) : (s.resetBlock).wsCap = State.reset.wsCap := rfl
@[simp] theorem State.resetBlock_resW (s : State) : (s.resetBlock).resW = State.reset.resW := rfl
@[simp] theorem State.resetBlock_resH (s : State) : (s.resetBlock).resH = State.reset.resH := rfl
@[simp] theorem State.resetBlock_resWaste (s : State) : (s.resetBlock).resWaste = State.reset.resWaste := rfl
@[simp] theorem State.resetBlock_wsBestW (s : State) : (s.resetBlock).wsBestW = State.reset.wsBestW := rfl
@[simp] theorem State.resetBlock_wsBestH (s : State) : (s.resetBlock).wsBestH = State.reset.wsBestH := rfl
@[simp] theorem State.resetBlock_wsBestSize (s : State) : (s.resetBlock).wsBestSize = State.reset.wsBestSize := rfl
@[simp] theorem State.resetBlock_wsEmits (s : State) : (s.resetBlock).wsEmits = State.reset.wsEmits := rfl
@[simp] theorem State.resetBlock_wsCands (s : State) : (s.resetBlock).wsCands = State.reset.wsCands := rfl
@[simp] theorem State.resetBlock_wsCurW (s : State) : (s.resetBlock).wsCurW = State.reset.wsCurW := rfl
@[simp] theorem State.resetBlock_wsCurK (s : State) : (s.resetBlock).wsCurK = State.reset.wsCurK := rfl
@[simp] theorem State.resetBlock_phase (s : State) : (s.resetBlock).phase = State.reset.phase := rfl
@[simp] theorem State.resetBlock_acc (s : State) : (s.resetBlock).acc = Accum.unspecified s.draws := rfl
@[simp] theorem State.resetBlock_cursor (s : State) : (s.resetBlock).cursor = State.reset.cursor := rfl
@[simp] theorem State.resetBlock_replies (s : State) : (s.resetBlock).replies = State.reset.replies := rfl
@[simp] theorem State.resetBlock_sent (s : State) : (s.resetBlock).sent = State.reset.sent := rfl
@[simp] theorem State.resetBlock_mem (s : State) : (s.resetBlock).mem = s.mem := rfl
@[simp] theorem State.resetBlock_footprint (s : State) : (s.resetBlock).footprint = State.reset.footprint := rfl
@[simp] theorem State.resetBlock_written (s : State) : (s.resetBlock).written = State.reset.written := rfl
@[simp] theorem State.resetBlock_unseen (s : State) : (s.resetBlock).unseen = s.unseen := rfl
@[simp] theorem State.resetBlock_foreign (s : State) : (s.resetBlock).foreign = State.reset.foreign := rfl
@[simp] theorem State.resetBlock_inputs (s : State) : (s.resetBlock).inputs = s.inputs := rfl
@[simp] theorem State.resetBlock_hostData (s : State) : (s.resetBlock).hostData = s.hostData := rfl
@[simp] theorem State.resetBlock_encData (s : State) : (s.resetBlock).encData = s.encData := rfl
@[simp] theorem State.resetBlock_draws (s : State) : (s.resetBlock).draws = s.draws + 8 := rfl

end Sys2Proof.Machine
end

