-- ==== Sys2Proof/Laws/Optimizer.lean ====
section
/-! SUPPORT. The laws of the candidate sequence and of the search loop (spec/43_optimizer.md). -/

namespace Sys2Proof.Machine

open Sys2Proof

/-! ### The candidate sequence (R180) -/

theorem ceilDiv_le_iff {a b k : Nat} (hb : 0 < b) : ceilDiv a b ≤ k ↔ a ≤ k * b := by
  rw [ceilDiv, ← Nat.lt_succ_iff, Nat.div_lt_iff_lt_mul hb, Nat.succ_mul]
  omega

/-- A raster of height ceil_div(T, w) holds the T indices (20_memory.md R62). -/
theorem le_mul_rasterHeight {total w : Nat} (hw : 0 < w) : total ≤ w * rasterHeight total w := by
  have := (ceilDiv_le_iff (a := total) (k := rasterHeight total w) hw).1 (Nat.le_refl _)
  rwa [Nat.mul_comm]

/-- "Its wasted cells are w·h − T, with 0 ≤ w·h − T < w" (20_memory.md R62). -/
theorem mul_rasterHeight_lt {total w : Nat} (hw : 0 < w) : w * rasterHeight total w < total + w := by
  have h := Nat.div_mul_le_self (total + w - 1) w
  have : rasterHeight total w * w ≤ total + w - 1 := h
  rw [Nat.mul_comm]
  omega

theorem rasterHeight_le {total w : Nat} (hw : 0 < w) : rasterHeight total w ≤ total :=
  (ceilDiv_le_iff hw).2 (Nat.le_mul_of_pos_right _ hw)

theorem candWidth_le (step cap k : Nat) : candWidth step cap k ≤ cap := by
  unfold candWidth
  split <;> omega

theorem candWidth_pos {step cap k : Nat} (hs : 0 < step) (hc : 0 < cap) (hk : 1 ≤ k) : 0 < candWidth step cap k := by
  unfold candWidth
  split
  · exact hc
  · exact Nat.mul_pos hk hs

theorem candCount_le {step cap : Nat} (hs : 0 < step) : candCount step cap ≤ cap :=
  (ceilDiv_le_iff hs).2 (Nat.le_mul_of_pos_right _ hs)

/-- The candidates' cells stay within MAXR (43_optimizer.md R185). -/
theorem candCells_le_maxRaster {step total cap k : Nat} (h1 : 1 ≤ k) (h2 : k ≤ candCount step cap) :
    candCells step total cap k ≤ maxRaster step total cap := by
  have h := forRange_induct (n := candCount step cap) (a := 0)
    (f := fun i m => max m (candWidth step cap (i + 1) * rasterHeight total (candWidth step cap (i + 1))))
    (fun n m => ∀ k, 1 ≤ k → k ≤ n → candCells step total cap k ≤ m) (fun k h1 h2 => by omega)
    (fun i _ m hm k h1 h2 => by
      by_cases hk : k = i + 1
      · subst hk
        exact Nat.le_max_right _ _
      · exact Nat.le_trans (hm k h1 (by omega)) (Nat.le_max_left _ _))
  exact h k h1 h2

@[simp] theorem Search.next_k (c : Search) : c.next.k = c.k + 1 := rfl

namespace SearchOk

variable {cfg : Config} {c : Search}

theorem last_iff (h : SearchOk cfg c) : c.last = true ↔ c.k = c.nCands := by
  have h1 := ceilDiv_le_iff (a := c.cap) (k := c.k) h.stepPos
  have h2 := h.kLe
  have h3 := h.count
  unfold candCount at h3
  simp only [Search.last, decide_eq_true_eq, ← h1, ← h3]
  omega

theorem next (h : SearchOk cfg c) (hl : ¬c.last = true) : SearchOk cfg c.next := by
  have h1 := mt h.last_iff.2 hl
  have h2 := h.kLe
  exact { h with kPos := by simp, kLe := by simp only [Search.next]; omega }

theorem width_pos (h : SearchOk cfg c) : 0 < c.width := candWidth_pos h.stepPos h.capPos h.kPos

theorem width_word (h : SearchOk cfg c) : c.width < 2 ^ 32 := Nat.lt_of_le_of_lt (candWidth_le _ _ _) h.capWord

theorem height_word (h : SearchOk cfg c) : c.height < 2 ^ 32 :=
  Nat.lt_of_le_of_lt (rasterHeight_le h.width_pos) h.totalWord

theorem nCands_word (h : SearchOk cfg c) : c.nCands < 2 ^ 32 :=
  Nat.lt_of_le_of_lt (h.count ▸ candCount_le h.stepPos) h.capWord

theorem cells_le (h : SearchOk cfg c) : c.width * c.height ≤ c.maxRaster := h.cells c.k h.kPos h.kLe

end SearchOk

/-! ### The loop's rule -/

/-- The state in which the candidate's answer is taken. -/
def State.atAnswer (s : State) (c : Search) (rs : List EncReply) : State :=
  { (s.enterCandidate c).sendRequest c with replies := rs }

/-- The state in which the search waits for the candidate's answer. -/
def State.atWait (s : State) (c : Search) : State :=
  { (s.enterCandidate c).sendRequest c with phase := .execute c }

/-- The rule of the candidate loop: a property P of the state before a candidate that every candidate carries on, and
what it gives where the loop ends (the last candidate, an error, a wait), hold of the loop. -/
theorem searchLoop_rule {P : Search → State → Prop} {R : State → Prop}
    (more : ∀ c s, P c s → ¬c.last = true → c.k < c.nCands)
    (skip : ∀ c s, P c s → (s.enterCandidate c).skips c = true →
      (c.last = true → R ((s.enterCandidate c).finishSearch c)) ∧
        (¬c.last = true → P c.next (s.enterCandidate c)))
    (wait : ∀ c s, P c s → (s.enterCandidate c).skips c = false → s.replies = [] → R (s.atWait c))
    (take : ∀ c s r rs, P c s → (s.enterCandidate c).skips c = false → s.replies = r :: rs →
      (r.ok = false → R ((s.atAnswer c rs).takeReply c r)) ∧
        (r.ok = true → c.last = true → R (((s.atAnswer c rs).takeReply c r).finishSearch c)) ∧
        (r.ok = true → ¬c.last = true → P c.next ((s.atAnswer c rs).takeReply c r)))
    (n : Nat) (c : Search) (s : State) (hP : P c s) (hn : c.nCands - c.k < n) : R (searchLoop n c s) := by
  induction n generalizing c s with
  | zero => omega
  | succ n ih =>
    have hfuel : ¬c.last = true → c.next.nCands - c.next.k < n := fun hl => by
      have := more c s hP hl
      show c.nCands - (c.k + 1) < n
      omega
    rw [searchLoop]
    by_cases hs : (s.enterCandidate c).skips c = true
    · simp only [hs, if_true]
      split
      · next hl => exact (skip c s hP hs).1 hl
      · next hl => exact ih _ _ ((skip c s hP hs).2 hl) (hfuel hl)
    · have hs' : (s.enterCandidate c).skips c = false := by simpa using hs
      simp only [hs', Bool.false_eq_true, if_false]
      split
      · next h0 => exact wait c s hP hs' h0
      · next r rs h0 =>
        have ht := take c s r rs hP hs' h0
        by_cases hr : r.ok = true
        · simp only [hr, Bool.not_true, Bool.false_eq_true, if_false]
          split
          · next hl => exact ht.2.1 hr hl
          · next hl => exact ih _ _ (ht.2.2 hr hl) (hfuel hl)
        · have hr' : r.ok = false := by simpa using hr
          simp only [hr', Bool.not_false, if_true]
          exact ht.1 hr'

/-! ### One answer -/

/-- What the engine does with an answer: the error, an emit or a drop (43_optimizer.md R183, R184, R186). -/
theorem State.takeReply_cases (s : State) (c : Search) (r : EncReply) :
    (r.ok = false ∧ s.takeReply c r =
      s.countCandidate.raiseError { code := .encError, info := r.value.toNat }) ∨
    (r.ok = true ∧ (s.wsEmits = 0 ∨ r.value.toNat < s.wsBestSize.toNat) ∧
      s.takeReply c r = s.countCandidate.emit c r.value) ∨
    (r.ok = true ∧ s.wsEmits ≠ 0 ∧ s.wsBestSize.toNat ≤ r.value.toNat ∧
      s.takeReply c r = s.countCandidate.drop c) := by
  unfold State.takeReply
  by_cases hr : r.ok = true
  · simp only [hr, Bool.not_true, Bool.false_eq_true, if_false]
    by_cases hi : (s.wsEmits = 0 ∨ r.value.toNat < s.wsBestSize.toNat)
    · refine .inr (.inl ⟨trivial, hi, ?_⟩)
      rw [if_pos]
      simpa [State.improves] using hi
    · refine .inr (.inr ⟨trivial, fun h => hi (.inl h), by omega, ?_⟩)
      rw [if_neg]
      simpa [State.improves, not_or] using hi
  · simp only [Bool.not_eq_true] at hr
    exact .inl ⟨hr, by simp [hr]⟩

theorem State.takeReply_cfg (s : State) (c : Search) (r : EncReply) : (s.takeReply c r).cfg = s.cfg := by
  rcases s.takeReply_cases c r with ⟨-, ht⟩ | ⟨-, -, ht⟩ | ⟨-, -, -, ht⟩ <;> rw [ht]
  · rw [State.raiseError_cfg, State.countCandidate_cfg]
  · rw [State.emit_cfg, State.countCandidate_cfg]
  · rw [State.drop_cfg, State.countCandidate_cfg]

/-- An answer with OK = 0 leaves the engine IDLE, one with OK = 1 leaves its phase. -/
theorem State.takeReply_phase (s : State) (c : Search) (r : EncReply) :
    (s.takeReply c r).phase = if r.ok then s.phase else .idle := by
  rcases s.takeReply_cases c r with ⟨hr, ht⟩ | ⟨hr, -, ht⟩ | ⟨hr, -, -, ht⟩ <;> rw [ht, hr]
  · rw [State.raiseError_phase]; rfl
  · rw [State.emit_phase, State.countCandidate_phase]; rfl
  · rw [State.drop_phase, State.countCandidate_phase]; rfl

/-- The end of the search (43_optimizer.md R186). -/
theorem State.finishSearch_eq (s : State) (c : Search) :
    ∃ w h waste, s.finishSearch c = s.complete w h waste := by
  unfold State.finishSearch
  split
  · exact ⟨0, 0, 0, rfl⟩
  · exact ⟨_, _, _, rfl⟩

/-! ### The log stays sound (43_optimizer.md R187) -/

theorem recordWord_congr {m n : Memory} {log i off : Nat} (ho : off + 4 ≤ 16)
    (h : ∀ b, log + 16 * i ≤ b → b < log + 16 * i + 16 → m.read b = n.read b) :
    recordWord m log i off = recordWord n log i off :=
  readLE_congr (fun b h1 h2 => h b (by omega) (by omega))

/-- A sound log stays sound where the records, WS_EMITS and WS_BEST_* stay and WS_CANDS does not shrink. -/
theorem LogOk.congr {log b b' : Nat} {s t : State} (h : LogOk log b s) (hb : b ≤ b')
    (hm : ∀ a, log ≤ a → a < log + 16 * s.wsEmits.toNat → t.mem.read a = s.mem.read a)
    (he : t.wsEmits = s.wsEmits) (hw : t.wsBestW = s.wsBestW) (hh : t.wsBestH = s.wsBestH)
    (hz : t.wsBestSize = s.wsBestSize) (hc : s.wsCands.toNat ≤ t.wsCands.toNat) : LogOk log b' t := by
  have hr : ∀ i off, off + 4 ≤ 16 → i < s.wsEmits.toNat →
      recordWord t.mem log i off = recordWord s.mem log i off :=
    fun i off ho hi => recordWord_congr ho (fun a h1 h2 => hm a (by omega) (by omega))
  refine ⟨fun n hn => ?_, fun n hn => ?_, fun n hn => ?_, ?_⟩
  · rw [he] at hn
    rw [hr _ _ (by omega) (by omega), hr _ _ (by omega) (by omega)]
    exact h.sizes n hn
  · rw [he] at hn
    rw [hr _ _ (by omega) (by omega), hr _ _ (by omega) (by omega)]
    exact h.ordinals n hn
  · rw [he] at hn
    rw [hr _ _ (by omega) (by omega), hr _ _ (by omega) (by omega), hr _ _ (by omega) (by omega),
      hr _ _ (by omega) (by omega), hw, hh, hz]
    obtain ⟨h1, h2, h3, h4⟩ := h.last n hn
    exact ⟨h1, h2, h3, Nat.lt_of_lt_of_le h4 hb⟩
  · rw [he]
    exact Nat.le_trans h.emits hc

theorem toNat_add_one {x : Word} (h : x.toNat + 1 < 2 ^ 32) : (x + 1).toNat = x.toNat + 1 := by
  rw [BitVec.toNat_add, show (1 : Word).toNat = 1 from rfl, Nat.mod_eq_of_lt h]

/-- An answer keeps the log sound and counts one candidate (43_optimizer.md R187). -/
theorem WaitOk.takeReply {s : State} {c : Search} (h : WaitOk s c) (r : EncReply) :
    LogOk c.log (c.k + 1) (s.takeReply c r) ∧ (s.takeReply c r).wsCands.toNat = s.wsCands.toNat + 1 := by
  have hn := h.search.nCands_word
  have hk := h.search.kLe
  have hc := h.cands
  have he := h.log.emits
  have hc1 : (s.wsCands + 1).toNat = s.wsCands.toNat + 1 := toNat_add_one (by omega)
  rcases s.takeReply_cases c r with ⟨hr, ht⟩ | ⟨hr, hi, ht⟩ | ⟨hr, h1, h2, ht⟩
  · rw [ht]
    exact ⟨h.log.congr (by omega) (fun _ _ _ => rfl) rfl rfl rfl rfl
      (by simp only [State.raiseError_wsCands, State.countCandidate_wsCands, hc1]; omega), hc1⟩
  · rw [ht]
    refine ⟨?_, hc1⟩
    have he1 : (s.wsEmits + 1).toNat = s.wsEmits.toNat + 1 := toNat_add_one (by omega)
    have hold : ∀ i off, off + 4 ≤ 16 → i < s.wsEmits.toNat →
        recordWord (writeRecord (c.log + 16 * s.wsEmits.toNat) c.width c.height r.value.toNat c.k s.mem) c.log i off =
          recordWord s.mem c.log i off := fun i off ho hi =>
      recordWord_congr ho (fun b h1 h2 => read_writeRecord_outside (by omega))
    obtain ⟨n1, n2, n3, n4⟩ := readLE_writeRecord (c.log + 16 * s.wsEmits.toNat) c.width c.height r.value.toNat c.k s.mem
    rw [Nat.mod_eq_of_lt h.search.width_word] at n1
    rw [Nat.mod_eq_of_lt h.search.height_word] at n2
    rw [Nat.mod_eq_of_lt r.value.isLt] at n3
    rw [Nat.mod_eq_of_lt (by omega)] at n4
    refine ⟨fun n hlt => ?_, fun n hlt => ?_, fun n heq => ?_, ?_⟩
    · simp only [State.emit_wsEmits, State.emit_mem, State.countCandidate_wsEmits, State.countCandidate_mem, he1] at hlt ⊢
      by_cases hlast : n + 1 = s.wsEmits.toNat
      · rw [hold n 8 (by omega) (by omega), hlast]
        have hbest := (h.log.last n hlast).2.2.1
        have hlt' : r.value.toNat < s.wsBestSize.toNat := by
          rcases hi with h0 | h0
          · have h00 : s.wsEmits.toNat = 0 := by rw [h0]; rfl
            omega
          · exact h0
        unfold recordWord at hbest ⊢
        rw [n3, hbest]
        exact hlt'
      · rw [hold n 8 (by omega) (by omega), hold (n + 1) 8 (by omega) (by omega)]
        exact h.log.sizes n (by omega)
    · simp only [State.emit_wsEmits, State.emit_mem, State.countCandidate_wsEmits, State.countCandidate_mem, he1] at hlt ⊢
      by_cases hlast : n + 1 = s.wsEmits.toNat
      · rw [hold n 12 (by omega) (by omega), hlast]
        have hbest := (h.log.last n hlast).2.2.2
        unfold recordWord at hbest ⊢
        rw [n4]
        exact hbest
      · rw [hold n 12 (by omega) (by omega), hold (n + 1) 12 (by omega) (by omega)]
        exact h.log.ordinals n (by omega)
    · simp only [State.emit_wsEmits, State.emit_mem, State.emit_wsBestW, State.emit_wsBestH, State.emit_wsBestSize,
        State.countCandidate_wsEmits, State.countCandidate_mem, he1] at heq ⊢
      have hn : n = s.wsEmits.toNat := by omega
      subst hn
      unfold recordWord
      rw [Nat.add_zero, n1, n2, n3, n4, BitVec.toNat_ofNat, BitVec.toNat_ofNat,
        Nat.mod_eq_of_lt h.search.width_word, Nat.mod_eq_of_lt h.search.height_word]
      exact ⟨rfl, rfl, rfl, by omega⟩
    · simp only [State.emit_wsEmits, State.emit_wsCands, State.countCandidate_wsCands, State.countCandidate_wsEmits, he1, hc1]
      omega
  · rw [ht]
    exact ⟨h.log.congr (by omega) (fun _ _ _ => rfl) rfl rfl rfl rfl
      (by simp only [State.drop_wsCands, State.countCandidate_wsCands, hc1]; omega), hc1⟩

/-- The raster of the candidate leaves the log's bytes alone. -/
theorem WaitOk.sendRequest {s : State} {c : Search} (h : WaitOk s c) :
    WaitOk ((s.enterCandidate c).sendRequest c) c := by
  have hn := h.search.kLe
  have hc := h.cands
  have he := h.log.emits
  have hcells := h.search.cells_le
  refine ⟨h.search, h.log.congr (Nat.le_refl _) (fun a h1 h2 => ?_) rfl rfl rfl rfl (Nat.le_refl _), h.cands⟩
  simp only [State.sendRequest_mem, State.enterCandidate_mem]
  have hls := h.search.logScratch
  have hss := h.search.scratchSrc
  rw [read_writeRaster (fun i hi j hj => by omega), if_neg (by omega)]

/-- Where the search stands after some of its candidates: its operands are the same, only the ordinal has moved on. -/
def SameSearch (c d : Search) : Prop := d = { c with k := d.k }

/-- What the search loop leaves (43_optimizer.md R186, R187): a sound log, at most NC candidates counted, and, where it
waits, a sound wait of the same search. -/
structure LoopOk (c : Search) (cfg : Config) (t : State) : Prop where
  config : t.cfg = cfg
  log : LogOk c.log (c.nCands + 1) t
  cands : t.wsCands.toNat ≤ c.nCands
  waits : ∀ d, t.phase = .execute d → WaitOk t d ∧ SameSearch c d

theorem LogOk.weaken {log b b' : Nat} {s : State} (h : LogOk log b s) (hb : b ≤ b') : LogOk log b' s :=
  h.congr hb (fun _ _ _ => rfl) rfl rfl rfl rfl (Nat.le_refl _)

theorem LogOk.finish {log b : Nat} {s : State} (h : LogOk log b s) (c : Search) : LogOk log b (s.finishSearch c) := by
  obtain ⟨w, ht, waste, heq⟩ := s.finishSearch_eq c
  rw [heq]
  exact h.congr (Nat.le_refl _) (fun _ _ _ => rfl) rfl rfl rfl rfl (Nat.le_refl _)

theorem searchLoop_ok {n : Nat} {c : Search} {s : State} (h : WaitOk s c) (hn : c.nCands - c.k < n) :
    LoopOk c s.cfg (searchLoop n c s) := by
  refine searchLoop_rule (P := fun d t => WaitOk t d ∧ SameSearch c d ∧ t.cfg = s.cfg) (R := LoopOk c s.cfg)
    ?_ ?_ ?_ ?_ n c s ⟨h, rfl, rfl⟩ hn
  · rintro d t ⟨hw, -, -⟩ hl
    have := mt hw.search.last_iff.2 hl
    have := hw.search.kLe
    omega
  · rintro d t ⟨hw, hsame, hcfg⟩ -
    have hlog : LogOk d.log d.k (t.enterCandidate d) :=
      hw.log.congr (Nat.le_refl _) (fun _ _ _ => rfl) rfl rfl rfl rfl (Nat.le_refl _)
    have hk := hw.search.kLe
    have hcd := hw.cands
    have e1 : d.log = c.log := by rw [hsame]
    have e2 : d.nCands = c.nCands := by rw [hsame]
    refine ⟨fun hl => ?_, fun hl => ?_⟩
    · obtain ⟨w, ht, waste, heq⟩ := (t.enterCandidate d).finishSearch_eq d
      have hlog' := (hlog.weaken (b' := c.nCands + 1) (by omega)).finish d
      refine ⟨by rw [heq, State.complete_cfg]; exact hcfg, by rw [← e1]; exact hlog', by rw [heq]; simp; omega, ?_⟩
      intro e he
      rw [heq] at he
      simp at he
    · refine ⟨⟨hw.search.next hl, hlog.weaken (by simp), ?_⟩, ?_, hcfg⟩
      · simp only [State.enterCandidate_wsCands, Search.next_k]
        omega
      · rw [hsame]; rfl
  · rintro d t ⟨hw, hsame, hcfg⟩ - -
    have hs := hw.sendRequest
    have e1 : d.log = c.log := by rw [hsame]
    have e2 : d.nCands = c.nCands := by rw [hsame]
    have hk := hw.search.kLe
    have hlog : LogOk d.log d.k (t.atWait d) :=
      hs.log.congr (Nat.le_refl _) (fun _ _ _ => rfl) rfl rfl rfl rfl (Nat.le_refl _)
    refine ⟨hcfg, by rw [← e1]; exact hlog.weaken (by omega), ?_, ?_⟩
    · have hcd : (t.atWait d).wsCands.toNat < d.k := hw.cands
      omega
    · intro e he
      have : e = d := by simpa [State.atWait] using he.symm
      subst this
      exact ⟨⟨hw.search, hlog, hw.cands⟩, hsame⟩
  · rintro d t r rs ⟨hw, hsame, hcfg⟩ - -
    have hs := hw.sendRequest
    have hwa : WaitOk (t.atAnswer d rs) d :=
      ⟨hw.search, hs.log.congr (Nat.le_refl _) (fun _ _ _ => rfl) rfl rfl rfl rfl (Nat.le_refl _), hw.cands⟩
    obtain ⟨hlog, hcands⟩ := hwa.takeReply r
    have hcd : (t.atAnswer d rs).wsCands.toNat < d.k := hw.cands
    have e1 : d.log = c.log := by rw [hsame]
    have e2 : d.nCands = c.nCands := by rw [hsame]
    have hk := hw.search.kLe
    have hle : ((t.atAnswer d rs).takeReply d r).wsCands.toNat ≤ d.k := by
      rw [hcands]
      exact hcd
    have hle' := Nat.le_trans hle (e2 ▸ hk)
    have hbound : d.k + 1 ≤ c.nCands + 1 := Nat.succ_le_succ (e2 ▸ hk)
    have hcfg' : ((t.atAnswer d rs).takeReply d r).cfg = s.cfg := (State.takeReply_cfg _ _ _).trans hcfg
    refine ⟨fun hr => ?_, fun hr hl => ?_, fun hr hl => ?_⟩
    · refine ⟨hcfg', by rw [← e1]; exact hlog.weaken hbound, hle', fun e he => ?_⟩
      rw [State.takeReply_phase, hr] at he
      simp at he
    · obtain ⟨w, ht, waste, heq⟩ := ((t.atAnswer d rs).takeReply d r).finishSearch_eq d
      have hlog' := (hlog.weaken hbound).finish d
      refine ⟨by rw [heq, State.complete_cfg]; exact hcfg', by rw [← e1]; exact hlog',
        by rw [heq, State.complete_wsCands]; exact hle', ?_⟩
      intro e he
      rw [heq] at he
      simp at he
    · refine ⟨⟨?_, hlog, Nat.lt_succ_of_le hle⟩, ?_, hcfg'⟩
      · rw [hcfg', ← hcfg]
        exact hw.search.next hl
      · rw [hsame]; rfl

/-- A search that goes on with an answer leaves the same (43_optimizer.md R186, R187). -/
theorem resumeSearch_ok {c : Search} {s : State} (h : WaitOk s c) (r : EncReply) :
    LoopOk c s.cfg (resumeSearch c r s) := by
  obtain ⟨hlog, hcands⟩ := h.takeReply r
  have hcd := h.cands
  have hk := h.search.kLe
  have hcfg := s.takeReply_cfg c r
  unfold resumeSearch
  by_cases hr : r.ok = true
  · simp only [hr, Bool.not_true, Bool.false_eq_true, if_false]
    split
    · obtain ⟨w, ht, waste, heq⟩ := (s.takeReply c r).finishSearch_eq c
      have hlog' := (hlog.weaken (b' := c.nCands + 1) (by omega)).finish c
      refine ⟨by rw [heq, State.complete_cfg]; exact hcfg, hlog', by rw [heq]; simp only [State.complete_wsCands]; omega, ?_⟩
      intro e he
      rw [heq] at he
      simp at he
    · next hl =>
      have hnext : WaitOk (s.takeReply c r) c.next :=
        ⟨by rw [hcfg]; exact h.search.next hl, hlog, by simp only [Search.next_k]; omega⟩
      have hlt : c.k < c.nCands := by
        have := mt h.search.last_iff.2 hl
        omega
      have ho := searchLoop_ok (n := c.nCands - c.k) hnext (by show c.nCands - (c.k + 1) < _; omega)
      refine ⟨ho.config.trans hcfg, ho.log, ho.cands, fun d hd => ?_⟩
      obtain ⟨hwd, hsd⟩ := ho.waits d hd
      exact ⟨hwd, by rw [hsd]; rfl⟩
  · have hr' : r.ok = false := by simpa using hr
    simp only [hr', Bool.not_false, if_true]
    refine ⟨hcfg, hlog.weaken (by omega), by omega, fun e he => ?_⟩
    rw [State.takeReply_phase, hr'] at he
    simp at he

/-! ### What the search writes (43_optimizer.md R182, R184, R185) -/

/-- The memory differs only in the scratch raster and the log, and keeps the canonical form and the bound. -/
structure SearchWrites (c : Search) (m m' : Memory) : Prop where
  outside : ∀ a, (a < c.scratch ∨ c.scratch + c.maxRaster ≤ a) → (a < c.log ∨ c.log + 16 * c.nCands ≤ a) →
    m'.read a = m.read a
  canonical : m.wf → m'.wf
  below : ∀ b, m.below b → c.scratch + c.maxRaster ≤ b → c.log + 16 * c.nCands ≤ b → m'.below b

theorem SearchWrites.refl (c : Search) (m : Memory) : SearchWrites c m m :=
  ⟨fun _ _ _ => rfl, id, fun _ h _ _ => h⟩

theorem SearchWrites.trans {c : Search} {m m' m'' : Memory} (h : SearchWrites c m m') (h' : SearchWrites c m' m'') :
    SearchWrites c m m'' :=
  ⟨fun a h1 h2 => (h'.outside a h1 h2).trans (h.outside a h1 h2), fun hm => h'.canonical (h.canonical hm),
    fun b hb h1 h2 => h'.below b (h.below b hb h1 h2) h1 h2⟩

theorem SearchWrites.raster {cfg : Config} {c : Search} (h : SearchOk cfg c) (m : Memory) :
    SearchWrites c m (writeRaster c.src c.total c.scratch (c.width * c.height) m) := by
  have hcells := h.cells_le
  refine ⟨fun a h1 _ => ?_, wf_writeRaster, fun b hb h1 _ => below_writeRaster hb (by omega)⟩
  have hss := h.scratchSrc
  rw [read_writeRaster (fun i hi j hj => by omega), if_neg (by omega)]

theorem SearchWrites.takeReply {s : State} {c : Search} (h : WaitOk s c) (r : EncReply) :
    SearchWrites c s.mem (s.takeReply c r).mem := by
  have hk := h.search.kLe
  have hc := h.cands
  have he := h.log.emits
  rcases s.takeReply_cases c r with ⟨-, ht⟩ | ⟨-, -, ht⟩ | ⟨-, -, -, ht⟩ <;> rw [ht]
  · exact SearchWrites.refl c s.mem
  · refine ⟨fun a _ h2 => ?_, fun hm => ?_, fun b hb _ h2 => ?_⟩
    · rw [State.emit_mem, State.countCandidate_wsEmits, State.countCandidate_mem]
      exact read_writeRecord_outside (by omega)
    · rw [State.emit_mem]
      exact wf_writeRecord hm
    · rw [State.emit_mem]
      exact below_writeRecord hb (by rw [State.countCandidate_wsEmits]; omega)
  · exact SearchWrites.refl c s.mem

theorem State.finishSearch_mem (s : State) (c : Search) : (s.finishSearch c).mem = s.mem := by
  obtain ⟨w, h, waste, heq⟩ := s.finishSearch_eq c
  rw [heq, State.complete_mem]

theorem searchLoop_writes {n : Nat} {c : Search} {s : State} (h : WaitOk s c) (hn : c.nCands - c.k < n) :
    SearchWrites c s.mem (searchLoop n c s).mem := by
  have conv : ∀ {d : Search} {m m' : Memory}, SameSearch c d → SearchWrites d m m' → SearchWrites c m m' := by
    intro d m m' hs hw
    rw [hs] at hw
    exact ⟨hw.outside, hw.canonical, hw.below⟩
  refine searchLoop_rule (P := fun d t => WaitOk t d ∧ SameSearch c d ∧ SearchWrites c s.mem t.mem)
    (R := fun t => SearchWrites c s.mem t.mem) ?_ ?_ ?_ ?_ n c s ⟨h, rfl, SearchWrites.refl c s.mem⟩ hn
  · rintro d t ⟨hw, -, -⟩ hl
    have := mt hw.search.last_iff.2 hl
    have := hw.search.kLe
    omega
  · rintro d t ⟨hw, hsame, hwr⟩ -
    refine ⟨fun hl => by rw [State.finishSearch_mem]; exact hwr, fun hl => ⟨⟨hw.search.next hl, ?_, ?_⟩, ?_, hwr⟩⟩
    · exact hw.log.congr (by simp) (fun _ _ _ => rfl) rfl rfl rfl rfl (Nat.le_refl _)
    · have := hw.cands
      simp only [State.enterCandidate_wsCands, Search.next_k]
      omega
    · rw [hsame]; rfl
  · rintro d t ⟨hw, hsame, hwr⟩ - -
    exact hwr.trans (conv hsame (SearchWrites.raster hw.search t.mem))
  · rintro d t r rs ⟨hw, hsame, hwr⟩ - -
    have hs := hw.sendRequest
    have hwa : WaitOk (t.atAnswer d rs) d :=
      ⟨hw.search, hs.log.congr (Nat.le_refl _) (fun _ _ _ => rfl) rfl rfl rfl rfl (Nat.le_refl _), hw.cands⟩
    obtain ⟨hlog, hcands⟩ := hwa.takeReply r
    have hcd : (t.atAnswer d rs).wsCands.toNat < d.k := hw.cands
    have h1 : SearchWrites c s.mem (t.atAnswer d rs).mem :=
      hwr.trans (conv hsame (SearchWrites.raster hw.search t.mem))
    have h2 := h1.trans (conv hsame (SearchWrites.takeReply hwa r))
    refine ⟨fun _ => h2, fun _ _ => by rw [State.finishSearch_mem]; exact h2, fun _ hl => ⟨⟨?_, hlog, ?_⟩, ?_, h2⟩⟩
    · rw [State.takeReply_cfg]
      exact hw.search.next hl
    · rw [hcands]
      exact Nat.succ_lt_succ hcd
    · rw [hsame]; rfl

theorem resumeSearch_writes {c : Search} {s : State} (h : WaitOk s c) (r : EncReply) :
    SearchWrites c s.mem (resumeSearch c r s).mem := by
  have h1 := SearchWrites.takeReply h r
  obtain ⟨hlog, hcands⟩ := h.takeReply r
  have hcd := h.cands
  have hk := h.search.kLe
  unfold resumeSearch
  split
  · exact h1
  · split
    · rw [State.finishSearch_mem]
      exact h1
    · next hl =>
      have hnext : WaitOk (s.takeReply c r) c.next :=
        ⟨by rw [State.takeReply_cfg]; exact h.search.next hl, hlog, by rw [hcands]; exact Nat.succ_lt_succ hcd⟩
      have hlt : c.k < c.nCands := by
        have := mt h.search.last_iff.2 hl
        omega
      have h2 := searchLoop_writes (n := c.nCands - c.k) hnext (by show c.nCands - (c.k + 1) < _; omega)
      exact h1.trans ⟨h2.outside, h2.canonical, h2.below⟩

/-! ### What the search leaves alone -/

/-- The fields no part of a WSEARCH touches: the parameters, CTRL, DONE, CMD_BASE, WS_CAP, the accumulators, the cursor, the footprint, and
the outside world's. -/
structure SearchKeeps (s t : State) : Prop where
  cfg : t.cfg = s.cfg
  irqEn : t.irqEn = s.irqEn
  wz : t.wz = s.wz
  done : t.done = s.done
  cmdBase : t.cmdBase = s.cmdBase
  wsCap : t.wsCap = s.wsCap
  acc : t.acc = s.acc
  cursor : t.cursor = s.cursor
  footprint : t.footprint = s.footprint
  written : t.written = s.written
  foreign : t.foreign = s.foreign
  inputs : t.inputs = s.inputs
  hostData : t.hostData = s.hostData
  encData : t.encData = s.encData
  draws : t.draws = s.draws
  unseen : t.unseen = s.unseen

/-- The fields only the end of a command touches: CMD_PTR, CMD_COUNT, RES_*, ERR, ERR_CODE, ERR_INFO. -/
structure EndKeeps (s t : State) : Prop where
  cmdPtr : t.cmdPtr = s.cmdPtr
  cmdCount : t.cmdCount = s.cmdCount
  resW : t.resW = s.resW
  resH : t.resH = s.resH
  resWaste : t.resWaste = s.resWaste
  err : t.err = s.err
  errCode : t.errCode = s.errCode
  errInfo : t.errInfo = s.errInfo

/-- How a search's move ends: it waits, it completes (40_control.md R103), or it raises ENC_ERROR (60_exceptions.md R202). -/
inductive SearchEnd (s t : State) : Prop where
  | waits (c : Search) (phase : t.phase = .execute c) (same : EndKeeps s t)
  | completes (phase : t.phase = .fetch) (ptr : t.cmdPtr = s.cmdPtr + 64) (count : t.cmdCount = s.cmdCount + 1)
      (err : t.err = s.err) (code : t.errCode = s.errCode) (info : t.errInfo = s.errInfo)
  | fails (phase : t.phase = .idle) (ptr : t.cmdPtr = s.cmdPtr) (count : t.cmdCount = s.cmdCount)
      (w : t.resW = s.resW) (h : t.resH = s.resH) (waste : t.resWaste = s.resWaste) (err : t.err = true)
      (code : t.errCode = .encError)

theorem SearchKeeps.refl (s : State) : SearchKeeps s s := ⟨rfl, rfl, rfl, rfl, rfl, rfl, rfl, rfl, rfl, rfl, rfl, rfl, rfl, rfl, rfl, rfl⟩

theorem EndKeeps.refl (s : State) : EndKeeps s s := ⟨rfl, rfl, rfl, rfl, rfl, rfl, rfl, rfl⟩

theorem SearchKeeps.trans {s t u : State} (h : SearchKeeps s t) (h' : SearchKeeps t u) : SearchKeeps s u :=
  ⟨h'.cfg.trans h.cfg, h'.irqEn.trans h.irqEn, h'.wz.trans h.wz, h'.done.trans h.done, h'.cmdBase.trans h.cmdBase,
    h'.wsCap.trans h.wsCap, h'.acc.trans h.acc, h'.cursor.trans h.cursor, h'.footprint.trans h.footprint,
    h'.written.trans h.written, h'.foreign.trans h.foreign, h'.inputs.trans h.inputs, h'.hostData.trans h.hostData,
    h'.encData.trans h.encData, h'.draws.trans h.draws, h'.unseen.trans h.unseen⟩

theorem EndKeeps.trans {s t u : State} (h : EndKeeps s t) (h' : EndKeeps t u) : EndKeeps s u :=
  ⟨h'.cmdPtr.trans h.cmdPtr, h'.cmdCount.trans h.cmdCount, h'.resW.trans h.resW, h'.resH.trans h.resH,
    h'.resWaste.trans h.resWaste, h'.err.trans h.err, h'.errCode.trans h.errCode, h'.errInfo.trans h.errInfo⟩

theorem SearchEnd.after {s t u : State} (h : EndKeeps s t) (h' : SearchEnd t u) : SearchEnd s u := by
  cases h' with
  | waits c phase same => exact .waits c phase (h.trans same)
  | completes phase ptr count err code info =>
    exact .completes phase (by rw [ptr, h.cmdPtr]) (by rw [count, h.cmdCount]) (err.trans h.err) (code.trans h.errCode)
      (info.trans h.errInfo)
  | fails phase ptr count w hh waste err code =>
    exact .fails phase (ptr.trans h.cmdPtr) (count.trans h.cmdCount) (w.trans h.resW) (hh.trans h.resH)
      (waste.trans h.resWaste) err code

theorem State.enterCandidate_keeps (s : State) (c : Search) :
    SearchKeeps s (s.enterCandidate c) ∧ EndKeeps s (s.enterCandidate c) :=
  ⟨⟨rfl, rfl, rfl, rfl, rfl, rfl, rfl, rfl, rfl, rfl, rfl, rfl, rfl, rfl, rfl, rfl⟩,
    ⟨rfl, rfl, rfl, rfl, rfl, rfl, rfl, rfl⟩⟩

theorem State.atAnswer_keeps (s : State) (c : Search) (rs : List EncReply) :
    SearchKeeps s (s.atAnswer c rs) ∧ EndKeeps s (s.atAnswer c rs) :=
  ⟨⟨rfl, rfl, rfl, rfl, rfl, rfl, rfl, rfl, rfl, rfl, rfl, rfl, rfl, rfl, rfl, rfl⟩,
    ⟨rfl, rfl, rfl, rfl, rfl, rfl, rfl, rfl⟩⟩

theorem State.atWait_keeps (s : State) (c : Search) : SearchKeeps s (s.atWait c) ∧ EndKeeps s (s.atWait c) :=
  ⟨⟨rfl, rfl, rfl, rfl, rfl, rfl, rfl, rfl, rfl, rfl, rfl, rfl, rfl, rfl, rfl, rfl⟩,
    ⟨rfl, rfl, rfl, rfl, rfl, rfl, rfl, rfl⟩⟩

theorem State.takeReply_keeps (s : State) (c : Search) (r : EncReply) : SearchKeeps s (s.takeReply c r) := by
  rcases s.takeReply_cases c r with ⟨-, ht⟩ | ⟨-, -, ht⟩ | ⟨-, -, -, ht⟩ <;> rw [ht]
  all_goals exact ⟨rfl, rfl, rfl, rfl, rfl, rfl, rfl, rfl, rfl, rfl, rfl, rfl, rfl, rfl, rfl, rfl⟩

theorem State.takeReply_ends (s : State) (c : Search) (r : EncReply) :
    (r.ok = true → EndKeeps s (s.takeReply c r)) ∧ (r.ok = false → SearchEnd s (s.takeReply c r)) := by
  rcases s.takeReply_cases c r with ⟨hr, ht⟩ | ⟨hr, -, ht⟩ | ⟨hr, -, -, ht⟩ <;> rw [ht]
  · exact ⟨fun h => absurd h (by simp [hr]), fun _ => .fails rfl rfl rfl rfl rfl rfl rfl rfl⟩
  all_goals exact ⟨fun _ => ⟨rfl, rfl, rfl, rfl, rfl, rfl, rfl, rfl⟩, fun h => absurd h (by simp [hr])⟩

theorem State.finishSearch_ends (s : State) (c : Search) :
    SearchKeeps s (s.finishSearch c) ∧ SearchEnd s (s.finishSearch c) := by
  obtain ⟨w, h, waste, heq⟩ := s.finishSearch_eq c
  rw [heq]
  exact ⟨⟨rfl, rfl, rfl, rfl, rfl, rfl, rfl, rfl, rfl, rfl, rfl, rfl, rfl, rfl, rfl, rfl⟩,
    .completes rfl rfl rfl rfl rfl rfl⟩

theorem searchLoop_ends (n : Nat) (c : Search) (s : State) :
    SearchKeeps s (searchLoop n c s) ∧ SearchEnd s (searchLoop n c s) := by
  induction n generalizing c s with
  | zero => exact s.finishSearch_ends c
  | succ n ih =>
    have chain : ∀ {t u : State}, SearchKeeps s t ∧ EndKeeps s t → SearchKeeps t u ∧ SearchEnd t u →
        SearchKeeps s u ∧ SearchEnd s u := fun h h' => ⟨h.1.trans h'.1, h'.2.after h.2⟩
    rw [searchLoop]
    by_cases hs : (s.enterCandidate c).skips c = true
    · simp only [hs, if_true]
      split
      · exact chain (s.enterCandidate_keeps c) ((s.enterCandidate c).finishSearch_ends c)
      · exact chain (s.enterCandidate_keeps c) (ih _ _)
    · have hs' : (s.enterCandidate c).skips c = false := by simpa using hs
      simp only [hs', Bool.false_eq_true, if_false]
      split
      · exact ⟨(s.atWait_keeps c).1, .waits c rfl (s.atWait_keeps c).2⟩
      · next r rs h0 =>
        have ha := s.atAnswer_keeps c rs
        have hk := (s.atAnswer c rs).takeReply_keeps c r
        have he := (s.atAnswer c rs).takeReply_ends c r
        show SearchKeeps s (if (!r.ok) = true then (s.atAnswer c rs).takeReply c r
            else if c.last = true then ((s.atAnswer c rs).takeReply c r).finishSearch c
              else searchLoop n c.next ((s.atAnswer c rs).takeReply c r)) ∧
          SearchEnd s (if (!r.ok) = true then (s.atAnswer c rs).takeReply c r
            else if c.last = true then ((s.atAnswer c rs).takeReply c r).finishSearch c
              else searchLoop n c.next ((s.atAnswer c rs).takeReply c r))
        by_cases hr : r.ok = true
        · have hka := (show SearchKeeps s _ ∧ EndKeeps s _ from ⟨ha.1.trans hk, ha.2.trans (he.1 hr)⟩)
          simp only [hr, Bool.not_true, Bool.false_eq_true, if_false]
          split
          · exact chain hka (((s.atAnswer c rs).takeReply c r).finishSearch_ends c)
          · exact chain hka (ih _ _)
        · have hr' : r.ok = false := by simpa using hr
          simp only [hr', Bool.not_false, if_true]
          exact ⟨ha.1.trans hk, (he.2 hr').after ha.2⟩

theorem resumeSearch_ends (c : Search) (r : EncReply) (s : State) :
    SearchKeeps s (resumeSearch c r s) ∧ SearchEnd s (resumeSearch c r s) := by
  have hk := s.takeReply_keeps c r
  have he := s.takeReply_ends c r
  unfold resumeSearch
  by_cases hr : r.ok = true
  · simp only [hr, Bool.not_true, Bool.false_eq_true, if_false]
    split
    · have h := (s.takeReply c r).finishSearch_ends c
      exact ⟨hk.trans h.1, h.2.after (he.1 hr)⟩
    · have h := searchLoop_ends (c.nCands - c.k) c.next (s.takeReply c r)
      exact ⟨hk.trans h.1, h.2.after (he.1 hr)⟩
  · have hr' : r.ok = false := by simpa using hr
    simp only [hr', Bool.not_false, if_true]
    exact ⟨hk, he.2 hr'⟩

end Sys2Proof.Machine
end

