-- ==== Sys2Proof/Laws/Checks.lean ====
section
/-! SUPPORT. When a command's checks all pass, in plain arithmetic: one lemma per validation list. -/

namespace Sys2Proof.Machine

open Sys2Proof

theorem overlaps_false_iff {a n b m : Nat} (hn : 0 < n) (hm : 0 < m) :
    Region.overlaps { base := a, len := n } { base := b, len := m } = false ↔ Apart a n b m := by
  rw [Region.overlaps_eq_false]
  simp only [Apart]
  omega

theorem badPalLen_eq_false {palLen : Nat} : badPalLen palLen = false ↔ 1 ≤ palLen ∧ palLen ≤ 256 := by
  simp [badPalLen]
  omega

theorem paletteChecks_none {src dst cells pal palLen : Nat} {s : State} (hc : 0 < cells) :
    (∀ c ∈ paletteChecks src dst cells pal palLen s, c = none) ↔ PaletteOk src dst cells pal palLen s := by
  simp only [paletteChecks, palRegion, List.mem_cons, List.not_mem_nil, or_false, forall_eq_or_imp, forall_eq,
    failIf_eq_none, badPalLen_eq_false, Bool.not_eq_eq_eq_not, Bool.not_false, Region.fits_iff, Bool.or_eq_false_iff,
    indexScan_eq_none]
  constructor
  · rintro ⟨⟨h1, h2⟩, h3, h4, h5, ⟨h6, h7⟩, h8⟩
    exact ⟨h1, h2, h3, h4, h5, (overlaps_false_iff (by omega) hc).1 h6,
      (overlaps_false_iff (by omega) (by omega)).1 h7, h8⟩
  · rintro ⟨h1, h2, h3, h4, h5, h6, h7, h8⟩
    exact ⟨⟨h1, h2⟩, h3, h4, h5, ⟨(overlaps_false_iff (by omega) hc).2 h6,
      (overlaps_false_iff (by omega) (by omega)).2 h7⟩, h8⟩

theorem diffuseCheck_eq_none {src dst width height : Nat} {s : State} :
    diffuseCheck src dst width height s = none ↔
      width ≠ 0 ∧ height ≠ 0 ∧ width ≤ s.cfg.dwMax ∧ src + 8 * (width * height) ≤ s.cfg.memSize ∧
        dst + 4 * (width * height) ≤ s.cfg.memSize ∧ Apart dst (4 * (width * height)) src (8 * (width * height)) := by
  simp only [diffuseCheck, firstError_eq_none, List.mem_cons, List.not_mem_nil, or_false, forall_eq_or_imp, forall_eq,
    failIf_eq_none, decide_eq_false_iff_not, Nat.not_lt, Bool.not_eq_eq_eq_not, Bool.not_false, Region.fits_iff]
  by_cases hw : width = 0
  · simp [hw]
  by_cases hh : height = 0
  · simp [hh]
  have hp : 0 < width * height := Nat.mul_pos (by omega) (by omega)
  rw [overlaps_false_iff (by omega) (by omega)]

theorem encodeCheck_eq_none {src dst width height fcount : Nat} {s : State} :
    encodeCheck src dst width height fcount s = none ↔
      width ≠ 0 ∧ height ≠ 0 ∧ fcount ≠ 0 ∧ height % fcount = 0 ∧ src + width * height ≤ s.cfg.memSize ∧
        dst + width * height ≤ s.cfg.memSize ∧ Apart dst (width * height) src (width * height) := by
  simp only [encodeCheck, firstError_eq_none, List.mem_cons, List.not_mem_nil, or_false, forall_eq_or_imp, forall_eq,
    failIf_eq_none, decide_eq_false_iff_not, Bool.not_eq_eq_eq_not, Bool.not_false, Region.fits_iff, ne_eq,
    Decidable.not_not]
  by_cases hw : width = 0
  · simp [hw]
  by_cases hh : height = 0
  · simp [hh]
  have hp : 0 < width * height := Nat.mul_pos (by omega) (by omega)
  rw [overlaps_false_iff (by omega) (by omega)]

theorem seqDecCheck_eq_none {src dst width height fcount pal palLen : Nat} {s : State} :
    seqDecCheck src dst width height fcount pal palLen s = none ↔
      width ≠ 0 ∧ height ≠ 0 ∧ fcount ≠ 0 ∧ width % fcount = 0 ∧
        PaletteOk src dst (width * height) pal palLen s := by
  by_cases hw : width = 0
  · simp [seqDecCheck, firstError, failIf, hw]
  by_cases hh : height = 0
  · simp [seqDecCheck, firstError, failIf, hw, hh]
  have hp : 0 < width * height := Nat.mul_pos (by omega) (by omega)
  rw [← paletteChecks_none hp]
  simp only [seqDecCheck, firstError_eq_none, List.mem_append, List.mem_cons, List.not_mem_nil, or_false,
    or_imp, forall_and, forall_eq, failIf_eq_none, decide_eq_false_iff_not, ne_eq, Decidable.not_not, and_assoc]

theorem strDecCheck_eq_none {src dst width height fwidth fheight pal palLen : Nat} {s : State} :
    strDecCheck src dst width height fwidth fheight pal palLen s = none ↔
      width ≠ 0 ∧ height ≠ 0 ∧ fwidth ≠ 0 ∧ fheight ≠ 0 ∧ (width * height) % (fwidth * fheight) = 0 ∧
        PaletteOk src dst (width * height) pal palLen s := by
  by_cases hw : width = 0
  · simp [strDecCheck, firstError, failIf, hw]
  by_cases hh : height = 0
  · simp [strDecCheck, firstError, failIf, hw, hh]
  have hp : 0 < width * height := Nat.mul_pos (by omega) (by omega)
  rw [← paletteChecks_none hp]
  simp only [strDecCheck, firstError_eq_none, List.mem_append, List.mem_cons, List.not_mem_nil, or_false,
    or_imp, forall_and, forall_eq, failIf_eq_none, decide_eq_false_iff_not, ne_eq, Decidable.not_not, and_assoc]

theorem resolveCheck_eq_none {src dst width height pal palLen : Nat} {s : State} :
    resolveCheck src dst width height pal palLen s = none ↔
      width ≠ 0 ∧ height ≠ 0 ∧ PaletteOk src dst (width * height) pal palLen s := by
  by_cases hw : width = 0
  · simp [resolveCheck, firstError, failIf, hw]
  by_cases hh : height = 0
  · simp [resolveCheck, firstError, failIf, hw, hh]
  have hp : 0 < width * height := Nat.mul_pos (by omega) (by omega)
  rw [← paletteChecks_none hp]
  simp only [resolveCheck, firstError_eq_none, List.mem_append, List.mem_cons, List.not_mem_nil, or_false,
    or_imp, forall_and, forall_eq, failIf_eq_none, decide_eq_false_iff_not, ne_eq, and_assoc]

theorem rasterCheck_eq_none {src dst width height rwidth : Nat} {s : State} :
    rasterCheck src dst width height rwidth s = none ↔
      width ≠ 0 ∧ height ≠ 0 ∧ rwidth ≠ 0 ∧ src + width * height ≤ s.cfg.memSize ∧
        dst + rwidth * rasterHeight (width * height) rwidth ≤ s.cfg.memSize ∧
        Apart dst (rwidth * rasterHeight (width * height) rwidth) src (width * height) := by
  simp only [rasterCheck, firstError_eq_none, List.mem_cons, List.not_mem_nil, or_false, forall_eq_or_imp, forall_eq,
    failIf_eq_none, decide_eq_false_iff_not, Bool.not_eq_eq_eq_not, Bool.not_false, Region.fits_iff]
  by_cases hw : width = 0
  · simp [hw]
  by_cases hh : height = 0
  · simp [hh]
  by_cases hr : rwidth = 0
  · simp [hr]
  have hp : 0 < width * height := Nat.mul_pos (by omega) (by omega)
  have := le_mul_rasterHeight (total := width * height) (w := rwidth) (by omega)
  rw [overlaps_false_iff (by omega) (by omega)]

theorem candCount_pos {step cap : Nat} (hs : 0 < step) (hc : 0 < cap) : 0 < candCount step cap := by
  rcases Nat.eq_zero_or_pos (candCount step cap) with h | h
  · have := (ceilDiv_le_iff (a := cap) (k := 0) hs).1 (Nat.le_of_eq h)
    omega
  · exact h

theorem maxRaster_pos {step total cap : Nat} (hs : 0 < step) (hc : 0 < cap) (ht : 0 < total) :
    0 < maxRaster step total cap := by
  have h1 := candCells_le_maxRaster (step := step) (total := total) (cap := cap) (k := 1) (Nat.le_refl _)
    (candCount_pos hs hc)
  have h2 := le_mul_rasterHeight (total := total) (candWidth_pos hs hc (Nat.le_refl 1))
  unfold candCells at h1
  omega

theorem wsearchCheck_eq_none {src fcount fwidth fheight pal palLen scratch scrLen log logLen : Nat} {s : State} :
    wsearchCheck src fcount fwidth fheight pal palLen scratch scrLen log logLen s = none ↔
      WsearchOk src fcount fwidth fheight pal palLen scratch scrLen log logLen s := by
  simp only [wsearchCheck, palRegion, firstError_eq_none, List.mem_cons, List.not_mem_nil, or_false, forall_eq_or_imp,
    forall_eq, failIf_eq_none, decide_eq_false_iff_not, Nat.not_lt, Bool.not_eq_eq_eq_not, Bool.not_false,
    Region.fits_iff, ne_eq, Decidable.not_not, badPalLen_eq_false, Bool.or_eq_false_iff, indexScan_eq_none]
  constructor
  · rintro ⟨h1, h2, h3, h4, h5, ⟨h6, h6'⟩, h7, h8, h9, h10, h11, h12, ⟨⟨h13, h14⟩, h15⟩, ⟨⟨h16, h17⟩, -⟩, h18⟩
    have hs : 0 < fcount * fwidth := Nat.mul_pos (by omega) (by omega)
    have ht : 0 < fcount * fwidth * fheight := Nat.mul_pos hs (by omega)
    have hm := maxRaster_pos (total := fcount * fwidth * fheight) hs (show 0 < s.wsCap.toNat by omega) ht
    have hc := candCount_pos hs (show 0 < s.wsCap.toNat by omega)
    exact ⟨h1, h2, h3, h4, h5, h6, h6', h7, h8, h9, h10, h11, h12, (overlaps_false_iff (by omega) ht).1 h13,
      (overlaps_false_iff (by omega) (by omega)).1 h14, (overlaps_false_iff (by omega) (by omega)).1 h15,
      (overlaps_false_iff (by omega) ht).1 h16, (overlaps_false_iff (by omega) (by omega)).1 h17, h18⟩
  · rintro ⟨h1, h2, h3, h4, h5, h6, h6', h7, h8, h9, h10, h11, h12, h13, h14, h15, h16, h17, h18⟩
    have hs : 0 < fcount * fwidth := Nat.mul_pos (by omega) (by omega)
    have ht : 0 < fcount * fwidth * fheight := Nat.mul_pos hs (by omega)
    have hm := maxRaster_pos (total := fcount * fwidth * fheight) hs (show 0 < s.wsCap.toNat by omega) ht
    have hc := candCount_pos hs (show 0 < s.wsCap.toNat by omega)
    exact ⟨h1, h2, h3, h4, h5, ⟨h6, h6'⟩, h7, h8, h9, h10, h11, h12,
      ⟨⟨(overlaps_false_iff (by omega) ht).2 h13, (overlaps_false_iff (by omega) (by omega)).2 h14⟩,
        (overlaps_false_iff (by omega) (by omega)).2 h15⟩,
      ⟨⟨(overlaps_false_iff (by omega) ht).2 h16, (overlaps_false_iff (by omega) (by omega)).2 h17⟩,
        (overlaps_false_iff (by omega) (by omega)).2 h15.symm⟩, h18⟩

/-- A WSEARCH whose checks pass starts a sound search (43_optimizer.md R185, R186). -/
theorem WsearchOk.start {src fcount fwidth fheight pal palLen scratch scrLen log logLen : Nat} {s : State}
    (h : WsearchOk src fcount fwidth fheight pal palLen scratch scrLen log logLen s) (hm : s.cfg.memSize ≤ 2 ^ 32) :
    WaitOk s.clearSearch (searchOf src fcount fwidth fheight pal palLen scratch log s.wsCap.toNat) := by
  have hs : 0 < fcount * fwidth := Nat.mul_pos (Nat.pos_of_ne_zero h.fcountNe) (Nat.pos_of_ne_zero h.fwidthNe)
  have hc : 0 < s.wsCap.toNat := Nat.pos_of_ne_zero h.capNe
  have ht : 0 < fcount * fwidth * fheight := Nat.mul_pos hs (Nat.pos_of_ne_zero h.fheightNe)
  have hmx := maxRaster_pos (total := fcount * fwidth * fheight) hs hc ht
  have h1 := candCells_le_maxRaster (step := fcount * fwidth) (total := fcount * fwidth * fheight)
    (cap := s.wsCap.toNat) (k := 1) (Nat.le_refl _) (candCount_pos hs hc)
  have h2 := le_mul_rasterHeight (total := fcount * fwidth * fheight) (candWidth_pos hs hc (Nat.le_refl 1))
  have hsc := h.scratchSrc
  have hlg := h.scratchLog
  have hls := h.logSrc
  have hsp := h.scratchPal
  have hlp := h.logPal
  have hp := h.palLo
  have hf1 := h.srcFits
  have hf2 := h.scratchFits
  have hf3 := h.logFits
  have hl1 := h.scrLenOk
  have hl2 := h.logLenOk
  unfold candCells at h1
  unfold Apart at hsc hlg hls hsp hlp
  refine ⟨?_, ?_, ?_⟩
  · refine ⟨hs, hc, s.wsCap.isLt, ?_, rfl, Nat.le_refl 1, candCount_pos hs hc,
      fun k h1 h2 => candCells_le_maxRaster h1 h2, ?_, ?_, ?_, ?_, ?_, ?_, ?_⟩ <;>
      simp only [searchOf, State.clearSearch_cfg] <;> omega
  · exact ⟨fun n hn => absurd hn (by simp), fun n hn => absurd hn (by simp), fun n hn => absurd hn (by simp),
      Nat.le_refl _⟩
  · show (0 : Word).toNat < 1
    decide

end Sys2Proof.Machine
end

