-- ==== Sys2Proof/Laws/Transcoder.lean ====
section
/-! SUPPORT. What the transcoder's loops leave in memory (spec/42_transcoder.md): the closed forms of the walks. -/

namespace Sys2Proof.Machine

open Sys2Proof

/-! ### Index arithmetic -/

theorem mul_add_lt {a b i j : Nat} (hi : i < a) (hj : j < b) : i * b + j < a * b := by
  have : (i + 1) * b ≤ a * b := Nat.mul_le_mul_right b hi
  rw [Nat.succ_mul] at this
  omega

theorem mul_add_div_right {b j : Nat} (i : Nat) (hj : j < b) : (i * b + j) / b = i := by
  rw [Nat.mul_comm, Nat.mul_add_div (by omega), Nat.div_eq_of_lt hj, Nat.add_zero]

theorem mul_add_mod_right {b j : Nat} (i : Nat) (hj : j < b) : (i * b + j) % b = j := by
  rw [Nat.mul_comm, Nat.mul_add_mod, Nat.mod_eq_of_lt hj]

theorem div_lt_of_lt_mul' {i a b : Nat} (h : i < a * b) : i / b < a := by
  rw [Nat.mul_comm] at h
  exact Nat.div_lt_of_lt_mul h

/-! ### SEQ_ENC -/

/-- SEQ_ENC's cursor after i elements is x = F·(i mod M), f = i div M, with M = Wf·Hf (42_transcoder.md R141, R142). -/
theorem seqEncWalk_eq {frames cells : Nat} (hF : 0 < frames) (hM : 0 < cells) (src dst : Nat) (m : Memory) :
    seqEncWalk src dst (frames * cells) frames m =
      (forRange (frames * cells) (fun i m => m.write (dst + (i % cells * frames + i / cells)) (m.read (src + i))) m,
        { x := 0, f := frames }) := by
  have key := forRange_induct (n := frames * cells) (f := seqEncElement src dst (frames * cells) frames)
    (a := (m, ({ x := 0, f := 0 } : Cursor)))
    (fun k st => st =
      (forRange k (fun i m => m.write (dst + (i % cells * frames + i / cells)) (m.read (src + i))) m,
        ({ x := k % cells * frames, f := k / cells } : Cursor))) (by simp) (fun k hk st hst => by
    subst hst
    simp only [seqEncElement, forRange_succ, Prod.mk.injEq]
    refine ⟨by congr 1; omega, ?_⟩
    have hmod : k % cells < cells := Nat.mod_lt _ hM
    have hx : k % cells * frames + frames = (k % cells + 1) * frames := (Nat.succ_mul _ _).symm
    rw [hx]
    have hk1 : k + 1 = k / cells * cells + (k % cells + 1) := by
      rw [← Nat.add_assoc, Nat.mul_comm, Nat.div_add_mod]
    by_cases hlast : k % cells + 1 = cells
    · have hk2 : k + 1 = (k / cells + 1) * cells := by rw [Nat.succ_mul]; omega
      rw [hlast, Nat.mul_comm cells frames, if_pos (Nat.le_refl _), Nat.mod_self, hk2, Nat.mul_mod_left,
        Nat.mul_div_cancel _ hM, Nat.zero_mul]
    · have hlt : k % cells + 1 < cells := by omega
      have h1 : (k + 1) % cells = k % cells + 1 := by rw [hk1, mul_add_mod_right _ hlt]
      have h2 : (k + 1) / cells = k / cells := by rw [hk1, mul_add_div_right _ hlt]
      rw [h1, h2, if_neg]
      rw [Nat.not_le, Nat.mul_comm frames]
      exact Nat.mul_lt_mul_of_pos_right hlt hF)
  rw [seqEncWalk, key, Nat.mul_mod_left, Nat.mul_div_cancel _ hM, Nat.zero_mul]

/-- A loop that writes source element f·M + j to offset j·F + f, over all f < F and j < M, seen byte by byte. -/
theorem read_interleave {n frames cells src dst : Nat} {m : Memory} {f : Nat → Memory → Memory}
    (hn : n = frames * cells) (hsd : src + n ≤ dst ∨ dst + n ≤ src) (tgt org : Nat → Nat)
    (htgt : ∀ i < n, tgt i < n ∧ (tgt i % frames) * cells + tgt i / frames = org i)
    (honto : ∀ d < n, ∃ i < n, tgt i = d)
    (hf : ∀ i < n, ∀ m' : Memory, f i m' = m'.write (dst + tgt i) (m'.read (src + org i)))
    (hfrom : ∀ i < n, org i < n) (a : Nat) :
    (forRange n f m).read a =
      if dst ≤ a ∧ a < dst + n then m.read (src + ((a - dst) % frames * cells + (a - dst) / frames)) else m.read a := by
  have key := forRange_writes (n := n) (f := f) (m := m) (fun i => dst + tgt i)
    (fun a => m.read (src + ((a - dst) % frames * cells + (a - dst) / frames))) (fun i hi m' hm => by
      rw [hf i hi m']
      congr 1
      simp only [Nat.add_sub_cancel_left]
      rw [(htgt i hi).2]
      refine hm _ (fun j hj => ?_)
      have := (htgt j hj).1
      have := hfrom i hi
      omega)
  by_cases ha : dst ≤ a ∧ a < dst + n
  · obtain ⟨i, hi, hd⟩ := honto (a - dst) (by omega)
    rw [if_pos ha]
    have := key.1 i hi
    rw [hd, show dst + (a - dst) = a by omega] at this
    exact this
  · rw [if_neg ha]
    refine key.2 a (fun i hi => ?_)
    have := (htgt i hi).1
    omega

/-- SEQ_ENC's memory, seen byte by byte: destination offset d holds source element (d mod F)·M + d div F
(42_transcoder.md R142). -/
theorem read_seqEncWalk {frames cells : Nat} (hF : 0 < frames) (hM : 0 < cells) {src dst : Nat}
    (hsd : src + frames * cells ≤ dst ∨ dst + frames * cells ≤ src) (m : Memory) (a : Nat) :
    (seqEncWalk src dst (frames * cells) frames m).1.read a =
      if dst ≤ a ∧ a < dst + frames * cells then
        m.read (src + ((a - dst) % frames * cells + (a - dst) / frames))
      else m.read a := by
  rw [seqEncWalk_eq hF hM]
  refine read_interleave rfl hsd (fun i => i % cells * frames + i / cells) (fun i => i) (fun i hi => ?_)
    (fun d hd => ?_) (fun _ _ _ => rfl) (fun i hi => hi) a
  · have h1 : i % cells < cells := Nat.mod_lt _ hM
    have h2 : i / cells < frames := div_lt_of_lt_mul' hi
    refine ⟨?_, ?_⟩
    · rw [Nat.mul_comm frames cells]
      exact mul_add_lt h1 h2
    · rw [mul_add_mod_right _ h2, mul_add_div_right _ h2, Nat.mul_comm]
      exact Nat.div_add_mod i cells
  · have h1 : d % frames < frames := Nat.mod_lt _ hF
    have h2 : d / frames < cells := div_lt_of_lt_mul' (by rw [Nat.mul_comm]; exact hd)
    refine ⟨d % frames * cells + d / frames, mul_add_lt h1 h2, ?_⟩
    show (d % frames * cells + d / frames) % cells * frames + (d % frames * cells + d / frames) / cells = d
    rw [mul_add_mod_right _ h2, mul_add_div_right _ h2, Nat.mul_comm]
    exact Nat.div_add_mod d frames

/-! ### The three nested loops -/

/-- The loops over y, x, f are one loop over i = (y·Wf + x)·F + f (42_transcoder.md R146, R150). -/
theorem forFrames_eq {α : Type} (hf wf frames : Nat) (f : Nat → Nat → Nat → α → α) (a : α) :
    forFrames hf wf frames f a =
      forRange (hf * wf * frames) (fun i => f (i / frames / wf) (i / frames % wf) (i % frames)) a := by
  unfold forFrames
  rw [forRange_nest hf wf (fun y x a => forRange frames (f y x) a),
    forRange_nest (hf * wf) frames (fun i j => f (i / wf) (i % wf) j)]

/-- STR_ENC's memory, seen byte by byte: the same bytes as SEQ_ENC's (42_transcoder.md R151). -/
theorem read_strEncWalk {wf hf frames src dst : Nat} (hF : 0 < frames)
    (hsd : src + frames * (hf * wf) ≤ dst ∨ dst + frames * (hf * wf) ≤ src) (m : Memory) (a : Nat) :
    (strEncWalk src dst wf hf frames m).read a =
      if dst ≤ a ∧ a < dst + frames * (hf * wf) then
        m.read (src + ((a - dst) % frames * (hf * wf) + (a - dst) / frames))
      else m.read a := by
  rw [strEncWalk, forFrames_eq, Nat.mul_comm (hf * wf) frames]
  refine read_interleave rfl hsd (fun i => i) (fun i => i % frames * (hf * wf) + i / frames) (fun i hi => ⟨hi, rfl⟩)
    (fun d hd => ⟨d, hd, rfl⟩) (fun i hi m' => ?_) (fun i hi => ?_) a
  · have e1 : i / frames / wf * wf + i / frames % wf = i / frames := by
      rw [Nat.mul_comm]; exact Nat.div_add_mod _ _
    have e2 : i / frames * frames + i % frames = i := by
      rw [Nat.mul_comm]; exact Nat.div_add_mod _ _
    have e3 : i % frames * hf * wf + i / frames / wf * wf + i / frames % wf = i % frames * (hf * wf) + i / frames := by
      rw [Nat.add_assoc, e1, Nat.mul_assoc]
    simp only [interleavedFlat, e1, e2, e3]
  · exact mul_add_lt (Nat.mod_lt _ hF) (div_lt_of_lt_mul' (by rw [Nat.mul_comm]; exact hi))

/-- The decode loop's memory, seen pixel by pixel (42_transcoder.md R145, R154): the strip's pixel (x, f·Hf + y) is the
palette entry of source index (y·Wf + x)·F + f, and every byte outside the strip is as before. -/
theorem read_decodeFrames {src dst pal palLen wf hf frames : Nat} {m : Memory}
    (hsd : src + frames * (hf * wf) ≤ dst ∨ dst + 4 * (frames * (hf * wf)) ≤ src)
    (hpd : pal + 4 * palLen ≤ dst ∨ dst + 4 * (frames * (hf * wf)) ≤ pal)
    (hidx : ∀ i < frames * (hf * wf), (m.read (src + i)).toNat < palLen) :
    (∀ f < frames, ∀ y < hf, ∀ x < wf, ∀ c : Chan,
      (decodeFrames src dst pal wf hf frames m).read (narrowAddr dst (stripFlat wf hf f x y) c) =
        m.read (narrowAddr pal (m.read (src + interleavedFlat wf frames f x y)).toNat c)) ∧
      ∀ a, (a < dst ∨ dst + 4 * (frames * (hf * wf)) ≤ a) →
        (decodeFrames src dst pal wf hf frames m).read a = m.read a := by
  have hstrip : ∀ {f y x}, f < frames → y < hf → x < wf → stripFlat wf hf f x y < frames * (hf * wf) := by
    intro f y x h1 h2 h3
    have := mul_add_lt (mul_add_lt h1 h2) h3
    rwa [Nat.mul_assoc] at this
  have hinter : ∀ {f y x}, f < frames → y < hf → x < wf → interleavedFlat wf frames f x y < frames * (hf * wf) := by
    intro f y x h1 h2 h3
    have := mul_add_lt (mul_add_lt h2 h3) h1
    rwa [Nat.mul_comm (hf * wf)] at this
  -- round i paints strip pixel `pix i`; the value of a byte is found back from its address
  have hround : ∀ i < hf * wf * frames, i % frames < frames ∧ i / frames / wf < hf ∧ i / frames % wf < wf := by
    intro i hi
    have hF : 0 < frames := Nat.pos_of_ne_zero (by rintro rfl; simp at hi)
    have h1 : i / frames < hf * wf := div_lt_of_lt_mul' hi
    have hW : 0 < wf := Nat.pos_of_ne_zero (by rintro rfl; simp at h1)
    exact ⟨Nat.mod_lt _ hF, div_lt_of_lt_mul' h1, Nat.mod_lt _ hW⟩
  have key := forRange_paint (n := hf * wf * frames) (m := m)
    (f := fun i m => writeColour pal dst (stripFlat wf hf (i % frames) (i / frames % wf) (i / frames / wf))
      (m.read (src + interleavedFlat wf frames (i % frames) (i / frames % wf) (i / frames / wf))).toNat m)
    (fun i a => dst + 4 * stripFlat wf hf (i % frames) (i / frames % wf) (i / frames / wf) ≤ a ∧
      a < dst + 4 * stripFlat wf hf (i % frames) (i / frames % wf) (i / frames / wf) + 4)
    (fun a =>
      let n := (a - dst) / 4
      m.read (pal + 4 * (m.read (src + interleavedFlat wf frames (n / wf / hf) (n % wf) (n / wf % hf))).toNat +
        (a - dst) % 4))
    (fun i hi m' hm a => by
      obtain ⟨h1, h2, h3⟩ := hround i hi
      have hs := hstrip h1 h2 h3
      have hin := hinter h1 h2 h3
      have houtside : ∀ b, b < dst ∨ dst + 4 * (frames * (hf * wf)) ≤ b → m'.read b = m.read b := by
        intro b hb
        refine hm b (fun j hj => ?_)
        obtain ⟨k1, k2, k3⟩ := hround j hj
        have := hstrip k1 k2 k3
        omega
      have hsrc := houtside (src + interleavedFlat wf frames (i % frames) (i / frames % wf) (i / frames / wf)) (by omega)
      have hlt := hidx _ hin
      simp only [hsrc]
      rw [read_writeColour (by omega)]
      refine ⟨fun ha => ?_, fun ha => by rw [if_neg ha]⟩
      rw [if_pos ha, houtside _ (by omega)]
      have hn : (a - dst) / 4 = stripFlat wf hf (i % frames) (i / frames % wf) (i / frames / wf) := by omega
      have e1 : stripFlat wf hf (i % frames) (i / frames % wf) (i / frames / wf) / wf =
          i % frames * hf + i / frames / wf := mul_add_div_right _ h3
      have e2 : stripFlat wf hf (i % frames) (i / frames % wf) (i / frames / wf) % wf = i / frames % wf :=
        mul_add_mod_right _ h3
      show _ = m.read (pal + 4 * (m.read (src + interleavedFlat wf frames
        ((a - dst) / 4 / wf / hf) ((a - dst) / 4 % wf) ((a - dst) / 4 / wf % hf))).toNat + (a - dst) % 4)
      rw [hn, e1, e2, mul_add_div_right _ h2, mul_add_mod_right _ h2]
      congr 1
      omega)
  have hdef : decodeFrames src dst pal wf hf frames m = forRange (hf * wf * frames)
      (fun i m => writeColour pal dst (stripFlat wf hf (i % frames) (i / frames % wf) (i / frames / wf))
      (m.read (src + interleavedFlat wf frames (i % frames) (i / frames % wf) (i / frames / wf))).toNat m) m := by
    rw [decodeFrames, forFrames_eq]
  rw [hdef]
  constructor
  · intro f hf' y hy x hx c
    have hc : c.index < 4 := by cases c <;> decide
    have e1 : interleavedFlat wf frames f x y / frames = y * wf + x := mul_add_div_right _ hf'
    have e2 : interleavedFlat wf frames f x y % frames = f := mul_add_mod_right _ hf'
    have hlt : interleavedFlat wf frames f x y < hf * wf * frames := by
      rw [Nat.mul_comm]; exact hinter hf' hy hx
    have h := (key (narrowAddr dst (stripFlat wf hf f x y) c)).1 ⟨interleavedFlat wf frames f x y, hlt, by
      rw [e1, e2, mul_add_div_right _ hx, mul_add_mod_right _ hx]
      unfold narrowAddr
      omega⟩
    rw [h]
    have hn : (narrowAddr dst (stripFlat wf hf f x y) c - dst) / 4 = stripFlat wf hf f x y := by
      unfold narrowAddr; omega
    have hm : (narrowAddr dst (stripFlat wf hf f x y) c - dst) % 4 = c.index := by
      unfold narrowAddr; omega
    have e3 : stripFlat wf hf f x y / wf = f * hf + y := mul_add_div_right _ hx
    have e4 : stripFlat wf hf f x y % wf = x := mul_add_mod_right _ hx
    simp only [hn, hm, e3, e4, mul_add_div_right _ hy, mul_add_mod_right _ hy]
    rfl
  · intro a ha
    refine (key a).2 (fun i hi => ?_)
    obtain ⟨h1, h2, h3⟩ := hround i hi
    have := hstrip h1 h2 h3
    omega

/-- RESOLVE's memory, seen pixel by pixel (42_transcoder.md R158). -/
theorem read_resolveWalk {src dst pal palLen cells : Nat} {m : Memory}
    (hsd : src + cells ≤ dst ∨ dst + 4 * cells ≤ src) (hpd : pal + 4 * palLen ≤ dst ∨ dst + 4 * cells ≤ pal)
    (hidx : ∀ i < cells, (m.read (src + i)).toNat < palLen) :
    (∀ n < cells, ∀ c : Chan, (resolveWalk src dst cells pal m).read (narrowAddr dst n c) =
        m.read (narrowAddr pal (m.read (src + n)).toNat c)) ∧
      ∀ a, (a < dst ∨ dst + 4 * cells ≤ a) → (resolveWalk src dst cells pal m).read a = m.read a := by
  have e : resolveWalk src dst cells pal m = decodeFrames src dst pal cells 1 1 m := by
    rw [resolveWalk, decodeFrames, forFrames_eq, Nat.one_mul, Nat.mul_one]
    refine forRange_congr _ fun i hi m' => ?_
    have h1 : i % cells = i := Nat.mod_eq_of_lt hi
    have h2 : i / cells = 0 := Nat.div_eq_of_lt hi
    simp [stripFlat, interleavedFlat, h1, h2, Nat.mod_one]
  have h := read_decodeFrames (src := src) (dst := dst) (pal := pal) (palLen := palLen) (wf := cells) (hf := 1)
    (frames := 1) (m := m) (by simpa using hsd) (by simpa using hpd) (by simpa using hidx)
  rw [e]
  refine ⟨fun n hn c => ?_, fun a ha => h.2 a (by simpa using ha)⟩
  simpa [stripFlat, interleavedFlat] using h.1 0 (by omega) 0 (by omega) n hn c

/-! ### The canonical form -/

theorem wf_seqEncWalk {src dst n frames : Nat} {m : Memory} (h : m.wf) : (seqEncWalk src dst n frames m).1.wf :=
  forRange_keeps (fun st : Memory × Cursor => st.1.wf) h (fun _ _ _ hx => Memory.wf_write hx _ _)

theorem wf_strEncWalk {src dst wf hf frames : Nat} {m : Memory} (h : m.wf) : (strEncWalk src dst wf hf frames m).wf := by
  rw [strEncWalk, forFrames_eq]
  exact forRange_keeps (fun m : Memory => m.wf) h (fun _ _ _ hx => Memory.wf_write hx _ _)

theorem wf_decodeFrames {src dst pal wf hf frames : Nat} {m : Memory} (h : m.wf) :
    (decodeFrames src dst pal wf hf frames m).wf := by
  rw [decodeFrames, forFrames_eq]
  exact forRange_keeps (fun m : Memory => m.wf) h (fun _ _ _ hx => wf_writeColour hx)

theorem wf_resolveWalk {src dst cells pal : Nat} {m : Memory} (h : m.wf) : (resolveWalk src dst cells pal m).wf :=
  forRange_keeps (fun m : Memory => m.wf) h (fun _ _ _ hx => wf_writeColour hx)

/-! ### The walks stay below the end of their destination -/

theorem below_seqEncWalk {src dst n frames b : Nat} {m : Memory} (hF : 0 < frames) (hd : frames ∣ n) (h : m.below b)
    (hb : dst + n ≤ b) : (seqEncWalk src dst n frames m).1.below b := by
  obtain ⟨cells, rfl⟩ := hd
  rcases Nat.eq_zero_or_pos cells with rfl | hM
  · exact h
  · rw [seqEncWalk_eq hF hM]
    refine forRange_keeps (fun m : Memory => m.below b) h (fun i hi m hx => Memory.below_write hx ?_ _)
    have h1 := mul_add_lt (Nat.mod_lt i hM) (show i / cells < frames from div_lt_of_lt_mul' hi)
    have h2 := Nat.mul_comm cells frames
    omega

theorem below_strEncWalk {src dst wf hf frames b : Nat} {m : Memory} (h : m.below b)
    (hb : dst + hf * wf * frames ≤ b) : (strEncWalk src dst wf hf frames m).below b := by
  rw [strEncWalk, forFrames_eq]
  refine forRange_keeps (fun m : Memory => m.below b) h (fun i hi m hx => Memory.below_write hx ?_ _)
  have h1 := Nat.div_add_mod' (i / frames) wf
  have h2 := Nat.div_add_mod' i frames
  simp only [interleavedFlat, h1, h2]
  omega

theorem below_decodeFrames {src dst pal wf hf frames b : Nat} {m : Memory} (h : m.below b)
    (hb : dst + 4 * (frames * hf * wf) ≤ b) : (decodeFrames src dst pal wf hf frames m).below b := by
  rw [decodeFrames, forFrames_eq]
  refine forRange_keeps (fun m : Memory => m.below b) h (fun i hi m hx => below_writeColour hx ?_)
  have hF : 0 < frames := Nat.pos_of_ne_zero (fun h0 => by simp [h0] at hi)
  have hg : i / frames < hf * wf := div_lt_of_lt_mul' hi
  have hW : 0 < wf := Nat.pos_of_ne_zero (fun h0 => by simp [h0] at hg)
  have h1 := mul_add_lt (mul_add_lt (Nat.mod_lt i hF) (div_lt_of_lt_mul' hg)) (Nat.mod_lt (i / frames) hW)
  simp only [stripFlat]
  omega

theorem below_resolveWalk {src dst cells pal b : Nat} {m : Memory} (h : m.below b) (hb : dst + 4 * cells ≤ b) :
    (resolveWalk src dst cells pal m).below b :=
  forRange_keeps (fun m : Memory => m.below b) h (fun i hi m hx => below_writeColour hx (by omega))

end Sys2Proof.Machine
end

