-- ==== Sys2Proof/Laws/Dither.lean ====
section
/-! SUPPORT. What DIFFUSE's loops leave in memory (spec/41_dither.md): the closed form of the error diffusion. -/

namespace Sys2Proof.Machine

open Sys2Proof

/-! ### One sample -/

theorem ditherValue_eq (v p : Nat) : ditherValue v p = min (v + p / 16) 65535 := by simp [ditherValue]

theorem ditherOut_eq (t : Nat) : ditherOut t = t / 256 := by simp [ditherOut, Nat.shiftRight_eq_div_pow]

/-- The residual is the clamped value's low 8 bits (41_dither.md R122). -/
theorem ditherResidual_eq (t : Nat) : ditherResidual t = t % 256 := by
  rw [ditherResidual, ditherOut_eq, Nat.shiftLeft_eq]
  omega

/-- "Every residual r lies in 0 to 255" (41_dither.md R126). -/
theorem ditherResidual_le (t : Nat) : ditherResidual t ≤ 255 := by
  rw [ditherResidual_eq]
  omega

/-! ### Rows and channels -/

@[simp] theorem Accum.get_set (a : Accum) (c d : Chan) (r : ChanRows) :
    (a.set c r).get d = if d = c then r else a.get d := by
  cases c <;> cases d <;> rfl

@[simp] theorem Accum.get_endRow (a : Accum) (w : Nat) (c : Chan) : (a.endRow w).get c = (a.get c).endRow w := by
  cases c <;> rfl

@[simp] theorem Accum.get_zeroFirst (a : Accum) (w : Nat) (c : Chan) :
    (a.zeroFirst w).get c = (a.get c).zeroFirst w := by
  cases c <;> rfl

@[simp] theorem Row.length_add (r : Row) (j d : Nat) : (r.add j d).cells.length = r.cells.length := by
  simp [Row.add]

/-- One cell takes the addend, the others keep their values. -/
theorem Row.cell_add {r : Row} {j d : Nat} (h : j < r.cells.length) (i : Nat) :
    (r.add j d).cell i = r.cell i + if i = j then d else 0 := by
  simp only [Row.cell, Row.add, List.getD_eq_getElem?_getD, List.getElem?_modify]
  by_cases hij : j = i
  · subst hij
    simp [List.getElem?_eq_getElem h]
  · simp [hij, Ne.symm hij]

@[simp] theorem ChanRows.zeroFirst_cur (r : ChanRows) (w : Nat) : (r.zeroFirst w).cur = r.cur.zeroFirst w := rfl
@[simp] theorem ChanRows.zeroFirst_nxt (r : ChanRows) (w : Nat) : (r.zeroFirst w).nxt = r.nxt.zeroFirst w := rfl

/-- Every cell of the zeroed row is 0, listed or not (41_dither.md R124). -/
@[simp] theorem Row.cell_allZero (w j : Nat) : (Row.allZero w).cell j = 0 := by
  simp only [Row.cell, Row.allZero, RowRest.cell, List.getD_eq_getElem?_getD, List.getElem?_replicate]
  split <;> rfl

@[simp] theorem Row.length_allZero (w : Nat) : (Row.allZero w).cells.length = w + 2 := by simp [Row.allZero]

/-- DIFFUSE's initial zeroing, cell by cell (41_dither.md R121). -/
theorem Row.cell_zeroFirst (r : Row) (w j : Nat) : (r.zeroFirst w).cell j = if j < w + 2 then 0 else r.cell j := by
  simp only [Row.cell, Row.zeroFirst, List.getD_eq_getElem?_getD]
  by_cases hj : j < w + 2
  · simp [hj, List.getElem?_append_left]
  · rw [if_neg hj, List.getElem?_append_right (by simp; omega), List.getElem?_drop, List.length_replicate]
    congr 3
    omega

theorem Row.length_zeroFirst (r : Row) (w : Nat) : w + 2 ≤ (r.zeroFirst w).cells.length := by
  simp [Row.zeroFirst]

/-- A row has DW_MAX + 2 cells (10_state.md R38). -/
@[simp] theorem Row.length_values (r : Row) (c : Config) : (r.values c).length = c.dwMax + 2 := by
  simp [Row.values, Config.rowCells]

theorem Chan.index_lt (c : Chan) : c.index < 4 := by cases c <;> decide

theorem Chan.index_inj {c d : Chan} (h : c.index = d.index) : c = d := by
  cases c <;> cases d <;> first | rfl | (simp [Chan.index] at h)

theorem narrowAddr_inj {dst n k : Nat} {c d : Chan} : narrowAddr dst n c = narrowAddr dst k d ↔ n = k ∧ c = d := by
  have hc := c.index_lt
  have hd := d.index_lt
  unfold narrowAddr
  constructor
  · intro h
    exact ⟨by omega, Chan.index_inj (by omega)⟩
  · rintro ⟨rfl, rfl⟩
    rfl

/-! ### The error diffusion as a function of the samples -/

/-- The error row y − 1 sends to column x of the next row: 3 from the right neighbour, 5 from above, 1 from the left
(41_dither.md R123); what leaves the image is dropped (R125). -/
def errorFromAbove (width : Nat) (r : Nat → Nat) (x : Nat) : Nat :=
  3 * (if x + 1 < width then r (x + 1) else 0) + 5 * r x + (if 0 < x then r (x - 1) else 0)

/-- The residuals of one row, left to right, from the error `up` the row above sent. -/
def rowResidual (up v : Nat → Nat) : Nat → Nat
  | 0 => ditherResidual (ditherValue (v 0) (up 0))
  | x + 1 => ditherResidual (ditherValue (v (x + 1)) (up (x + 1) + 7 * rowResidual up v x))

/-- The residual of pixel (x, y) of one channel with samples `v y x`. -/
def residual (width : Nat) (v : Nat → Nat → Nat) : Nat → Nat → Nat
  | 0 => rowResidual (fun _ => 0) (v 0)
  | y + 1 => rowResidual (errorFromAbove width (residual width v y)) (v (y + 1))

/-- The error that waits at pixel (x, y) from the row above. -/
def pendingAbove (width : Nat) (v : Nat → Nat → Nat) : Nat → Nat → Nat
  | 0 => fun _ => 0
  | y + 1 => errorFromAbove width (residual width v y)

/-- The whole error that waits at pixel (x, y). -/
def pending (width : Nat) (v : Nat → Nat → Nat) (y x : Nat) : Nat :=
  pendingAbove width v y x + if 0 < x then 7 * residual width v y (x - 1) else 0

/-- The clamped value of pixel (x, y). -/
def clamped (width : Nat) (v : Nat → Nat → Nat) (y x : Nat) : Nat := ditherValue (v y x) (pending width v y x)

theorem residual_eq (width : Nat) (v : Nat → Nat → Nat) (y x : Nat) :
    residual width v y x = ditherResidual (clamped width v y x) := by
  have h : ∀ up vv : Nat → Nat, ∀ x, rowResidual up vv x =
      ditherResidual (ditherValue (vv x) (up x + if 0 < x then 7 * rowResidual up vv (x - 1) else 0)) := by
    intro up vv x
    cases x <;> simp [rowResidual]
  cases y <;> simp only [residual, clamped, pending, pendingAbove] <;> exact h _ _ x

/-! ### One pixel -/

/-- One pixel of four channels: each channel's output byte is written, each channel's rows take its residual, and no
other byte changes (41_dither.md R121, R120). -/
theorem ditherPixel_spec {src dst width x y cells : Nat} {m : Memory} {a : Accum}
    (hn : flat width x y < cells) (hsd : src + 8 * cells ≤ dst ∨ dst + 4 * cells ≤ src) :
    let n := flat width x y
    let t := fun c => ditherValue (wideSample m src n c) ((a.get c).cur.cell (x + 1))
    let st := forChannels (ditherSample src dst width x y) (m, a)
    (∀ c, st.2.get c = (a.get c).distribute x (ditherResidual (t c))) ∧
      (∀ c, st.1.read (narrowAddr dst n c) = BitVec.ofNat 8 (ditherOut (t c))) ∧
      ∀ b, (∀ c, b ≠ narrowAddr dst n c) → st.1.read b = m.read b := by
  intro n t st
  have hkeep : ∀ (m' : Memory) (c d : Chan) (v : Byte),
      wideSample (m'.write (narrowAddr dst n c) v) src n d = wideSample m' src n d := by
    intro m' c d v
    have h1 := c.index_lt
    have h2 := d.index_lt
    have h3 : n < cells := hn
    unfold wideSample wideAddr narrowAddr
    rw [Memory.read_write_other _ _ (by omega), Memory.read_write_other _ _ (by omega)]
  have hst : st =
      ((((m.write (narrowAddr dst n .red) (BitVec.ofNat 8 (ditherOut (t .red)))).write (narrowAddr dst n .green)
        (BitVec.ofNat 8 (ditherOut (t .green)))).write (narrowAddr dst n .blue)
        (BitVec.ofNat 8 (ditherOut (t .blue)))).write (narrowAddr dst n .alpha)
        (BitVec.ofNat 8 (ditherOut (t .alpha))),
      (((a.set .red ((a.get .red).distribute x (ditherResidual (t .red)))).set .green
        ((a.get .green).distribute x (ditherResidual (t .green)))).set .blue
        ((a.get .blue).distribute x (ditherResidual (t .blue)))).set .alpha
        ((a.get .alpha).distribute x (ditherResidual (t .alpha)))) := by
    show forChannels (ditherSample src dst width x y) (m, a) = _
    unfold forChannels ditherSample
    have e : flat width x y = n := rfl
    simp only [Accum.get_set, reduceCtorEq, if_false, e, hkeep]
    rfl
  rw [hst]
  refine ⟨fun c => ?_, fun c => ?_, fun b hb => ?_⟩
  · cases c <;> simp
  · cases c <;> simp [Memory.read_write, narrowAddr_inj]
  · have h1 := hb .red
    have h2 := hb .green
    have h3 := hb .blue
    have h4 := hb .alpha
    simp [Memory.read_write, h1, h2, h3, h4]

/-! ### The image -/

/-- The samples of channel c of the wide buffer at `src`. -/
def samples (m : Memory) (src width : Nat) (c : Chan) (y x : Nat) : Nat := wideSample m src (flat width x y) c

/-- What holds before pixel (x, y) of the walk. -/
structure DitherInv (src dst width cells : Nat) (m : Memory) (y x : Nat) (st : Memory × Accum) : Prop where
  outside : ∀ b, (b < dst ∨ dst + 4 * cells ≤ b) → st.1.read b = m.read b
  out : ∀ y' x', x' < width → (y' < y ∨ (y' = y ∧ x' < x)) → ∀ c,
    st.1.read (narrowAddr dst (flat width x' y') c) =
      BitVec.ofNat 8 (ditherOut (clamped width (samples m src width c) y' x'))
  lenCur : ∀ c, width + 2 ≤ (st.2.get c).cur.cells.length
  lenNxt : ∀ c, width + 2 ≤ (st.2.get c).nxt.cells.length
  cur : ∀ c j, x + 1 ≤ j → j ≤ width → (st.2.get c).cur.cell j =
    pendingAbove width (samples m src width c) y (j - 1) +
      if j = x + 1 ∧ 0 < x then 7 * residual width (samples m src width c) y (x - 1) else 0
  nxt : ∀ c j, 1 ≤ j → j ≤ width → (st.2.get c).nxt.cell j =
    3 * (if j < x then residual width (samples m src width c) y j else 0) +
      5 * (if j - 1 < x then residual width (samples m src width c) y (j - 1) else 0) +
      (if 2 ≤ j ∧ j - 2 < x then residual width (samples m src width c) y (j - 2) else 0)

theorem flat_lt {width height x y : Nat} (hx : x < width) (hy : y < height) : flat width x y < width * height := by
  have := mul_add_lt hy hx
  rwa [Nat.mul_comm height width] at this

theorem flat_inj {width x y x' y' : Nat} (hx : x < width) (hx' : x' < width) (h : flat width x y = flat width x' y') :
    x = x' ∧ y = y' := by
  have h1 : flat width x y % width = x := mul_add_mod_right _ hx
  have h2 : flat width x' y' % width = x' := mul_add_mod_right _ hx'
  have h3 : flat width x y / width = y := mul_add_div_right _ hx
  have h4 : flat width x' y' / width = y' := mul_add_div_right _ hx'
  rw [h] at h1 h3
  exact ⟨h1.symm.trans h2, h3.symm.trans h4⟩

theorem DitherInv.pixel {src dst width height y x : Nat} {m : Memory} {st : Memory × Accum}
    (hsd : src + 8 * (width * height) ≤ dst ∨ dst + 4 * (width * height) ≤ src) (hx : x < width) (hy : y < height)
    (h : DitherInv src dst width (width * height) m y x st) :
    DitherInv src dst width (width * height) m y (x + 1) (forChannels (ditherSample src dst width x y) st) := by
  obtain ⟨m', a⟩ := st
  have hn := flat_lt hx hy
  obtain ⟨hrows, hpix, hother⟩ := ditherPixel_spec (m := m') (a := a) hn hsd
  have hsample : ∀ c, wideSample m' src (flat width x y) c = samples m src width c y x := by
    intro c
    have hc := c.index_lt
    have e1 := h.outside (wideAddr src (flat width x y) c) (by unfold wideAddr; omega)
    have e2 := h.outside (wideAddr src (flat width x y) c + 1) (by unfold wideAddr; omega)
    simp only [samples, wideSample]
    simp only at e1 e2
    rw [e1, e2]
  have ht : ∀ c, ditherValue (wideSample m' src (flat width x y) c) ((a.get c).cur.cell (x + 1)) =
      clamped width (samples m src width c) y x := by
    intro c
    have e := h.cur c (x + 1) (Nat.le_refl _) (by omega)
    simp only [Nat.add_sub_cancel, true_and] at e
    rw [hsample, e]
    rfl
  simp only [ht] at hrows hpix
  simp only [← residual_eq] at hrows
  have lc := h.lenCur
  have ln := h.lenNxt
  simp only at lc ln
  refine ⟨fun b hb => ?_, fun y' x' hx' hlt c => ?_, fun c => ?_, fun c => ?_, fun c j h1 h2 => ?_, fun c j h1 h2 => ?_⟩
  · rw [hother b (fun c => by have := c.index_lt; unfold narrowAddr; omega)]
    exact h.outside b hb
  · by_cases he : y' = y ∧ x' = x
    · obtain ⟨rfl, rfl⟩ := he
      exact hpix c
    · rw [hother _ (fun d => ?_)]
      · exact h.out y' x' hx' (by omega) c
      · intro heq
        have := flat_inj hx' hx (narrowAddr_inj.1 heq).1
        exact he ⟨this.2, this.1⟩
  · rw [hrows]
    simp [ChanRows.distribute, lc]
  · rw [hrows]
    simp [ChanRows.distribute, ln]
  · rw [hrows]
    simp only [ChanRows.distribute]
    rw [Row.cell_add (by have := lc c; omega), h.cur c j (by omega) h2]
    rw [if_neg (by omega), Nat.add_zero]
    congr 1
    by_cases hj : j = x + 2
    · rw [if_pos hj, if_pos (by omega)]
      simp
    · rw [if_neg hj, if_neg (by omega)]
  · rw [hrows]
    simp only [ChanRows.distribute]
    have hl := ln c
    rw [Row.cell_add (by simp only [Row.length_add]; omega), Row.cell_add (by simp only [Row.length_add]; omega),
      Row.cell_add (by omega), h.nxt c j h1 h2]
    generalize residual width (samples m src width c) y = r
    have a1 : (if j < x + 1 then r j else 0) = (if j < x then r j else 0) + if j = x then r x else 0 := by
      split_ifs <;> first | omega | simp_all
    have a2 : (if j - 1 < x + 1 then r (j - 1) else 0) =
        (if j - 1 < x then r (j - 1) else 0) + if j = x + 1 then r x else 0 := by
      split_ifs <;> first | omega | simp_all
    have a3 : (if 2 ≤ j ∧ j - 2 < x + 1 then r (j - 2) else 0) =
        (if 2 ≤ j ∧ j - 2 < x then r (j - 2) else 0) + if j = x + 2 then r x else 0 := by
      split_ifs <;> first | omega | simp_all
    have b1 : ∀ (p : Prop) [Decidable p] (k : Nat), (if p then k * r x else 0) = k * if p then r x else 0 := by
      intro p _ k
      split <;> simp
    rw [a1, a2, a3, b1, b1, b1]
    omega

theorem DitherInv.nextRow {src dst width cells y : Nat} {m : Memory} {st : Memory × Accum}
    (h : DitherInv src dst width cells m y width st) :
    DitherInv src dst width cells m (y + 1) 0 (st.1, st.2.endRow width) := by
  refine ⟨h.outside, fun y' x' hx' hlt c => h.out y' x' hx' (by omega) c, fun c => ?_, fun c => ?_,
    fun c j h1 h2 => ?_, fun c j h1 h2 => ?_⟩
  · simpa [ChanRows.endRow] using h.lenNxt c
  · simp [ChanRows.endRow]
  · simp only [Accum.get_endRow, ChanRows.endRow]
    rw [h.nxt c j (by omega) h2, if_neg (show ¬(j = 0 + 1 ∧ 0 < 0) by omega)]
    simp only [pendingAbove, errorFromAbove]
    rw [if_pos (show j - 1 < width by omega), show j - 1 + 1 = j by omega, show j - 1 - 1 = j - 2 by omega]
    by_cases hj : 2 ≤ j
    · rw [if_pos (show 2 ≤ j ∧ j - 2 < width by omega), if_pos (show 0 < j - 1 by omega), Nat.add_zero]
    · rw [if_neg (show ¬(2 ≤ j ∧ j - 2 < width) by omega), if_neg (show ¬0 < j - 1 by omega), Nat.add_zero]
  · simp only [Accum.get_endRow, ChanRows.endRow]
    rw [Row.cell_allZero]
    simp

/-- DIFFUSE's memory, seen pixel by pixel (41_dither.md R120 to R126). -/
theorem read_ditherImage {src dst width height : Nat} {m : Memory} {a : Accum}
    (hsd : src + 8 * (width * height) ≤ dst ∨ dst + 4 * (width * height) ≤ src) :
    (∀ y < height, ∀ x < width, ∀ c, (ditherImage src dst width height m a).1.read (narrowAddr dst (flat width x y) c) =
        BitVec.ofNat 8 (ditherOut (clamped width (samples m src width c) y x))) ∧
      ∀ b, (b < dst ∨ dst + 4 * (width * height) ≤ b) →
        (ditherImage src dst width height m a).1.read b = m.read b := by
  have h := forRange_induct (n := height) (f := ditherRow src dst width) (a := (m, a.zeroFirst width))
    (fun y st => DitherInv src dst width (width * height) m y 0 st)
    ⟨fun _ _ => rfl, fun y' x' _ hlt => absurd hlt (by omega),
      fun c => by simpa using Row.length_zeroFirst (a.get c).cur width,
      fun c => by simpa using Row.length_zeroFirst (a.get c).nxt width,
      fun c j h1 h2 => by simp [Row.cell_zeroFirst, pendingAbove, show j < width + 2 by omega],
      fun c j h1 h2 => by simp [Row.cell_zeroFirst, show j < width + 2 by omega]⟩
    (fun y hy st hst => by
      have hrow := forRange_induct (n := width) (f := fun x st => forChannels (ditherSample src dst width x y) st)
        (a := st) (fun x st => DitherInv src dst width (width * height) m y x st) hst
        (fun x hx st hst => hst.pixel hsd hx hy)
      exact hrow.nextRow)
  exact ⟨fun y hy x hx c => h.out y x hx (.inl hy) c, h.outside⟩

/-! ### The rows a DIFFUSE leaves -/

/-- What x pixels of a row can have added to cell j of the next row at most: 255 times the weights (41_dither.md R123, R126). -/
def nextBound (x j : Nat) : Nat :=
  255 * ((if j < x then 3 else 0) + (if 1 ≤ j ∧ j - 1 < x then 5 else 0) + if 2 ≤ j ∧ j - 2 < x then 1 else 0)

/-- A channel's rows after x pixels of a row: the next row's first W + 2 cells stay within the bound, its others are as
`rest` gives them. -/
structure RowsInv (width x : Nat) (rest : Nat → Nat) (r : ChanRows) : Prop where
  lenCur : width + 2 ≤ r.cur.cells.length
  lenNxt : width + 2 ≤ r.nxt.cells.length
  used : ∀ j < width + 2, r.nxt.cell j ≤ nextBound x j
  rest : ∀ j, width + 2 ≤ j → r.nxt.cell j = rest j

theorem RowsInv.distribute {width x : Nat} {rest : Nat → Nat} {r : ChanRows} (h : RowsInv width x rest r) (hx : x < width)
    {e : Nat} (he : e ≤ 255) : RowsInv width (x + 1) rest (r.distribute x e) := by
  have hl := h.lenNxt
  have hc : ∀ j, (r.distribute x e).nxt.cell j = r.nxt.cell j + (if j = x then 3 * e else 0) +
      (if j = x + 1 then 5 * e else 0) + if j = x + 2 then 1 * e else 0 := by
    intro j
    simp only [ChanRows.distribute]
    rw [Row.cell_add (by simp [Row.add]; omega), Row.cell_add (by simp [Row.add]; omega), Row.cell_add (by omega)]
  refine ⟨by simpa [ChanRows.distribute, Row.add] using h.lenCur, by simpa [ChanRows.distribute, Row.add] using hl,
    fun j hj => ?_, fun j hj => ?_⟩
  · have hu := h.used j hj
    rw [hc]
    unfold nextBound at *
    by_cases h1 : j = x
    · subst h1; simp at *; split at hu <;> split at hu <;> simp_all <;> omega
    · by_cases h2 : j = x + 1
      · subst h2; simp at *; split at hu <;> simp_all <;> omega
      · by_cases h3 : j = x + 2
        · subst h3; simp at *; omega
        · rw [if_neg h1, if_neg h2, if_neg h3]
          simp only [show (j < x + 1) = (j < x) by simp; omega,
            show (1 ≤ j ∧ j - 1 < x + 1) = (1 ≤ j ∧ j - 1 < x) by simp; omega,
            show (2 ≤ j ∧ j - 2 < x + 1) = (2 ≤ j ∧ j - 2 < x) by simp; omega]
          omega
  · rw [hc, if_neg (by omega), if_neg (by omega), if_neg (by omega)]
    exact h.rest j hj

theorem RowsInv.pixel {src dst width x y : Nat} {rest : Chan → Nat → Nat} {st : Memory × Accum}
    (h : ∀ c, RowsInv width x (rest c) (st.2.get c)) (hx : x < width) (c : Chan) :
    RowsInv width (x + 1) (rest c) ((forChannels (ditherSample src dst width x y) st).2.get c) := by
  have he := ditherResidual_le
  cases c <;> simp [forChannels, ditherSample, Accum.get_set] <;> exact (h _).distribute hx (he _)

theorem RowsInv.row {src dst width y : Nat} {rest : Chan → Nat → Nat} {st : Memory × Accum}
    (h : ∀ c, RowsInv width 0 (rest c) (st.2.get c)) (c : Chan) :
    (∀ j < width + 2, ((ditherRow src dst width y st).2.get c).cur.cell j ≤ nextBound width j) ∧
      (∀ j, width + 2 ≤ j → ((ditherRow src dst width y st).2.get c).cur.cell j = rest c j) ∧
      ((ditherRow src dst width y st).2.get c).nxt = Row.allZero width ∧
      width + 2 ≤ ((ditherRow src dst width y st).2.get c).cur.cells.length := by
  have hr := forRange_induct (n := width) (f := fun x st => forChannels (ditherSample src dst width x y) st) (a := st)
    (fun x st => ∀ c, RowsInv width x (rest c) (st.2.get c)) h (fun x hx st hst c => RowsInv.pixel hst hx c) c
  simp only [ditherRow, Accum.get_endRow, ChanRows.endRow]
  exact ⟨hr.used, hr.rest, trivial, hr.lenNxt⟩

/-- The accumulator rows after DIFFUSE: the next row is 0 everywhere, the current row's first W + 2 cells stay within the bound,
and its others are 0, or with one row of pixels those that the next row held (41_dither.md R121, R124). -/
theorem rows_ditherImage {src dst width height : Nat} {m : Memory} {a : Accum} (hh : height ≠ 0) (c : Chan) :
    let r := (ditherImage src dst width height m a).2.get c
    r.nxt = Row.allZero width ∧ (∀ j < width + 2, r.cur.cell j ≤ nextBound width j) ∧
      ∀ j, width + 2 ≤ j → r.cur.cell j = if height = 1 then (a.get c).nxt.cell j else 0 := by
  have h := forRange_induct (n := height) (f := ditherRow src dst width) (a := (m, a.zeroFirst width))
    (fun y st => (∀ c, RowsInv width 0 (fun j => if y = 0 then (a.get c).nxt.cell j else 0) (st.2.get c)) ∧
      (y ≠ 0 → ∀ c, (st.2.get c).nxt = Row.allZero width ∧
        (∀ j < width + 2, (st.2.get c).cur.cell j ≤ nextBound width j) ∧
        ∀ j, width + 2 ≤ j → (st.2.get c).cur.cell j = if y = 1 then (a.get c).nxt.cell j else 0))
    ⟨fun c => ⟨by simpa using Row.length_zeroFirst (a.get c).cur width,
      by simpa using Row.length_zeroFirst (a.get c).nxt width, fun j hj => by simp [Row.cell_zeroFirst, hj],
      fun j hj => by simp [Row.cell_zeroFirst]; omega⟩, fun h => absurd rfl h⟩
    (fun y hy st hst => by
      have hrow := fun c => RowsInv.row (src := src) (dst := dst) (y := y) hst.1 c
      refine ⟨fun c => ?_, fun _ c => ⟨(hrow c).2.2.1, (hrow c).1, fun j hj => ?_⟩⟩
      · obtain ⟨h1, h2, h3, h4⟩ := hrow c
        refine ⟨h4, by rw [h3]; simp [Row.allZero], fun j _ => ?_, fun j _ => ?_⟩
        · rw [h3]; simp
        · rw [h3]; simp
      · rw [(hrow c).2.1 j hj]; simp)
  exact h.2 hh c

theorem nextBound_le (x j : Nat) : nextBound x j ≤ 2295 := by
  unfold nextBound
  split <;> split <;> split <;> omega

/-! ### Memory's form -/

theorem wf_ditherImage {src dst width height : Nat} {m : Memory} {a : Accum} (h : m.wf) :
    (ditherImage src dst width height m a).1.wf := by
  refine forRange_keeps (fun st : Memory × Accum => st.1.wf) h (fun y _ st hst => ?_)
  refine forRange_keeps (fun st : Memory × Accum => st.1.wf) hst (fun x _ st hst => ?_)
  exact Memory.wf_write (Memory.wf_write (Memory.wf_write (Memory.wf_write hst _ _) _ _) _ _) _ _

theorem below_ditherImage {src dst width height b : Nat} {m : Memory} {a : Accum} (h : m.below b)
    (hb : dst + 4 * (width * height) ≤ b) : (ditherImage src dst width height m a).1.below b := by
  refine forRange_keeps (fun st : Memory × Accum => st.1.below b) h (fun y hy st hst => ?_)
  refine forRange_keeps (fun st : Memory × Accum => st.1.below b) hst (fun x hx st hst => ?_)
  have hn := flat_lt hx hy
  refine Memory.below_write (Memory.below_write (Memory.below_write (Memory.below_write hst ?_ _) ?_ _) ?_ _) ?_ _ <;>
    simp only [narrowAddr, Chan.index] <;> omega

end Sys2Proof.Machine
end

