-- ==== Sys2Proof/Laws/Step.lean ====
section
/-! SUPPORT. What one command, one engine move and one step can do: the inversion lemmas that proofs about every step
cite. -/

namespace Sys2Proof.Machine

open Sys2Proof

/-! ### One command -/

/-- The effect of a command whose checks have passed. -/
def effectOf (i : Instr) (s : State) : State :=
  match i with
  | .endList => { s with phase := .idle, done := true }
  | .diffuse src dst width height => diffuseEffect src dst width height s
  | .seqEnc src dst width height fcount => seqEncEffect src dst width height fcount s
  | .seqDec src dst width height fcount pal _ => seqDecEffect src dst width height fcount pal s
  | .strEnc src dst width height fcount => strEncEffect src dst width height fcount s
  | .strDec src dst width height fwidth fheight pal _ => strDecEffect src dst width height fwidth fheight pal s
  | .resolve src dst width height pal _ => resolveEffect src dst width height pal s
  | .raster src dst width height rwidth => rasterEffect src dst width height rwidth s
  | .wsearch src fcount fwidth fheight pal palLen scratch _ log _ =>
    wsearchEffect src fcount fwidth fheight pal palLen scratch log s

/-- Every command is its checks, then its effect (40_control.md R102). -/
theorem exec_eq (i : Instr) (s : State) : exec i s = s.validated (checkOf i s) (effectOf i s) := by
  cases i <;> rfl

/-- A command answers a next state: the error of its first failing check, or its effect. -/
theorem exec_cases (i : Instr) (s : State) :
    (∃ e, checkOf i s = some e ∧ exec i s = .next (s.raiseError e)) ∨
      (checkOf i s = none ∧ exec i s = .next (effectOf i s)) := by
  rw [exec_eq]
  exact s.validated_cases _ _

/-- The effect of a command that neither ends the run nor searches is a completion over a new memory, new accumulators
and a new cursor (40_control.md R103). -/
theorem effectOf_complete (i : Instr) (s : State) (h1 : i ≠ .endList)
    (h2 : ∀ a b c d e f g h k l, i ≠ .wsearch a b c d e f g h k l) :
    ∃ m acc cursor w h waste,
      effectOf i s = State.complete { s with mem := m, acc := acc, cursor := cursor } w h waste ∧
        (s.mem.wf → m.wf) := by
  cases i with
  | endList => exact absurd rfl h1
  | diffuse src dst width height => exact ⟨_, _, s.cursor, _, _, _, rfl, wf_ditherImage⟩
  | seqEnc src dst width height fcount => exact ⟨_, s.acc, _, _, _, _, rfl, wf_seqEncWalk⟩
  | seqDec src dst width height fcount pal palLen => exact ⟨_, s.acc, s.cursor, _, _, _, rfl, wf_decodeFrames⟩
  | strEnc src dst width height fcount => exact ⟨_, s.acc, s.cursor, _, _, _, rfl, wf_strEncWalk⟩
  | strDec src dst width height fwidth fheight pal palLen =>
    exact ⟨_, s.acc, s.cursor, _, _, _, rfl, wf_decodeFrames⟩
  | resolve src dst width height pal palLen => exact ⟨_, s.acc, s.cursor, _, _, _, rfl, wf_resolveWalk⟩
  | raster src dst width height rwidth => exact ⟨_, s.acc, s.cursor, _, _, _, rfl, wf_writeRaster⟩
  | wsearch a b c d e f g h k l => exact absurd rfl (h2 a b c d e f g h k l)

/-! ### One engine move -/

/-- What a fetched descriptor can do: a decode error, or its command at the state that has claimed its regions. -/
theorem runDescriptor_next {d : Descriptor} {s t : State} (h : runDescriptor d s = .next t) :
    (∃ e, decode d = .error e ∧ t = s.raiseError (decodeErr e)) ∨
      (∃ i, decode d = .ok i ∧ s.trespass (reads i ++ writes i) = none ∧ exec i (s.claim i) = .next t) := by
  unfold runDescriptor at h
  split at h
  · next e he =>
    cases h
    exact .inl ⟨e, he, rfl⟩
  · next i hi =>
    split at h
    · cases h
    · next hn => exact .inr ⟨i, hi, hn, h⟩

/-- What FETCH and the command after it can do (40_control.md R101). -/
theorem fetchAndRun_next {s t : State} (h : fetchAndRun s = .next t) :
    (∃ e, s.fetchCheck = some e ∧ t = s.raiseError e) ∨
      (s.fetchCheck = none ∧ s.trespass [s.descRegion] = none ∧ runDescriptor s.fetchWords s.fetched = .next t) := by
  unfold fetchAndRun at h
  split at h
  · next e he =>
    cases h
    exact .inl ⟨e, he, rfl⟩
  · next hc =>
    split at h
    · cases h
    · next hn => exact .inr ⟨hc, hn, h⟩

theorem fetchCheck_eq_none {s : State} : s.fetchCheck = none ↔ s.cmdPtr % 4 = 0 ∧ s.cmdPtr + 64 ≤ s.cfg.memSize := by
  simp [State.fetchCheck, firstError_eq_none]

/-- What an engine move can do, phase by phase (10_state.md R42). -/
theorem engineStep_next {s t : State} (h : engineStep s = .next t) :
    (s.phase = .idle ∧ t = s) ∨ (s.phase = .fetch ∧ fetchAndRun s = .next t) ∨
      (∃ d, s.phase = .validate d ∧ runDescriptor d s = .next t) ∨
      (∃ c, s.phase = .execute c ∧ t = awaitReply c s) := by
  unfold engineStep at h
  split at h
  · next hp => exact .inl ⟨hp, by cases h; rfl⟩
  · next hp => exact .inr (.inl ⟨hp, h⟩)
  · next d hp => exact .inr (.inr (.inl ⟨d, hp, h⟩))
  · next c hp => exact .inr (.inr (.inr ⟨c, hp, by cases h; rfl⟩))

/-- What the wait does: nothing without an answer, the rest of the search with one (43_optimizer.md R178). -/
theorem awaitReply_cases (c : Search) (s : State) :
    (s.replies = [] ∧ awaitReply c s = s) ∨
      (∃ r rs, s.replies = r :: rs ∧ awaitReply c s = resumeSearch c r { s with replies := rs }) := by
  unfold awaitReply
  split
  · next h => exact .inl ⟨h, rfl⟩
  · next r rs h => exact .inr ⟨r, rs, h, rfl⟩

/-- A step is the engine's move where no input stands, and the input's effect otherwise. -/
theorem step_cases (s : State) :
    (s.inputs = [] ∧ step s = engineStep s) ∨
      (∃ e rest, s.inputs = e :: rest ∧ step s = handle e { s with inputs := rest }) := by
  unfold step
  split
  · next h => exact .inl ⟨h, rfl⟩
  · next e rest h => exact .inr ⟨e, rest, h, rfl⟩

/-! ### How a move ends -/

/-- A failing check's error is never code 0x00 (60_exceptions.md R200). -/
theorem firstError_code {cs : List (Option Err)} {e : Err} (h : firstError cs = some e)
    (hc : ∀ c ∈ cs, ∀ e, c = some e → e.code ≠ .noError) : e.code ≠ .noError := by
  induction cs with
  | nil => cases h
  | cons c cs ih =>
    cases c with
    | some x =>
      cases h
      exact hc _ List.mem_cons_self _ rfl
    | none => exact ih h (fun c hm => hc c (List.mem_cons_of_mem _ hm))

theorem failIf_code {b : Bool} {c : ErrCode} {i : Nat} (hc : c ≠ .noError) (e : Err) (h : failIf b c i = some e) :
    e.code ≠ .noError := by
  cases b
  · cases h
  · cases h
    exact hc

theorem indexScan_code {m : Memory} {src n palLen : Nat} (e : Err) (h : indexScan m src n palLen = some e) :
    e.code ≠ .noError := by
  rw [(indexScan_eq_some.1 h).1]
  decide

theorem checkOf_code {i : Instr} {s : State} {e : Err} (h : checkOf i s = some e) : e.code ≠ .noError := by
  cases i <;> simp only [checkOf, diffuseCheck, encodeCheck, seqDecCheck, strDecCheck, resolveCheck, rasterCheck,
    wsearchCheck, paletteChecks, List.cons_append, List.nil_append] at h
  · cases h
  all_goals
    refine firstError_code h ?_
    simp only [List.mem_cons, List.not_mem_nil, or_false, forall_eq_or_imp, forall_eq]
    repeat' first
      | exact failIf_code (by decide)
      | exact indexScan_code
      | refine ⟨?_, ?_⟩

theorem fetchCheck_code {s : State} {e : Err} (h : s.fetchCheck = some e) : e.code ≠ .noError := by
  refine firstError_code h ?_
  simp only [List.mem_cons, List.not_mem_nil, or_false, forall_eq_or_imp, forall_eq]
  exact ⟨failIf_code (by decide), failIf_code (by decide)⟩

theorem decodeErr_code (e : DecodeError) : (decodeErr e).code ≠ .noError := by
  cases e <;> simp [decodeErr]

/-- The fields no move of the engine touches. -/
structure MoveKeeps (s t : State) : Prop where
  cfg : t.cfg = s.cfg
  irqEn : t.irqEn = s.irqEn
  wz : t.wz = s.wz
  cmdBase : t.cmdBase = s.cmdBase
  wsCap : t.wsCap = s.wsCap
  foreign : t.foreign = s.foreign
  inputs : t.inputs = s.inputs
  hostData : t.hostData = s.hostData
  encData : t.encData = s.encData
  draws : t.draws = s.draws
  unseen : t.unseen = s.unseen

/-- How a move that runs a command, or goes on with one, ends: at END (40_control.md R104), with a completion (R103), with
an error (60_exceptions.md R202), or in a wait (43_optimizer.md R176). -/
inductive MoveEnd (s t : State) : Prop where
  | ends (phase : t.phase = .idle) (done : t.done = true) (same : EndKeeps s t) (mem : t.mem = s.mem)
  | completes (phase : t.phase = .fetch) (done : t.done = s.done) (ptr : t.cmdPtr = s.cmdPtr + 64)
      (count : t.cmdCount = s.cmdCount + 1) (err : t.err = s.err) (code : t.errCode = s.errCode)
      (info : t.errInfo = s.errInfo)
  | fails (phase : t.phase = .idle) (done : t.done = s.done) (ptr : t.cmdPtr = s.cmdPtr)
      (count : t.cmdCount = s.cmdCount) (w : t.resW = s.resW) (h : t.resH = s.resH) (waste : t.resWaste = s.resWaste)
      (err : t.err = true) (code : t.errCode ≠ .noError)
      (only : t.errCode = .encError ∨ t = { s with
        errCode := t.errCode, errInfo := t.errInfo, err := true, phase := .idle, footprint := t.footprint,
        written := t.written })
  | waits (c : Search) (phase : t.phase = .execute c) (done : t.done = s.done) (same : EndKeeps s t)

theorem MoveKeeps.ofSearch {s t : State} (h : SearchKeeps s t) : MoveKeeps s t :=
  ⟨h.cfg, h.irqEn, h.wz, h.cmdBase, h.wsCap, h.foreign, h.inputs, h.hostData, h.encData, h.draws, h.unseen⟩

theorem MoveEnd.ofSearch {s t : State} (h : SearchKeeps s t) (h' : SearchEnd s t) : MoveEnd s t := by
  cases h' with
  | waits c phase same => exact .waits c phase h.done same
  | completes phase ptr count err code info => exact .completes phase h.done ptr count err code info
  | fails phase ptr count w hh waste err code =>
    exact .fails phase h.done ptr count w hh waste err (by rw [code]; decide) (.inl code)

theorem MoveEnd.raise (s : State) (e : Err) (he : e.code ≠ .noError) : MoveEnd s (s.raiseError e) := by
  exact .fails rfl rfl rfl rfl rfl rfl rfl rfl he (.inr rfl)

/-- What one command leaves alone and how it ends. -/
theorem exec_ends {i : Instr} {s t : State} (h : exec i s = .next t) :
    MoveKeeps s t ∧ t.footprint = s.footprint ∧ t.written = s.written ∧ MoveEnd s t := by
  rcases exec_cases i s with ⟨e, hc, he⟩ | ⟨hc, he⟩
  · rw [he] at h
    cases h
    exact ⟨⟨rfl, rfl, rfl, rfl, rfl, rfl, rfl, rfl, rfl, rfl, rfl⟩, rfl, rfl, MoveEnd.raise s e (checkOf_code hc)⟩
  · rw [he] at h
    cases h
    by_cases h1 : i = .endList
    · subst h1
      exact ⟨⟨rfl, rfl, rfl, rfl, rfl, rfl, rfl, rfl, rfl, rfl, rfl⟩, rfl, rfl,
        .ends rfl rfl ⟨rfl, rfl, rfl, rfl, rfl, rfl, rfl, rfl⟩ rfl⟩
    by_cases h2 : ∀ a b c d e f g h k l, i ≠ .wsearch a b c d e f g h k l
    · obtain ⟨m, acc, cursor, w, h, waste, heq, -⟩ := effectOf_complete i s h1 h2
      rw [heq]
      exact ⟨⟨rfl, rfl, rfl, rfl, rfl, rfl, rfl, rfl, rfl, rfl, rfl⟩, rfl, rfl, .completes rfl rfl rfl rfl rfl rfl rfl⟩
    · simp only [not_forall, not_not] at h2
      obtain ⟨src, fcount, fwidth, fheight, pal, palLen, scratch, scrLen, log, logLen, rfl⟩ := h2
      have hs := searchLoop_ends (candCount (fcount * fwidth) s.wsCap.toNat)
        (searchOf src fcount fwidth fheight pal palLen scratch log s.wsCap.toNat) s.clearSearch
      have hk : SearchKeeps s s.clearSearch := ⟨rfl, rfl, rfl, rfl, rfl, rfl, rfl, rfl, rfl, rfl, rfl, rfl, rfl, rfl, rfl, rfl⟩
      have he : EndKeeps s s.clearSearch := ⟨rfl, rfl, rfl, rfl, rfl, rfl, rfl, rfl⟩
      have hk' := hk.trans hs.1
      exact ⟨MoveKeeps.ofSearch hk', hk'.footprint, hk'.written, MoveEnd.ofSearch hk' (hs.2.after he)⟩

/-- Two states that differ only in the phase and the footprint's records, as FETCH and the claim leave them. -/
def SamePlace (s t : State) : Prop := t = { s with phase := t.phase, footprint := t.footprint, written := t.written }

theorem SamePlace.move {s t u : State} (h : SamePlace s t) (h' : MoveKeeps t u ∧ MoveEnd t u) :
    MoveKeeps s u ∧ MoveEnd s u := by
  unfold SamePlace at h
  generalize t.phase = p at h
  generalize t.footprint = fp at h
  generalize t.written = wr at h
  subst h
  obtain ⟨hk, he⟩ := h'
  refine ⟨⟨hk.cfg, hk.irqEn, hk.wz, hk.cmdBase, hk.wsCap, hk.foreign, hk.inputs, hk.hostData, hk.encData, hk.draws, hk.unseen⟩, ?_⟩
  cases he with
  | ends phase done same mem =>
    exact .ends phase done ⟨same.cmdPtr, same.cmdCount, same.resW, same.resH, same.resWaste, same.err, same.errCode,
      same.errInfo⟩ mem
  | completes phase done ptr count err code info => exact .completes phase done ptr count err code info
  | fails phase done ptr count w h waste err code only => exact .fails phase done ptr count w h waste err code only
  | waits c phase done same =>
    exact .waits c phase done ⟨same.cmdPtr, same.cmdCount, same.resW, same.resH, same.resWaste, same.err, same.errCode,
      same.errInfo⟩

theorem SamePlace.trans {s t u : State} (h : SamePlace s t) (h' : SamePlace t u) : SamePlace s u := by
  unfold SamePlace at *
  rw [h', h]

theorem State.raiseError_move (s : State) {e : Err} (he : e.code ≠ .noError) :
    MoveKeeps s (s.raiseError e) ∧ MoveEnd s (s.raiseError e) :=
  ⟨⟨rfl, rfl, rfl, rfl, rfl, rfl, rfl, rfl, rfl, rfl, rfl⟩, MoveEnd.raise s e he⟩

theorem runDescriptor_ends {d : Descriptor} {s t : State} (h : runDescriptor d s = .next t) :
    MoveKeeps s t ∧ MoveEnd s t := by
  rcases runDescriptor_next h with ⟨e, -, rfl⟩ | ⟨i, -, -, h3⟩
  · exact s.raiseError_move (decodeErr_code e)
  · obtain ⟨h4, -, -, h7⟩ := exec_ends h3
    exact SamePlace.move (t := s.claim i) rfl ⟨h4, h7⟩

/-- What one move of a busy engine leaves alone and how it ends; from FETCH it stays busy only if the fetch checks have
passed. -/
theorem engineStep_ends {s t : State} (h : engineStep s = .next t) (hp : s.phase ≠ .idle) :
    MoveKeeps s t ∧ MoveEnd s t ∧
      (s.phase = .fetch → t.phase ≠ .idle → s.cmdPtr % 4 = 0 ∧ s.cmdPtr + 64 ≤ s.cfg.memSize) := by
  rcases engineStep_next h with ⟨h1, -⟩ | ⟨h1, h2⟩ | ⟨d, h1, h2⟩ | ⟨c, h1, h2⟩
  · exact absurd h1 hp
  · rcases fetchAndRun_next h2 with ⟨e, h3, rfl⟩ | ⟨h3, -, h5⟩
    · obtain ⟨h6, h7⟩ := s.raiseError_move (fetchCheck_code h3)
      exact ⟨h6, h7, fun _ hn => absurd rfl hn⟩
    · obtain ⟨h6, h7⟩ := SamePlace.move (s := s) (t := s.fetched) rfl (runDescriptor_ends h5)
      exact ⟨h6, h7, fun _ _ => fetchCheck_eq_none.1 h3⟩
  · obtain ⟨h6, h7⟩ := runDescriptor_ends h2
    exact ⟨h6, h7, fun hf => absurd hf (by rw [h1]; simp)⟩
  · refine ⟨?_, ?_, fun hf => absurd hf (by rw [h1]; simp)⟩
    all_goals
      rcases awaitReply_cases c s with ⟨h3, h4⟩ | ⟨r, rs, h3, h4⟩
    · rw [h2, h4]
      exact ⟨rfl, rfl, rfl, rfl, rfl, rfl, rfl, rfl, rfl, rfl, rfl⟩
    · rw [h2, h4]
      obtain ⟨h5, -⟩ := resumeSearch_ends c r { s with replies := rs }
      have h6 := MoveKeeps.ofSearch h5
      exact ⟨h6.cfg, h6.irqEn, h6.wz, h6.cmdBase, h6.wsCap, h6.foreign, h6.inputs, h6.hostData, h6.encData, h6.draws, h6.unseen⟩
    · rw [h2, h4]
      exact .waits c h1 rfl (EndKeeps.refl s)
    · rw [h2, h4]
      obtain ⟨h5, h6⟩ := resumeSearch_ends c r { s with replies := rs }
      cases h6 with
      | waits d phase same =>
        exact .waits d phase h5.done ⟨same.cmdPtr, same.cmdCount, same.resW, same.resH, same.resWaste, same.err,
          same.errCode, same.errInfo⟩
      | completes phase ptr count err code info => exact .completes phase h5.done ptr count err code info
      | fails phase ptr count w hh waste err code =>
        exact .fails phase h5.done ptr count w hh waste err (by rw [code]; decide) (.inl code)

end Sys2Proof.Machine
end

