-- ==== Sys2Proof/Laws/Outside.lean ====
section
/-! SUPPORT. What the outside world can do: register writes, bus accesses, answers, reset; and what a step can do. -/

namespace Sys2Proof.Machine

open Sys2Proof

theorem State.busy_iff {s : State} : s.busy = true ↔ s.phase ≠ .idle := by simp [State.busy]

theorem State.busy_eq_false {s : State} : s.busy = false ↔ s.phase = .idle := by simp [State.busy]

/-! ### Register writes (10_state.md R22 to R36) -/

/-- Everything a host write to the register space can do. -/
theorem State.writeReg_cases (s : State) (off width : Nat) (v : Word) :
    s.writeReg off width v = s ∨
      (s.busy = true ∧ ∃ b, s.writeReg off width v = { s with irqEn := b }) ∨
      (s.busy = false ∧ ∃ b z, s.writeReg off width v = s.start b z) ∨
      (s.busy = false ∧ ∃ b z base cap,
        s.writeReg off width v = { s with irqEn := b, wz := z, cmdBase := base, wsCap := cap }) ∨
      s.writeReg off width v = s.writeStatus v := by
  unfold State.writeReg
  split
  · split
    · unfold State.writeCtrl
      split
      · next hb => exact .inr (.inl ⟨hb, _, rfl⟩)
      · next hb =>
        simp only [Bool.not_eq_true] at hb
        split
        · exact .inr (.inr (.inl ⟨hb, _, _, rfl⟩))
        · exact .inr (.inr (.inr (.inl ⟨hb, _, _, _, _, rfl⟩)))
    · exact .inr (.inr (.inr (.inr rfl)))
    · unfold State.writeCmdBase
      split
      · exact .inl rfl
      · next hb =>
        simp only [Bool.not_eq_true] at hb
        exact .inr (.inr (.inr (.inl ⟨hb, _, _, _, _, rfl⟩)))
    · unfold State.writeWsCap
      split
      · exact .inl rfl
      · next hb =>
        simp only [Bool.not_eq_true] at hb
        exact .inr (.inr (.inr (.inl ⟨hb, _, _, _, _, rfl⟩)))
    · exact .inl rfl
  · exact .inl rfl

/-- What a host read of the register space can settle: nothing, or, where it reads STATUS with BUSY = 0, everything
(20_memory.md R73). -/
theorem State.seeStatus_cases (s : State) (off width : Nat) :
    s.seeStatus off width = s ∨
      (s.busy = false ∧ off = 0x08 ∧ width = 4 ∧ s.seeStatus off width = { s with written := [], unseen := [] }) := by
  unfold State.seeStatus
  split
  · next h =>
    simp only [answered, Bool.and_eq_true, decide_eq_true_eq, Bool.not_eq_eq_eq_not, Bool.not_true] at h
    exact .inr ⟨h.2, h.1.2, h.1.1.1, rfl⟩
  · exact .inl rfl

/-! ### One input -/

/-- Everything one input can do, where it answers a next state: the engine's move, a register write, a reset, a read (which changes
only what the reader sees), an answer, or a byte written by another agent. -/
theorem handle_cases {e : Event} {s t : State} (h : handle e s = .next t) :
    (e = .engineTurn ∧ engineStep s = .next t) ∨
      (∃ off width v, t = s.writeReg off width v) ∨
      (e = .reset ∧ t = s.assertReset) ∨
      (∃ d n x w u, t = { s with hostData := d, draws := n, encData := x, written := w, unseen := u } ∧
        (w = s.written ∧ u = s.unseen ∨ s.busy = false ∧ w = [] ∧ u = [])) ∨
      (∃ r, s.encWait = true ∧ s.replies = [] ∧ t = { s with replies := [r] }) ∨
      (∃ g a v, a < s.cfg.memSize ∧
        ((s.busy = false ∧ t = { s with mem := s.mem.write a v }) ∨
          (s.busy = true ∧ s.inFootprint a = false ∧
            t = { s with mem := s.mem.write a v, foreign := (g, a) :: s.foreign }))) := by
  cases e with
  | engineTurn => exact .inl ⟨rfl, h⟩
  | regRead a width =>
    cases h
    unfold State.hostRegRead
    split
    · next off _ =>
      rcases s.seeStatus_cases off width with hs | ⟨hb, -, -, hs⟩ <;> rw [hs]
      · exact .inr (.inr (.inr (.inl ⟨_, _, _, _, _, rfl, .inl ⟨rfl, rfl⟩⟩)))
      · exact .inr (.inr (.inr (.inl ⟨_, _, _, _, _, rfl, .inr ⟨hb, rfl, rfl⟩⟩)))
    · exact .inr (.inr (.inr (.inl ⟨_, _, _, _, _, rfl, .inl ⟨rfl, rfl⟩⟩)))
  | regWrite a width v =>
    cases h
    unfold State.hostRegWrite
    split
    · exact .inr (.inl ⟨_, _, _, rfl⟩)
    · exact .inr (.inr (.inr (.inl ⟨_, _, _, _, _, rfl, .inl ⟨rfl, rfl⟩⟩)))
  | memRead g a =>
    simp only [handle, State.busRead] at h
    split at h
    · cases h
    · cases g with
      | host =>
        simp only at h
        cases h
        unfold State.hostMemRead
        split
        · exact .inr (.inr (.inr (.inl ⟨_, _, _, _, _, rfl, .inl ⟨rfl, rfl⟩⟩)))
        · exact .inr (.inr (.inr (.inl ⟨_, _, _, _, _, rfl, .inl ⟨rfl, rfl⟩⟩)))
      | encoder =>
        simp only [State.encMemRead] at h
        split at h
        · cases h
          exact .inr (.inr (.inr (.inl ⟨_, _, _, _, _, rfl, .inl ⟨rfl, rfl⟩⟩)))
        · cases h
        · cases h
        · split at h
          · cases h
            exact .inr (.inr (.inr (.inl ⟨_, _, _, _, _, rfl, .inl ⟨rfl, rfl⟩⟩)))
          · cases h
  | memWrite g a v =>
    simp only [handle, State.busWrite] at h
    split at h
    · cases h
    · next ha =>
      have ha' : a < s.cfg.memSize := by omega
      split at h
      · next hb =>
        split at h
        · cases h
        · next hf =>
          cases h
          exact .inr (.inr (.inr (.inr (.inr ⟨g, a, v, ha', .inr ⟨hb, by simpa using hf, rfl⟩⟩))))
      · next hb =>
        cases h
        exact .inr (.inr (.inr (.inr (.inr ⟨g, a, v, ha', .inl ⟨by simpa using hb, rfl⟩⟩))))
  | encResponse r =>
    simp only [handle, State.response] at h
    split at h
    · next hw =>
      cases h
      simp only [Bool.and_eq_true, List.isEmpty_iff] at hw
      exact .inr (.inr (.inr (.inr (.inl ⟨r, hw.1, hw.2, rfl⟩))))
    · cases h
  | staleResponse r => cases h
  | reset =>
    cases h
    exact .inr (.inr (.inl ⟨rfl, rfl⟩))

/-- Everything a step can do: the engine's move or one input, on the state whose inputs have lost their head. -/
theorem step_next {s t : State} (h : step s = .next t) :
    ∃ rest, engineStep { s with inputs := rest } = .next t ∨ ∃ e, handle e { s with inputs := rest } = .next t := by
  rcases step_cases s with ⟨h1, h2⟩ | ⟨e, rest, -, h2⟩
  · exact ⟨s.inputs, .inl (h2 ▸ h)⟩
  · exact ⟨rest, .inr ⟨e, h2 ▸ h⟩⟩

/-! ### Reset during a run (70_reset_and_hazards.md R231) -/

/-- Draws change memory and the counter, nothing else. -/
theorem State.drawRegions_eq (rs : List Region) (s : State) :
    ∃ m n, s.drawRegions rs = { s with mem := m, draws := n } ∧ s.draws ≤ n := by
  induction rs generalizing s with
  | nil => exact ⟨s.mem, s.draws, rfl, Nat.le_refl _⟩
  | cons r rs ih =>
    obtain ⟨m, n, h, hn⟩ := ih { s with mem := s.mem.drawBytes r.base r.len s.draws, draws := s.draws + r.len }
    exact ⟨m, n, by rw [State.drawRegions, h], by simp only at hn; omega⟩

/-- A drawn byte is the free value of its draw. -/
theorem read_drawBytes {a n first b : Nat} {m : Memory} (h1 : a ≤ b) (h2 : b < a + n) :
    (m.drawBytes a n first).read b = Config.freeByte (first + (b - a)) := by
  have h := forRange_induct (n := n) (a := m) (f := fun k m => m.write (a + k) (Config.freeByte (first + k)))
    (fun k m' => ∀ x, a ≤ x → x < a + k → m'.read x = Config.freeByte (first + (x - a))) (fun x h1 h2 => by omega)
    (fun i _ m' hm x h1 h2 => by
      rw [Memory.read_write]
      split
      · subst_vars
        rw [Nat.add_sub_cancel_left]
      · exact hm x h1 (by omega))
  exact h b h1 h2

/-- Bytes outside the regions stay. -/
theorem State.read_drawRegions_outside {rs : List Region} {s : State} {a : Nat} (h : ∀ q ∈ rs, q.contains a = false) :
    (s.drawRegions rs).mem.read a = s.mem.read a := by
  induction rs generalizing s with
  | nil => rfl
  | cons r rs ih =>
    have hr := h r List.mem_cons_self
    rw [← Bool.not_eq_true, Region.contains_iff] at hr
    rw [State.drawRegions, ih (fun q hq => h q (List.mem_cons_of_mem _ hq))]
    exact read_drawBytes_outside (by omega)

/-- Every byte of the regions becomes a draw of its own step, the last region's where they share it. -/
theorem State.read_drawRegions {rs : List Region} {s : State} {a : Nat} (h : ∃ q ∈ rs, q.contains a = true) :
    ∃ n, s.draws ≤ n ∧ n < (s.drawRegions rs).draws ∧ (s.drawRegions rs).mem.read a = Config.freeByte n := by
  induction rs generalizing s with
  | nil => simp at h
  | cons r rs ih =>
    rw [State.drawRegions]
    by_cases h' : ∃ q ∈ rs, q.contains a = true
    · obtain ⟨n, h1, h2, h3⟩ := ih (s := { s with mem := s.mem.drawBytes r.base r.len s.draws, draws := s.draws + r.len }) h'
      simp only at h1
      exact ⟨n, by omega, h2, h3⟩
    · have hr : r.contains a = true := by
        obtain ⟨q, hq, hc⟩ := h
        rcases List.mem_cons.1 hq with rfl | hq
        · exact hc
        · exact absurd ⟨q, hq, hc⟩ h'
      rw [Region.contains_iff] at hr
      obtain ⟨m, n, he, hn⟩ :=
        State.drawRegions_eq rs { s with mem := s.mem.drawBytes r.base r.len s.draws, draws := s.draws + r.len }
      refine ⟨s.draws + (a - r.base), by omega, ?_, ?_⟩
      · rw [he]
        simp only at hn ⊢
        omega
      · rw [State.read_drawRegions_outside (fun q hq => by simpa using fun hc => h' ⟨q, hq, hc⟩)]
        exact read_drawBytes hr.1 hr.2

theorem State.wf_drawRegions {rs : List Region} {s : State} (h : s.mem.wf) : (s.drawRegions rs).mem.wf := by
  induction rs generalizing s with
  | nil => exact h
  | cons r rs ih => exact ih (wf_drawBytes h)

theorem below_drawBytes {a n first b : Nat} {m : Memory} (h : m.below b) (hd : a + n ≤ b) :
    (m.drawBytes a n first).below b :=
  forRange_keeps (fun m : Memory => m.below b) h (fun _ _ _ hx => Memory.below_write hx (by omega) _)

theorem State.below_drawRegions {rs : List Region} {s : State} {b : Nat} (h : s.mem.below b)
    (hr : ∀ r ∈ rs, r.base + r.len ≤ b) : (s.drawRegions rs).mem.below b := by
  induction rs generalizing s with
  | nil => exact h
  | cons r rs ih =>
    exact ih (below_drawBytes h (hr r List.mem_cons_self)) (fun q hq => hr q (List.mem_cons_of_mem _ hq))

end Sys2Proof.Machine
end

