-- ==== Sys2Proof/Laws/Commands.lean ====
section
/-! SUPPORT. What the checks of a command ensure of its regions and of the memory it writes. -/

namespace Sys2Proof.Machine

open Sys2Proof

theorem Config.memSize_le {c : Config} (h : c.legal = true) : c.memSize ≤ 2 ^ 32 := by
  simp only [Config.legal, Bool.and_eq_true, decide_eq_true_eq] at h
  omega

/-- A command whose checks pass has its effect. -/
theorem exec_of_check {i : Instr} {s : State} (h : checkOf i s = none) : exec i s = .next (effectOf i s) := by
  rw [exec_eq, h]
  rfl

/-- The written regions of a command whose checks pass fit (20_memory.md R66). -/
theorem writes_fit {i : Instr} {s : State} (h : checkOf i s = none) : ∀ r ∈ writes i, r.base + r.len ≤ s.cfg.memSize := by
  cases i with
  | endList => simp [writes]
  | diffuse src dst width height =>
    have := diffuseCheck_eq_none.1 h
    simp only [writes, List.mem_singleton, forall_eq]
    omega
  | seqEnc src dst width height fcount =>
    have := encodeCheck_eq_none.1 h
    simp only [writes, List.mem_singleton, forall_eq]
    omega
  | strEnc src dst width height fcount =>
    have := encodeCheck_eq_none.1 h
    simp only [writes, List.mem_singleton, forall_eq]
    omega
  | seqDec src dst width height fcount pal palLen =>
    have := (seqDecCheck_eq_none.1 h).2.2.2.2.dstFits
    simpa only [writes, List.mem_singleton, forall_eq] using this
  | strDec src dst width height fwidth fheight pal palLen =>
    have := (strDecCheck_eq_none.1 h).2.2.2.2.2.dstFits
    simpa only [writes, List.mem_singleton, forall_eq] using this
  | resolve src dst width height pal palLen =>
    have := (resolveCheck_eq_none.1 h).2.2.dstFits
    simpa only [writes, List.mem_singleton, forall_eq] using this
  | raster src dst width height rwidth =>
    have := rasterCheck_eq_none.1 h
    simp only [writes, List.mem_singleton, forall_eq]
    omega
  | wsearch src fcount fwidth fheight pal palLen scratch scrLen log logLen =>
    have h' := wsearchCheck_eq_none.1 h
    simp only [writes, List.mem_cons, List.not_mem_nil, or_false, forall_eq_or_imp, forall_eq]
    exact ⟨h'.scratchFits, h'.logFits⟩

/-- F·W, H div F and W·(H div F) in terms of the cell count, where F divides H. -/
theorem cells_of_divides {width height frames : Nat} (hF : frames ≠ 0) (hd : height % frames = 0) :
    width * height = frames * (width * (height / frames)) := by
  obtain ⟨q, rfl⟩ := Nat.dvd_of_mod_eq_zero hd
  rw [Nat.mul_div_cancel_left _ (by omega), Nat.mul_left_comm]

/-- A command other than WSEARCH whose checks pass writes nothing past data memory. -/
theorem below_effectOf {i : Instr} {s : State} (h : checkOf i s = none) (hb : s.mem.below s.cfg.memSize)
    (hw : ∀ a b c d e f g h k l, i ≠ .wsearch a b c d e f g h k l) : (effectOf i s).mem.below s.cfg.memSize := by
  cases i with
  | endList => exact hb
  | diffuse src dst width height =>
    have := diffuseCheck_eq_none.1 h
    exact below_ditherImage hb (by omega)
  | seqEnc src dst width height fcount =>
    have := encodeCheck_eq_none.1 h
    exact below_seqEncWalk (by omega) (Dvd.dvd.mul_left (Nat.dvd_of_mod_eq_zero this.2.2.2.1) _) hb (by omega)
  | strEnc src dst width height fcount =>
    have h1 := encodeCheck_eq_none.1 h
    refine below_strEncWalk hb ?_
    have h2 := cells_of_divides (width := width) h1.2.2.1 h1.2.2.2.1
    rw [Nat.mul_comm (height / fcount) width, Nat.mul_comm _ fcount, ← h2]
    omega
  | seqDec src dst width height fcount pal palLen =>
    have h1 := seqDecCheck_eq_none.1 h
    refine below_decodeFrames hb ?_
    have h2 := cells_of_divides (width := height) h1.2.2.1 h1.2.2.2.1
    rw [Nat.mul_assoc, ← h2, Nat.mul_comm height]
    exact h1.2.2.2.2.dstFits
  | strDec src dst width height fwidth fheight pal palLen =>
    have h1 := strDecCheck_eq_none.1 h
    refine below_decodeFrames hb ?_
    have h2 := Nat.div_mul_cancel (Nat.dvd_of_mod_eq_zero h1.2.2.2.2.1)
    rw [Nat.mul_assoc, Nat.mul_comm fheight, strDecFrames, h2]
    exact h1.2.2.2.2.2.dstFits
  | resolve src dst width height pal palLen => exact below_resolveWalk hb (resolveCheck_eq_none.1 h).2.2.dstFits
  | raster src dst width height rwidth =>
    have := rasterCheck_eq_none.1 h
    exact below_writeRaster hb (by omega)
  | wsearch a b c d e f g hh k l => exact absurd rfl (hw _ _ _ _ _ _ _ _ _ _)

end Sys2Proof.Machine
end

