-- ==== Sys2Proof/Laws/Ahead.lean ====
section
/-! SUPPORT. The regions a run would write (spec/20_memory.md R70, 70_reset_and_hazards.md R231): they fit, and they follow the
command list command by command. -/

namespace Sys2Proof.Machine

open Sys2Proof

theorem fittingWrites_fit {i : Instr} {c : Config} : ∀ r ∈ fittingWrites i c, r.base + r.len ≤ c.memSize := by
  intro r hr
  simpa [Region.fits] using (List.mem_filter.1 hr).2

/-- Where the checks pass, every written region fits. -/
theorem fittingWrites_eq {i : Instr} {s : State} (h : checkOf i s = none) : fittingWrites i s.cfg = writes i := by
  refine List.filter_eq_self.2 (fun r hr => ?_)
  simpa [Region.fits] using writes_fit h r hr

/-- A command that completes stands 64 bytes further (40_control.md R103), with the same parameters. -/
theorem exec_fetch {i : Instr} {s t : State} (h : exec i s = .next t) (hp : t.phase = .fetch) :
    t.cfg = s.cfg ∧ t.cmdPtr = s.cmdPtr + 64 := by
  obtain ⟨hk, -, -, he⟩ := exec_ends h
  refine ⟨hk.cfg, ?_⟩
  cases he with
  | ends phase _ _ _ => rw [hp] at phase; cases phase
  | completes _ _ ptr _ _ _ _ => exact ptr
  | fails phase _ _ _ _ _ _ _ _ _ => rw [hp] at phase; cases phase
  | waits c phase _ _ => rw [hp] at phase; cases phase

/-- What one command ahead can answer, with what comes after it: nothing, its regions, or its regions and what comes after
a state 64 bytes further. -/
theorem commandAhead_cases (i : Instr) (dirty : List Region) (s : State)
    (rest : List Region → State → List Region) :
    commandAhead i dirty s rest = [] ∨ commandAhead i dirty s rest = fittingWrites i s.cfg ∨
      ∃ d t, t.cfg = s.cfg ∧ t.cmdPtr = s.cmdPtr + 64 ∧ commandAhead i dirty s rest = fittingWrites i s.cfg ++ rest d t := by
  unfold commandAhead
  simp only
  split
  · split
    · exact .inr (.inr ⟨_, { s with cmdPtr := s.cmdPtr + 64, phase := .fetch }, rfl, rfl, rfl⟩)
    · exact .inl rfl
  · split
    · exact .inr (.inr ⟨_, { s with cmdPtr := s.cmdPtr + 64, phase := .fetch }, rfl, rfl, rfl⟩)
    · split
      · next t ht =>
        split
        · next hp => exact .inr (.inr ⟨_, t, (exec_fetch ht hp).1, (exec_fetch ht hp).2, rfl⟩)
        · exact .inr (.inl (by simp))
      · exact .inr (.inl rfl)
      · exact .inr (.inl rfl)

/-- What comes after matters only at states 64 bytes further. -/
theorem commandAhead_congr {i : Instr} {dirty : List Region} {s : State} {rest rest' : List Region → State → List Region}
    (h : ∀ d t, t.cfg = s.cfg → t.cmdPtr = s.cmdPtr + 64 → rest d t = rest' d t) :
    commandAhead i dirty s rest = commandAhead i dirty s rest' := by
  unfold commandAhead
  simp only
  split
  · rw [h _ { s with cmdPtr := s.cmdPtr + 64, phase := .fetch } rfl rfl]
  · rw [h _ { s with cmdPtr := s.cmdPtr + 64, phase := .fetch } rfl rfl]
    split
    · rfl
    · split
      · next t ht =>
        split
        · next hp => rw [h _ t (exec_fetch ht hp).1 (exec_fetch ht hp).2]
        · rfl
      · rfl
      · rfl

theorem commandAhead_fit {i : Instr} {dirty : List Region} {s : State} {rest : List Region → State → List Region}
    (h : ∀ d t, t.cfg = s.cfg → ∀ r ∈ rest d t, r.base + r.len ≤ s.cfg.memSize) :
    ∀ r ∈ commandAhead i dirty s rest, r.base + r.len ≤ s.cfg.memSize := by
  rcases commandAhead_cases i dirty s rest with he | he | ⟨d, t, hc, -, he⟩ <;> rw [he]
  · simp
  · exact fittingWrites_fit
  · intro r hr
    rcases List.mem_append.1 hr with hr | hr
    · exact fittingWrites_fit r hr
    · exact h d t hc r hr

theorem ahead_fit (n : Nat) (dirty : List Region) (s : State) :
    ∀ r ∈ State.ahead n dirty s, r.base + r.len ≤ s.cfg.memSize := by
  induction n generalizing dirty s with
  | zero => simp [State.ahead]
  | succ n ih =>
    unfold State.ahead
    split
    · simp
    · split
      · simp
      · split
        · simp
        · exact commandAhead_fit (fun d t hc r hr => hc ▸ ih d t r hr)

/-- The regions of the commands to come fit (20_memory.md R66). -/
theorem State.toCome_fit (s : State) : ∀ r ∈ s.toCome, r.base + r.len ≤ s.cfg.memSize := by
  unfold State.toCome
  split
  · simp
  · exact ahead_fit _ _ _
  · split
    · simp
    · exact commandAhead_fit (fun d t hc r hr => hc ▸ ahead_fit _ d t r hr)
  · exact ahead_fit _ _ { s with cmdPtr := s.cmdPtr + 64, phase := .fetch }

/-- One more command than memory can hold changes nothing (40_control.md R107). -/
theorem ahead_more {n : Nat} {dirty : List Region} {s : State} (h : s.cfg.memSize < s.cmdPtr + 64 * (n + 1)) :
    State.ahead (n + 1) dirty s = State.ahead n dirty s := by
  induction n generalizing dirty s with
  | zero =>
    have hf : s.fetchCheck.isSome = true := by
      cases hk : s.fetchCheck with
      | none => have := fetchCheck_eq_none.1 hk; omega
      | some _ => rfl
    simp [State.ahead, hf]
  | succ n ih =>
    rw [State.ahead, State.ahead]
    split
    · rfl
    · split
      · rfl
      · split
        · rfl
        · exact commandAhead_congr (fun d t hc hp => ih (by rw [hc, hp]; omega))

/-- A command that asks the encoder nothing, met with no dirty region: the run it belongs to ends without a write where
a check fails; otherwise its regions come first, and then what is to come after it. -/
theorem commandAhead_exact {i : Instr} {s u : State} {rest : List Region → State → List Region}
    (ha : asksEncoder i = false) (h : exec i s = .next u) :
    commandAhead i [] s rest =
      if (checkOf i s).isSome then [] else writes i ++ (if u.phase = .fetch then rest [] u else []) := by
  have ht : (reads i).any (fun r => ([] : List Region).any (fun q => r.overlaps q)) = false := by simp
  unfold commandAhead
  simp only [ht, ha, Bool.false_and, Bool.or_self, Bool.false_eq_true, if_false, h]
  split
  · next e he => simp [he]
  · next he => simp [he, fittingWrites_eq he]

theorem asksEncoder_eq_false {i : Instr} :
    asksEncoder i = false ↔ ∀ a b c d e f g h k l, i ≠ .wsearch a b c d e f g h k l := by
  cases i <;> simp [asksEncoder]

/-- From FETCH the regions to come are those of the command there, then those to come after it. -/
theorem State.toCome_fetch {s u : State} {i : Instr} (hp : s.phase = .fetch) (hc : s.fetchCheck = none)
    (hd : decode s.fetchWords = .ok i) (ha : asksEncoder i = false) (h : exec i s = .next u) :
    s.toCome = if (checkOf i s).isSome then [] else writes i ++ u.toCome := by
  have hlim : s.cfg.memSize < 64 * s.commandLimit := by unfold State.commandLimit; omega
  have hl : s.commandLimit = s.cfg.memSize / 64 + 1 := rfl
  unfold State.toCome
  rw [hp]
  simp only
  rw [hl, State.ahead]
  simp only [hc, Option.isSome_none, Bool.false_eq_true, if_false, List.any_nil, hd]
  rw [commandAhead_exact ha h]
  split
  · rfl
  · congr 1
    obtain ⟨-, -, -, he⟩ := exec_ends h
    cases he with
    | ends phase _ _ _ => simp [phase]
    | fails phase _ _ _ _ _ _ _ _ _ => simp [phase]
    | waits c phase _ _ =>
      rcases exec_cases i s with ⟨e, -, hx⟩ | ⟨-, hx⟩
      · rw [hx] at h; cases h; cases phase
      · rw [hx] at h
        cases h
        by_cases h1 : i = .endList
        · subst h1; cases phase
        · obtain ⟨m, acc, cur, w, hh, waste, heq, -⟩ := effectOf_complete i s h1 (asksEncoder_eq_false.1 ha)
          rw [heq] at phase
          cases phase
    | completes phase _ ptr _ _ _ _ =>
      obtain ⟨hcf, hptr⟩ := exec_fetch h phase
      simp only [phase, if_true]
      have h2 : u.commandLimit = s.cfg.memSize / 64 + 1 := by unfold State.commandLimit; rw [hcf]
      rw [h2]
      exact (ahead_more (by rw [hcf, hptr]; omega)).symm

/-- The command at a fetch whose checks pass is among the regions to come, WSEARCH too. -/
theorem State.writes_toCome {s : State} {i : Instr} (hp : s.phase = .fetch) (hc : s.fetchCheck = none)
    (hd : decode s.fetchWords = .ok i) (hk : checkOf i s = none) : ∀ r ∈ writes i, r ∈ s.toCome := by
  intro r hr
  unfold State.toCome
  rw [hp]
  simp only
  rw [show s.commandLimit = s.cfg.memSize / 64 + 1 from rfl, State.ahead]
  simp only [hc, Option.isSome_none, Bool.false_eq_true, if_false, List.any_nil, hd]
  have hr' : r ∈ fittingWrites i s.cfg := by rw [fittingWrites_eq hk]; exact hr
  unfold commandAhead
  simp only [hk]
  split
  · exact List.mem_append_left _ hr'
  · split
    · exact List.mem_append_left _ hr'
    · exact hr'
    · exact hr'

end Sys2Proof.Machine
end

