-- ==== Sys2Proof/Laws/Search.lean ====
section
/-! SUPPORT. The search's outcome: answers that come late (43_optimizer.md R177), and the candidates that win (R183, R188). -/

namespace Sys2Proof.Machine

open Sys2Proof

/-! ### The phase and the answers at hand do not matter to a candidate -/

theorem State.finishSearch_phase (s : State) (c : Search) (p : Phase) :
    State.finishSearch { s with phase := p } c = s.finishSearch c := by
  unfold State.finishSearch
  split <;> rfl

theorem State.takeReply_phase_ok (s : State) (c : Search) (p : Phase) {r : EncReply} (hr : r.ok = true) :
    State.takeReply { s with phase := p } c r = { s.takeReply c r with phase := p } := by
  unfold State.takeReply
  have hi : State.improves { s with phase := p } r.value = s.improves r.value := rfl
  simp only [hr, hi, Bool.not_true, Bool.false_eq_true, if_false]
  split <;> rfl

theorem State.takeReply_phase_error (s : State) (c : Search) (p : Phase) {r : EncReply} (hr : r.ok = false) :
    State.takeReply { s with phase := p } c r = s.takeReply c r := by
  unfold State.takeReply
  simp only [hr]
  rfl

theorem State.takeReply_replies_ok (s : State) (c : Search) (l : List EncReply) {r : EncReply} (hr : r.ok = true) :
    State.takeReply { s with replies := l } c r = { s.takeReply c r with replies := l } := by
  unfold State.takeReply
  have hi : State.improves { s with replies := l } r.value = s.improves r.value := rfl
  simp only [hr, hi, Bool.not_true, Bool.false_eq_true, if_false]
  split <;> rfl

/-- The loop does not read the phase it starts in. -/
theorem searchLoop_phase (n : Nat) (c : Search) (s : State) (p : Phase) :
    searchLoop n c { s with phase := p } = searchLoop n c s := by
  induction n generalizing c s with
  | zero => exact s.finishSearch_phase c p
  | succ n ih =>
    rw [searchLoop, searchLoop]
    have e1 : State.enterCandidate { s with phase := p } c = { s.enterCandidate c with phase := p } := rfl
    have e2 : State.skips { s.enterCandidate c with phase := p } c = (s.enterCandidate c).skips c := rfl
    have e3 : State.sendRequest { s.enterCandidate c with phase := p } c =
        { (s.enterCandidate c).sendRequest c with phase := p } := rfl
    simp only [e1, e2, e3]
    split
    · split
      · exact State.finishSearch_phase _ _ _
      · exact ih _ _
    · split
      · rfl
      · next r rs _ =>
        by_cases hr : r.ok = true
        · have h := State.takeReply_phase_ok { (s.enterCandidate c).sendRequest c with replies := rs } c p hr
          simp only at h
          simp only [h, hr, Bool.not_true, Bool.false_eq_true, if_false]
          rw [State.finishSearch_phase, ih]
        · have hr' : r.ok = false := by simpa using hr
          have h := State.takeReply_phase_error { (s.enterCandidate c).sendRequest c with replies := rs } c p hr'
          simp only at h
          simp only [h, hr', Bool.not_false, if_true]

/-- Where the loop waits for want of an answer, an answer that comes then gives what it would have given at hand. -/
theorem searchLoop_late {n : Nat} {c : Search} {s : State} {r : EncReply} {rs : List EncReply} {d : Search}
    (hn : n = c.nCands + 1 - c.k) (h0 : s.replies = []) (hd : (searchLoop n c s).phase = .execute d) :
    awaitReply d { searchLoop n c s with replies := r :: rs } = searchLoop n c { s with replies := r :: rs } := by
  induction n generalizing c s with
  | zero =>
    obtain ⟨a, b, w, h⟩ := s.finishSearch_eq c
    simp [searchLoop, h] at hd
  | succ n ih =>
    rw [searchLoop] at hd ⊢
    rw [searchLoop]
    have e1 : State.enterCandidate { s with replies := r :: rs } c = { s.enterCandidate c with replies := r :: rs } := rfl
    have e2 : State.skips { s.enterCandidate c with replies := r :: rs } c = (s.enterCandidate c).skips c := rfl
    have e3 : State.sendRequest { s.enterCandidate c with replies := r :: rs } c =
        { (s.enterCandidate c).sendRequest c with replies := r :: rs } := rfl
    simp only [e1, e2, e3]
    simp only at hd
    by_cases hs : (s.enterCandidate c).skips c = true
    · simp only [hs, if_true] at hd ⊢
      by_cases hl : c.last = true
      · simp only [hl, if_true] at hd
        obtain ⟨a, b, w, h⟩ := (s.enterCandidate c).finishSearch_eq c
        simp [h] at hd
      · simp only [hl, Bool.false_eq_true, if_false] at hd ⊢
        exact ih (by simp only [Search.next]; omega) h0 hd
    · have h00 : (State.sendRequest (s.enterCandidate c) c).replies = [] := h0
      simp only [hs, Bool.false_eq_true, if_false, h00] at hd ⊢
      cases hd
      simp only [awaitReply, resumeSearch]
      have hfuel : d.nCands - d.k = n := by omega
      rw [hfuel]
      by_cases hr : r.ok = true
      · have h := State.takeReply_phase_ok { (s.enterCandidate d).sendRequest d with replies := rs } d (.execute d) hr
        simp only at h
        simp only [h, hr, Bool.not_true, Bool.false_eq_true, if_false]
        rw [State.finishSearch_phase, searchLoop_phase]
      · have hr' : r.ok = false := by simpa using hr
        have h := State.takeReply_phase_error { (s.enterCandidate d).sendRequest d with replies := rs } d (.execute d) hr'
        simp only at h
        simp only [h, hr', Bool.not_false, if_true]

/-! ### Candidates that are skipped (43_optimizer.md R181) -/

/-- A loop whose next m candidates the filter skips goes on at the one after them; only WS_CUR_W and WS_CUR_K have
changed. -/
theorem searchLoop_skips {m n : Nat} {c : Search} {s : State} (hc : SearchOk s.cfg c) (hk : c.k + m ≤ c.nCands)
    (hn : m < n) (hskip : ∀ k, c.k ≤ k → k < c.k + m → s.wz = true ∧ candCells c.step c.total c.cap k ≠ c.total) :
    ∃ a b, searchLoop n c s = searchLoop (n - m) { c with k := c.k + m } { s with wsCurW := a, wsCurK := b } := by
  induction m generalizing c s n with
  | zero => exact ⟨s.wsCurW, s.wsCurK, rfl⟩
  | succ m ih =>
    obtain ⟨n, rfl⟩ : ∃ n', n = n' + 1 := ⟨n - 1, by omega⟩
    have hl : ¬c.last = true := by
      rw [hc.last_iff]
      omega
    obtain ⟨hwz, hcells⟩ := hskip c.k (by omega) (by omega)
    have hs : (s.enterCandidate c).skips c = true := by
      have hz : (s.enterCandidate c).wz = true := hwz
      have hle := le_mul_rasterHeight (total := c.total) hc.width_pos
      have hw : c.waste ≠ 0 := by
        unfold candCells at hcells
        unfold Search.waste Search.height
        unfold Search.width at *
        omega
      simp only [State.skips, hz, Bool.true_and, decide_eq_true_eq]
      exact hw
    obtain ⟨a, b, h⟩ := ih (c := c.next) (s := s.enterCandidate c) (n := n) (hc.next hl)
      (by simp only [Search.next]; omega) (by omega)
      (fun k h1 h2 => hskip k (by simp only [Search.next] at h1; omega) (by simp only [Search.next] at h2; omega))
    have hk' : ({ c.next with k := c.next.k + m } : Search) = { c with k := c.k + (m + 1) } := by
      simp only [Search.next]
      congr 1
      omega
    refine ⟨a, b, ?_⟩
    rw [searchLoop]
    simp only [hs, if_true, hl, Bool.false_eq_true, if_false]
    rw [h, hk', show n + 1 - (m + 1) = n - m by omega]
    rfl

/-! ### The optimum (43_optimizer.md R188) -/

/-- Candidate k is evaluated (43_optimizer.md R181): with WZ = 1 only where it has no wasted cell. -/
def isEvaluated (wz : Bool) (S T CAP k : Nat) : Bool := !wz || decide (candCells S T CAP k = T)

/-- The candidates among the first n that a search evaluates, in order (43_optimizer.md R180, R181). -/
def evaluatedUpTo (wz : Bool) (S T CAP n : Nat) : List Nat :=
  ((List.range n).map (fun j => j + 1)).filter (isEvaluated wz S T CAP)

/-- One more candidate. -/
theorem evaluatedUpTo_succ (wz S T CAP n) :
    evaluatedUpTo wz S T CAP (n + 1) =
      evaluatedUpTo wz S T CAP n ++ (if isEvaluated wz S T CAP (n + 1) then [n + 1] else []) := by
  simp only [evaluatedUpTo, List.range_succ, List.map_append, List.filter_append, List.map_cons, List.map_nil,
    List.filter_cons, List.filter_nil]

/-- Fewer candidates are a prefix. -/
theorem evaluatedUpTo_mono (wz S T CAP) {m n : Nat} (h : m ≤ n) : ∃ l, evaluatedUpTo wz S T CAP n = evaluatedUpTo wz S T CAP m ++ l := by
  induction n with
  | zero => obtain rfl : m = 0 := by omega
            exact ⟨[], by simp⟩
  | succ n ih =>
    by_cases hm : m = n + 1
    · subst hm; exact ⟨[], by simp⟩
    · obtain ⟨l, hl⟩ := ih (by omega)
      exact ⟨l ++ _, by rw [evaluatedUpTo_succ, hl, List.append_assoc]⟩

/-- The best registers hold the first smallest of the answers R to the candidates L (43_optimizer.md R183, R188). -/
structure BestOf (S T CAP : Nat) (R : List EncReply) (L : List Nat) (u : State) : Prop where
  ex : ∃ j < L.length, ∃ k r, L[j]? = some k ∧ R[j]? = some r ∧ u.wsBestSize = r.value ∧
        (∀ i r', i < L.length → R[i]? = some r' → r.value.toNat ≤ r'.value.toNat) ∧
        (∀ i r', i < j → R[i]? = some r' → r.value.toNat < r'.value.toNat) ∧
        u.wsBestW = BitVec.ofNat 32 (candWidth S CAP k) ∧ u.wsBestH = BitVec.ofNat 32 (rasterHeight T (candWidth S CAP k)) ∧ 1 ≤ k ∧ k ≤ candCount S CAP
  em : 1 ≤ u.wsEmits.toNat

/-- What a search has counted, emitted and consumed after the candidates L, with the answers R. -/
structure AnswersTracked (S T CAP : Nat) (wz : Bool) (R : List EncReply) (L : List Nat) (u : State) : Prop where
  wz : u.wz = wz
  rep : u.replies = R.drop L.length
  cands : u.wsCands.toNat = L.length
  emits : u.wsEmits.toNat ≤ L.length
  zero : L = [] → u.wsEmits = 0 ∧ u.wsBestW = 0 ∧ u.wsBestH = 0 ∧ u.wsBestSize = 0
  best : L ≠ [] → BestOf S T CAP R L u

/-- The search c, started as c0, stands at candidate k with every earlier one answered. -/
structure SearchPoint (S T CAP : Nat) (wz : Bool) (R : List EncReply) (c0 : Search) (c : Search) (u : State) : Prop where
  ok : SearchOk u.cfg c
  same : SameSearch c0 c
  st : c.step = S
  tt : c.total = T
  cp : c.cap = CAP
  tr : AnswersTracked S T CAP wz R (evaluatedUpTo wz S T CAP (c.k - 1)) u

/-- How a search ends that has evaluated the candidates L (43_optimizer.md R186, R188). -/
structure SearchResult (S T CAP : Nat) (wz : Bool) (R : List EncReply) (L : List Nat) (t : State) : Prop where
  ph : t.phase = .fetch
  rep : t.replies = R.drop L.length
  cands : t.wsCands.toNat = L.length
  ck : t.wsCurK.toNat = candCount S CAP
  cw : t.wsCurW.toNat = CAP
  zero : L = [] → t.wsEmits = 0 ∧ t.wsBestW = 0 ∧ t.wsBestH = 0 ∧ t.wsBestSize = 0 ∧ t.resW = 0 ∧ t.resH = 0 ∧ t.resWaste = 0
  best : L ≠ [] → BestOf S T CAP R L t ∧ t.resW = t.wsBestW ∧ t.resH = t.wsBestH ∧ t.resWaste = BitVec.ofNat 32 (t.wsBestW.toNat * t.wsBestH.toNat - T)

/-- Completion copies the best registers into RES_*. -/
theorem finishSearch_result {S T CAP wz R L} {c : Search} {u : State} (h : AnswersTracked S T CAP wz R L u) (hT : c.total = T)
  (ck : u.wsCurK.toNat = candCount S CAP) (cw : u.wsCurW.toNat = CAP) : SearchResult S T CAP wz R L (u.finishSearch c) := by
  have hz : L = [] ↔ u.wsEmits = 0 := by
    constructor
    · exact fun hl => (h.zero hl).1
    · intro he; by_contra hl
      have := (h.best hl).em; rw [he] at this; simp at this
  unfold State.finishSearch
  split
  · next he =>
    have hl := hz.2 he
    refine ⟨rfl, h.rep, h.cands, ck, cw, fun _ => ?_, fun hn => absurd hl hn⟩
    obtain ⟨h1, h2, h3, h4⟩ := h.zero hl
    exact ⟨h1, h2, h3, h4, rfl, rfl, rfl⟩
  · next he =>
    have hl := mt hz.1 he
    refine ⟨rfl, h.rep, h.cands, ck, cw, fun hn => absurd hn hl, fun _ => ⟨⟨(h.best hl).ex, (h.best hl).em⟩, ?_, ?_, ?_⟩⟩
    · simp [State.complete]
    · simp [State.complete]
    · subst hT; rfl

/-- One answer OK = 1 keeps the account. -/
theorem takeReply_track {S T CAP wz R} {v : State} {Lp : List Nat} {d : Search} {r : EncReply}
  (hwz : v.wz = wz) (hrep : v.replies = R.drop (Lp.length + 1)) (hc : v.wsCands.toNat = Lp.length) (hcl : Lp.length + 1 < 2^32)
  (hem : v.wsEmits.toNat ≤ Lp.length) (hzero : Lp = [] → v.wsEmits = 0 ∧ v.wsBestW = 0 ∧ v.wsBestH = 0 ∧ v.wsBestSize = 0)
  (hbest : Lp ≠ [] → BestOf S T CAP R Lp v) (hRj : R[Lp.length]? = some r) (hrok : r.ok = true)
  (e1 : d.width = candWidth S CAP d.k) (e3 : d.height = rasterHeight T (candWidth S CAP d.k)) (k1 : 1 ≤ d.k) (k2 : d.k ≤ candCount S CAP) :
  AnswersTracked S T CAP wz R (Lp ++ [d.k]) (v.takeReply d r) := by
  have hc1 : (v.wsCands + 1).toNat = v.wsCands.toNat + 1 := toNat_add_one (by omega)
  have he1 : (v.wsEmits + 1).toNat = v.wsEmits.toNat + 1 := toNat_add_one (by omega)
  have hlt : (v.wsEmits = 0 ∨ r.value.toNat < v.wsBestSize.toNat) → ∀ i r', i < Lp.length → R[i]? = some r' → r.value.toNat < r'.value.toNat := by
    intro hi i r' hlt hr'
    have hne : Lp ≠ [] := by intro h; simp [h] at hlt
    obtain ⟨j, hj', k', r'', h1, h2, h3, h4, h5, -⟩ := (hbest hne).ex
    have hee := (hbest hne).em
    have h6 := h4 i r' hlt hr'
    have hi2 : r.value.toNat < v.wsBestSize.toNat := by
      rcases hi with h | h
      · rw [h] at hee; simp at hee
      · exact h
    rw [h3] at hi2; omega
  rcases v.takeReply_cases d r with ⟨hr, -⟩ | ⟨-, hi, ht⟩ | ⟨-, hi1, hi2, ht⟩
  · rw [hrok] at hr; cases hr
  · rw [ht]
    refine ⟨by simpa using hwz, by simpa using hrep, by simp only [State.emit_wsCands, State.countCandidate_wsCands]; rw [hc1]; simp [hc], by simp only [State.emit_wsEmits, State.countCandidate_wsEmits]; rw [he1]; simp; exact hem, fun h => by simp at h, fun _ => ?_⟩
    refine ⟨⟨Lp.length, by simp, d.k, r, by simp, hRj, by simp, ?_, hlt hi, by simp [e1], by simp [e3], k1, k2⟩, by simp only [State.emit_wsEmits, State.countCandidate_wsEmits]; rw [he1]; omega⟩
    intro i r' hi' hr'
    simp at hi'
    by_cases hl : i < Lp.length
    · exact Nat.le_of_lt (hlt hi i r' hl hr')
    · have : i = Lp.length := by omega
      subst this; rw [hRj] at hr'; cases hr'; exact Nat.le_refl _
  · rw [ht]
    have hne : Lp ≠ [] := by intro h; exact hi1 (hzero h).1
    refine ⟨by simpa using hwz, by simpa using hrep, by simp only [State.drop_wsCands, State.countCandidate_wsCands]; rw [hc1]; simp [hc], by simp; omega, fun h => by simp at h, fun _ => ?_⟩
    obtain ⟨j, hj', k', r'', h1, h2, h3, h4, h5, h6, h7, h8⟩ := (hbest hne).ex
    refine ⟨⟨j, by simp; omega, k', r'', by rw [List.getElem?_append_left hj']; exact h1, h2, by simpa using h3, ?_, h5, by simpa using h6, by simpa using h7, h8⟩, by simpa using (hbest hne).em⟩
    intro i r' hi' hr'
    simp at hi'
    by_cases hl : i < Lp.length
    · exact h4 i r' hl hr'
    · have : i = Lp.length := by omega
      subst this; rw [hRj] at hr'; cases hr'
      rw [h3] at hi2; exact hi2

/-- A search with an answer OK = 1 at hand for every candidate it evaluates ends at the first smallest. -/
theorem searchLoop_optimum {S T CAP wz R} {c : Search} {s : State} {L : List Nat} (h : SearchPoint S T CAP wz R c c s) (hL : L = evaluatedUpTo wz S T CAP (candCount S CAP))
    (hlen : L.length ≤ R.length) (hok : ∀ r ∈ R.take L.length, r.ok = true) {n : Nat} (hn : c.nCands - c.k < n) :
    SearchResult S T CAP wz R L (searchLoop n c s) := by
  have hS : ∀ d u, SearchPoint S T CAP wz R c d u → d.width = candWidth S CAP d.k ∧ d.nCands = candCount S CAP ∧ d.height = rasterHeight T (candWidth S CAP d.k) := by
    intro d u hd
    refine ⟨by simp [Search.width, hd.st, hd.cp], by rw [hd.ok.count, hd.st, hd.cp], by simp [Search.height, Search.width, hd.st, hd.cp, hd.tt]⟩
  have hskip : ∀ d u, SearchPoint S T CAP wz R c d u → ((u.enterCandidate d).skips d = !isEvaluated wz S T CAP d.k) := by
    intro d u hd
    have h1 := le_mul_rasterHeight (total := d.total) hd.ok.width_pos
    obtain ⟨e1, e2, e3⟩ := hS d u hd
    unfold State.skips isEvaluated Search.waste candCells
    rw [State.enterCandidate_wz, hd.tr.wz, e1, e3]
    rw [e1, hd.tt] at h1
    rw [hd.tt]
    cases wz <;> simp
    omega
  have hk1 : ∀ d u, SearchPoint S T CAP wz R c d u → d.k - 1 + 1 = d.k := by
    intro d u hd; have := hd.ok.kPos; omega
  have hlast : ∀ d u, SearchPoint S T CAP wz R c d u → d.last = true → evaluatedUpTo wz S T CAP d.k = L := by
    intro d u hd hl; rw [hL, hd.ok.last_iff.1 hl, (hS d u hd).2.1]
  have hcur : ∀ d u, SearchPoint S T CAP wz R c d u → d.last = true → (BitVec.ofNat 32 d.k : Word).toNat = candCount S CAP ∧ (BitVec.ofNat 32 d.width : Word).toNat = CAP := by
    intro d u hd hl
    have h1 := hd.ok.last_iff.1 hl
    have h2 := hd.ok.nCands_word
    have h3 := hd.ok.width_word
    rw [BitVec.toNat_ofNat, BitVec.toNat_ofNat, Nat.mod_eq_of_lt (by omega), Nat.mod_eq_of_lt h3, h1, (hS d u hd).2.1]
    refine ⟨rfl, ?_⟩
    simp [Search.last] at hl
    rw [hd.cp] at hl
    simp [Search.width, candWidth, hl, hd.cp]
  have hE : ∀ d u, SearchPoint S T CAP wz R c d u → evaluatedUpTo wz S T CAP d.k = evaluatedUpTo wz S T CAP (d.k-1) ++ (if isEvaluated wz S T CAP d.k then [d.k] else []) := by
    intro d u hd
    have := evaluatedUpTo_succ wz S T CAP (d.k - 1)
    rwa [hk1 d u hd] at this
  have hpre : ∀ d u, SearchPoint S T CAP wz R c d u → (evaluatedUpTo wz S T CAP d.k).length ≤ L.length := by
    intro d u hd
    obtain ⟨l, hl⟩ := evaluatedUpTo_mono wz S T CAP (show d.k ≤ candCount S CAP by rw [← (hS d u hd).2.1]; exact hd.ok.kLe)
    rw [hL, hl]; simp
  refine searchLoop_rule (P := SearchPoint S T CAP wz R c) (R := SearchResult S T CAP wz R L) ?_ ?_ ?_ ?_ n c s h hn
  · intro d u hd hl
    have := mt hd.ok.last_iff.2 hl
    have := hd.ok.kLe
    omega
  · intro d u hd hs
    rw [hskip d u hd] at hs
    have hp : isEvaluated wz S T CAP d.k = false := by simpa using hs
    have hEe := hE d u hd
    simp [hp] at hEe
    have htr : AnswersTracked S T CAP wz R (evaluatedUpTo wz S T CAP d.k) (u.enterCandidate d) := by
      rw [hEe]
      exact ⟨hd.tr.wz, hd.tr.rep, hd.tr.cands, hd.tr.emits, hd.tr.zero, fun h => ⟨(hd.tr.best h).ex, (hd.tr.best h).em⟩⟩
    refine ⟨fun hl => ?_, fun hl => ?_⟩
    · rw [hlast d u hd hl] at htr
      obtain ⟨h1, h2⟩ := hcur d u hd hl
      exact finishSearch_result htr hd.tt h1 h2
    · exact ⟨hd.ok.next hl, by rw [hd.same]; rfl, hd.st, hd.tt, hd.cp, by simpa [Search.next] using htr⟩
  · intro d u hd hs h0
    exfalso
    rw [hskip d u hd] at hs
    have hp : isEvaluated wz S T CAP d.k = true := by simpa using hs
    have hEe := hE d u hd
    have hpl := hpre d u hd
    rw [hEe] at hpl
    simp [hp] at hpl
    rw [hd.tr.rep, List.drop_eq_nil_iff] at h0
    omega
  · intro d u r rs hd hs h0
    rw [hskip d u hd] at hs
    have hp : isEvaluated wz S T CAP d.k = true := by simpa using hs
    have hEe := hE d u hd
    have hpl := hpre d u hd
    simp [hp] at hEe
    have hj : (evaluatedUpTo wz S T CAP (d.k - 1)).length < L.length := by rw [hEe] at hpl; simp at hpl; omega
    have hrep := hd.tr.rep
    rw [h0] at hrep
    have hRj : R[(evaluatedUpTo wz S T CAP (d.k - 1)).length]? = some r := by
      have := congrArg (fun l => l[0]?) hrep
      simpa using this.symm
    have hrs : rs = R.drop ((evaluatedUpTo wz S T CAP (d.k - 1)).length + 1) := by
      have := congrArg (fun l => l.drop 1) hrep
      simpa using this
    have hrok : r.ok = true := hok r (by
      rw [List.mem_iff_getElem?]
      exact ⟨_, by rw [List.getElem?_take, if_pos hj]; exact hRj⟩)
    generalize hEp : evaluatedUpTo wz S T CAP (d.k - 1) = Lp at *
    obtain ⟨e1, e2, e3⟩ := hS d u hd
    have htrp := hd.tr
    rw [hEp] at htrp
    have hkk := hd.ok.kLe
    have hlenp : Lp.length ≤ d.k - 1 := by
      rw [← hEp, evaluatedUpTo]
      refine Nat.le_trans (List.length_filter_le _ _) (by simp)
    have hnw := hd.ok.nCands_word
    have hc1 : (u.wsCands + 1).toNat = u.wsCands.toNat + 1 := toNat_add_one (by have := htrp.cands; omega)
    have htr : AnswersTracked S T CAP wz R (evaluatedUpTo wz S T CAP d.k) ((u.atAnswer d rs).takeReply d r) := by
      rw [hEe]
      exact takeReply_track (v := u.atAnswer d rs) htrp.wz hrs htrp.cands (by omega) htrp.emits (fun h => htrp.zero h)
        (fun h => ⟨(htrp.best h).ex, (htrp.best h).em⟩) hRj hrok e1 e3 hd.ok.kPos (by omega)
    have hcurk : ((u.atAnswer d rs).takeReply d r).wsCurK = BitVec.ofNat 32 d.k ∧ ((u.atAnswer d rs).takeReply d r).wsCurW = BitVec.ofNat 32 d.width := by
      rcases (u.atAnswer d rs).takeReply_cases d r with ⟨hr, -⟩ | ⟨-, hi, ht⟩ | ⟨-, hi1, hi2, ht⟩
      · rw [hrok] at hr; cases hr
      · rw [ht]; exact ⟨rfl, rfl⟩
      · rw [ht]; exact ⟨rfl, rfl⟩
    refine ⟨fun h => absurd h (by simp [hrok]), fun _ hl => ?_, fun _ hl => ?_⟩
    · rw [hlast d u hd hl] at htr
      obtain ⟨h1, h2⟩ := hcur d u hd hl
      exact finishSearch_result htr hd.tt (by rw [hcurk.1]; exact h1) (by rw [hcurk.2]; exact h2)
    · refine ⟨?_, by rw [hd.same]; rfl, hd.st, hd.tt, hd.cp, by simpa [Search.next] using htr⟩
      rw [State.takeReply_cfg]
      exact hd.ok.next hl

end Sys2Proof.Machine
end

