-- ==== Sys2Proof/Machine/Assembler.lean ====
section
/-! DEFINITION. The text form of a command list (spec/30_encoding.md R88, R89): from lines of text to descriptors in data
memory. A text is a list of characters. -/

namespace Sys2Proof.Machine

open Sys2Proof

/-- Why a text is no program (log 26). -/
inductive AsmError where
  /-- A statement or a label stands before any `.base`. -/
  | noBase
  /-- A line that starts with a dot is no `.base` with one address. -/
  | badDirective
  /-- The first word of a statement is no mnemonic of 30_encoding.md R83. -/
  | unknownMnemonic
  /-- An operand is not of the form key=value, or its key is none of R88's. -/
  | badOperand
  /-- The mnemonic does not use the key (R88). -/
  | unusedKey
  /-- A key stands twice in one statement. -/
  | repeatedKey
  /-- A value is neither decimal nor 0x hexadecimal, or does not fit 32 bits (R82). -/
  | badValue
  deriving DecidableEq, Repr

/-- A program: the address of the first descriptor, the descriptors with their addresses, and what the labels name. -/
structure Program where
  base : Nat
  items : List (Nat × Descriptor)
  labels : List (List Char × Nat)
  deriving DecidableEq, Repr

/-! ### Characters -/

/-- White space inside a line. -/
def isBlank (c : Char) : Bool := decide (c = ' ') || decide (c = '\t') || decide (c = '\r')

/-- The parts of a text between the characters equal to `sep`. -/
def splitAtChar (sep : Char) : List Char → List (List Char)
  | [] => [[]]
  | c :: cs =>
    match splitAtChar sep cs with
    | [] => [[c]]
    | w :: ws => if c = sep then [] :: w :: ws else (c :: w) :: ws

/-- A text without the white space at its ends. -/
def trim (t : List Char) : List Char := ((t.dropWhile isBlank).reverse.dropWhile isBlank).reverse

/-- The value of a digit, at most 15. -/
def digitValue (c : Char) : Option Nat :=
  if 48 ≤ c.toNat ∧ c.toNat ≤ 57 then some (c.toNat - 48)
  else if 97 ≤ c.toNat ∧ c.toNat ≤ 102 then some (c.toNat - 87)
  else if 65 ≤ c.toNat ∧ c.toNat ≤ 70 then some (c.toNat - 55)
  else none

/-- The number that digits of a radix write, after `n`. -/
def digitsValue (radix : Nat) : Nat → List Char → Option Nat
  | n, [] => some n
  | n, c :: cs =>
    match digitValue c with
    | some d => if d < radix then digitsValue radix (radix * n + d) cs else none
    | none => none

/-- A value: "decimal or 0x hexadecimal" (30_encoding.md R88), of 32 bits. -/
def parseValue (t : List Char) : Except AsmError Nat :=
  let v := match t with
    | [] => none
    | ['0', 'x'] => none
    | '0' :: 'x' :: ds => digitsValue 16 0 ds
    | ds => digitsValue 10 0 ds
  match v with
  | some n => if isWord n then .ok n else .error .badValue
  | none => .error .badValue

/-! ### Statements -/

/-- The mnemonics with their opcodes (30_encoding.md R83). -/
def mnemonicTable : List (List Char × Nat) :=
  [("END".toList, 0), ("DIFFUSE".toList, 1), ("SEQ_ENC".toList, 2), ("SEQ_DEC".toList, 3), ("STR_ENC".toList, 4),
   ("STR_DEC".toList, 5), ("RESOLVE".toList, 6), ("RASTER".toList, 7), ("WSEARCH".toList, 8)]

/-- The keys with the words of their fields (30_encoding.md R81, R88). -/
def keyTable : List (List Char × Nat) :=
  [("src".toList, 1), ("dst".toList, 2), ("w".toList, 3), ("h".toList, 4), ("f".toList, 5), ("fw".toList, 6),
   ("fh".toList, 7), ("pal".toList, 8), ("pallen".toList, 9), ("rw".toList, 10), ("scratch".toList, 11),
   ("scrlen".toList, 12), ("log".toList, 13), ("loglen".toList, 14)]

/-- The words a command uses, by opcode (30_encoding.md R86). -/
def fieldUse (opc : Nat) : List Nat :=
  ([[], [1, 2, 3, 4], [1, 2, 3, 4, 5], [1, 2, 3, 4, 5, 8, 9], [1, 2, 3, 4, 5], [1, 2, 3, 4, 6, 7, 8, 9],
    [1, 2, 3, 4, 8, 9], [1, 2, 3, 4, 10], [1, 5, 6, 7, 8, 9, 11, 12, 13, 14]] : List (List Nat)).getD opc []

/-- One key=value, as a word number and its value. -/
def parseOperand (opc : Nat) (t : List Char) : Except AsmError (Nat × Nat) :=
  match splitAtChar '=' t with
  | [k, v] =>
    match keyTable.lookup (trim k) with
    | some j => if (fieldUse opc).contains j then (parseValue (trim v)).map (fun n => (j, n)) else .error .unusedKey
    | none => .error .badOperand
  | _ => .error .badOperand

/-- The operands of a statement, each key at most once. -/
def parseOperands (opc : Nat) : List (List Char) → Except AsmError (List (Nat × Nat))
  | [] => .ok []
  | t :: ts => do
    let kv ← parseOperand opc t
    let rest ← parseOperands opc ts
    if rest.any (fun q => q.1 = kv.1) then .error .repeatedKey else .ok (kv :: rest)

/-- A statement, without its label: one mnemonic, one descriptor (30_encoding.md R89); an omitted key is 0 (R88). -/
def parseStatement (t : List Char) : Except AsmError Descriptor := do
  let mnemonic := t.takeWhile (fun c => !isBlank c)
  let operands := trim (t.dropWhile (fun c => !isBlank c))
  match mnemonicTable.lookup mnemonic with
  | none => .error .unknownMnemonic
  | some opc =>
    let kvs ← parseOperands opc (if operands = [] then [] else splitAtChar ',' operands)
    .ok (Descriptor.ofWords (fun j => if j = 0 then BitVec.ofNat 32 opc else BitVec.ofNat 32 ((kvs.lookup j).getD 0)))

/-! ### Programs -/

/-- What the lines so far have given, and the address of the next statement. -/
structure Assembly where
  next : Option Nat
  program : Program
  deriving DecidableEq, Repr

/-- The `.base` of a line: the next statement assembles there (30_encoding.md R88). DESIGN CHOICE, safe (log 26): white space
between `.base` and its address may be missing, and a later `.base` may lead back to addresses already used. -/
def Assembly.setBase (a : Assembly) (t : List Char) : Except AsmError Assembly :=
  if t.take 5 = ".base".toList then
    (parseValue (trim (t.drop 5))).map (fun b =>
      { next := some b, program := { a.program with base := if a.next.isNone then b else a.program.base } })
  else .error .badDirective

/-- A label names the address at which the next statement would stand (30_encoding.md R88). DESIGN CHOICE, safe (log 26): any
text without a colon, a semicolon or a dot at its start is a label, the empty one and one with blanks inside too; a label
that stands twice keeps both entries. -/
def Assembly.addLabel (a : Assembly) (l : List Char) : Except AsmError Assembly :=
  match a.next with
  | some n => .ok { a with program := { a.program with labels := a.program.labels ++ [(l, n)] } }
  | none => .error .noBase

/-- A statement assembles at the next address, and the one after it 64 bytes further (30_encoding.md R88). DESIGN CHOICE, safe
(log 26): an address B + 64·i that is no multiple of 4, or that passes MEM_SIZE or 2^32, is no assembler error; only the `.base`
value itself is held to 32 bits. -/
def Assembly.addStatement (a : Assembly) (t : List Char) : Except AsmError Assembly :=
  if t = [] then .ok a
  else match a.next with
    | none => .error .noBase
    | some n => (parseStatement t).map (fun d =>
        { next := some (n + 64), program := { a.program with items := a.program.items ++ [(n, d)] } })

/-- One line: `;` starts a comment; a `.base`, or a label and a statement, each of which may be missing. DESIGN CHOICE, safe (log
26): a label alone names the address at which a statement on its line would stand, so before a `.base` line it names the
address that the earlier `.base` gives; a line with two colons is read as a statement, so it is an error. -/
def Assembly.addLine (a : Assembly) (line : List Char) : Except AsmError Assembly :=
  let t := trim (line.takeWhile (fun c => decide (c ≠ ';')))
  match t with
  | '.' :: _ => a.setBase t
  | _ =>
    match splitAtChar ':' t with
    | [l, rest] => do (← a.addLabel (trim l)).addStatement (trim rest)
    | _ => a.addStatement t

/-- The lines in order. -/
def Assembly.addLines : List (List Char) → Assembly → Except AsmError Assembly
  | [], a => .ok a
  | l :: ls, a => do Assembly.addLines ls (← a.addLine l)

/-- The program a text assembles to. -/
def assemble (text : List Char) : Except AsmError Program :=
  (Assembly.addLines (splitAtChar '\n' text) { next := none, program := { base := 0, items := [], labels := [] } }).map
    (fun a => a.program)

/-- The descriptors stored at their addresses. DESIGN CHOICE, safe (log 26): in the order of the text, so that where two overlap
the later one's bytes stand, and at whatever address each has, MEM_SIZE or 2^32 and beyond too. -/
def Program.load (p : Program) (m : Memory) : Memory := p.items.foldl (fun m i => m.writeBytes i.1 i.2.toBytes) m

end Sys2Proof.Machine
end

