-- ==== Sys2Proof/Tests/Slice0.lean ====
section
/-! SUPPORT. Tests of the model, their expected results from spec/95_test_vectors.md and the rules, and for each
statement with hypotheses a state and operands that meet them. -/

set_option maxRecDepth 100000

namespace Sys2Proof.Tests

open Sys2Proof Sys2Proof.Machine Sys2Proof.Claims

/-! ### Helpers -/

/-- A memory with these runs of bytes written. -/
def memOf (l : List (Nat × List Nat)) : Memory :=
  l.foldl (fun m p => m.writeBytes p.1 (p.2.map (BitVec.ofNat 8))) []

/-- The parameters of 95_test_vectors.md: MEM_SIZE = 0x10000, DW_MAX = 65535. -/
def vectors : Config := { memSize := 0x10000, dwMax := 65535, pxsBase := 0x40000000 }

/-- An idle machine with this memory. -/
def idleWith (m : Memory) : State := { State.reset with cfg := vectors, mem := m }

/-- A run about to fetch at address 0. -/
def running (m : Memory) : State := { idleWith m with phase := .fetch }

/-- The next state, if the outcome is one. -/
def after : Host.Outcome State Fault Refusal → State
  | .next s => s
  | .fault _ => State.reset
  | .refused _ => State.reset

/-- The outcome is a next state. -/
def ran : Host.Outcome State Fault Refusal → Bool
  | .next _ => true
  | .fault _ => false
  | .refused _ => false

theorem eq_next_of_ran {o : Host.Outcome State Fault Refusal} (h : ran o = true) : o = .next (after o) := by
  cases o with
  | next s => rfl
  | fault _ => cases h
  | refused _ => cases h

/-- RES_W, RES_H, RES_WASTE. -/
def res (s : State) : Nat × Nat × Nat := (s.resW.toNat, s.resH.toNat, s.resWaste.toNat)

/-- The outcome is a next state with this error and this memory, CMD_PTR and CMD_COUNT unchanged. -/
def errs (o : Host.Outcome State Fault Refusal) (s : State) (code : ErrCode) (info : Nat) : Bool :=
  ran o && decide ((after o).errCode = code) && decide ((after o).errInfo.toNat = info) && (after o).err &&
    decide ((after o).mem = s.mem) && decide ((after o).cmdPtr = s.cmdPtr) && decide ((after o).cmdCount = s.cmdCount)

/-- n bytes of 00. -/
def zeros (n : Nat) : List Nat := List.replicate n 0

/-! ### WellFormed: every operand position is checked, at the first number that does not fit -/

def tooBig : Nat := 2 ^ 32

def topWord : Nat := 2 ^ 32 - 1

theorem test_wellFormed_diffuse_seqEnc_strEnc_raster :
    [Instr.diffuse tooBig 0 0 0, .diffuse 0 tooBig 0 0, .diffuse 0 0 tooBig 0, .diffuse 0 0 0 tooBig,
      .seqEnc tooBig 0 0 0 0, .seqEnc 0 tooBig 0 0 0, .seqEnc 0 0 tooBig 0 0, .seqEnc 0 0 0 tooBig 0,
      .seqEnc 0 0 0 0 tooBig, .strEnc tooBig 0 0 0 0, .strEnc 0 tooBig 0 0 0, .strEnc 0 0 tooBig 0 0,
      .strEnc 0 0 0 tooBig 0, .strEnc 0 0 0 0 tooBig, .raster tooBig 0 0 0 0, .raster 0 tooBig 0 0 0,
      .raster 0 0 tooBig 0 0, .raster 0 0 0 tooBig 0, .raster 0 0 0 0 tooBig].all
      (fun i => !i.wellFormed) = true := by decide

theorem test_wellFormed_seqDec_strDec_resolve :
    [Instr.seqDec tooBig 0 0 0 0 0 0, .seqDec 0 tooBig 0 0 0 0 0, .seqDec 0 0 tooBig 0 0 0 0,
      .seqDec 0 0 0 tooBig 0 0 0, .seqDec 0 0 0 0 tooBig 0 0, .seqDec 0 0 0 0 0 tooBig 0, .seqDec 0 0 0 0 0 0 tooBig,
      .strDec tooBig 0 0 0 0 0 0 0, .strDec 0 tooBig 0 0 0 0 0 0, .strDec 0 0 tooBig 0 0 0 0 0,
      .strDec 0 0 0 tooBig 0 0 0 0, .strDec 0 0 0 0 tooBig 0 0 0, .strDec 0 0 0 0 0 tooBig 0 0,
      .strDec 0 0 0 0 0 0 tooBig 0, .strDec 0 0 0 0 0 0 0 tooBig,
      .resolve tooBig 0 0 0 0 0, .resolve 0 tooBig 0 0 0 0, .resolve 0 0 tooBig 0 0 0, .resolve 0 0 0 tooBig 0 0,
      .resolve 0 0 0 0 tooBig 0, .resolve 0 0 0 0 0 tooBig].all (fun i => !i.wellFormed) = true := by decide

theorem test_wellFormed_wsearch :
    [Instr.wsearch tooBig 0 0 0 0 0 0 0 0 0, .wsearch 0 tooBig 0 0 0 0 0 0 0 0, .wsearch 0 0 tooBig 0 0 0 0 0 0 0,
      .wsearch 0 0 0 tooBig 0 0 0 0 0 0, .wsearch 0 0 0 0 tooBig 0 0 0 0 0, .wsearch 0 0 0 0 0 tooBig 0 0 0 0,
      .wsearch 0 0 0 0 0 0 tooBig 0 0 0, .wsearch 0 0 0 0 0 0 0 tooBig 0 0, .wsearch 0 0 0 0 0 0 0 0 tooBig 0,
      .wsearch 0 0 0 0 0 0 0 0 0 tooBig].all (fun i => !i.wellFormed) = true := by decide

theorem test_wellFormed_top_word :
    [Instr.endList, .diffuse topWord topWord topWord topWord, .strDec topWord topWord topWord topWord topWord topWord
      topWord topWord, .wsearch topWord topWord topWord topWord topWord topWord topWord topWord topWord topWord].all
      (fun i => i.wellFormed) = true := by decide

/-! ### Decoding: the bytes of 95_test_vectors.md §3 and 30_encoding.md R90 -/

def bytesOf (l : List Nat) : List Byte := l.map (BitVec.ofNat 8)

/-- P1. -/
def wordsDiffuse : List Nat := [1,0,0,0, 0,0x10,0,0, 0,0x20,0,0, 2,0,0,0, 2,0,0,0] ++ zeros 44

/-- R90. -/
def wordsSeqEnc : List Nat := [2,0,0,0, 0,0x10,0,0, 0,0x20,0,0, 2,0,0,0, 4,0,0,0, 2,0,0,0] ++ zeros 40

/-- P2. -/
def wordsSeqDec : List Nat :=
  [3,0,0,0, 0,0x11,0,0, 0,0x12,0,0, 4,0,0,0, 2,0,0,0, 2,0,0,0, 0,0,0,0, 0,0,0,0, 0,0x18,0,0, 4,0,0,0] ++ zeros 24

/-- P3. -/
def wordsStrEnc : List Nat := [4,0,0,0, 0,0x10,0,0, 0,0x11,0,0, 2,0,0,0, 6,0,0,0, 3,0,0,0] ++ zeros 40

/-- P3. -/
def wordsWsearch : List Nat :=
  [8,0,0,0, 0,0x11,0,0, 0,0,0,0, 0,0,0,0, 0,0,0,0, 3,0,0,0, 2,0,0,0, 2,0,0,0] ++
  [0,0x18,0,0, 3,0,0,0, 0,0,0,0, 0,0x30,0,0, 0x20,0,0,0, 0,0x20,0,0, 0x40,0,0,0, 0,0,0,0]

/-- P3. -/
def wordsStrDec : List Nat :=
  [5,0,0,0, 0,0x30,0,0, 0,0x12,0,0, 3,0,0,0, 4,0,0,0, 0,0,0,0, 2,0,0,0, 2,0,0,0, 0,0x18,0,0, 3,0,0,0] ++ zeros 24

/-- P2. -/
def wordsResolve : List Nat :=
  [6,0,0,0, 0,0x10,0,0, 0,0x13,0,0, 2,0,0,0, 4,0,0,0] ++ zeros 12 ++ [0,0x18,0,0, 4,0,0,0] ++ zeros 24

/-- P5. -/
def wordsRaster : List Nat :=
  [7,0,0,0, 0,8,0,0, 0x40,0,0,0, 0x40,0,0,0, 1,0,0,0] ++ zeros 20 ++ [0x40,0,0,0] ++ zeros 20

theorem test_decode_end : decodeBytes (bytesOf (zeros 64)) = .ok .endList := by decide

theorem test_decode_diffuse : decodeBytes (bytesOf wordsDiffuse) = .ok (.diffuse 0x1000 0x2000 2 2) := by decide

theorem test_decode_seqEnc : decodeBytes (bytesOf wordsSeqEnc) = .ok (.seqEnc 0x1000 0x2000 2 4 2) := by decide

theorem test_decode_seqDec :
    decodeBytes (bytesOf wordsSeqDec) = .ok (.seqDec 0x1100 0x1200 4 2 2 0x1800 4) := by decide

theorem test_decode_strEnc : decodeBytes (bytesOf wordsStrEnc) = .ok (.strEnc 0x1000 0x1100 2 6 3) := by decide

theorem test_decode_strDec :
    decodeBytes (bytesOf wordsStrDec) = .ok (.strDec 0x3000 0x1200 3 4 2 2 0x1800 3) := by decide

theorem test_decode_resolve :
    decodeBytes (bytesOf wordsResolve) = .ok (.resolve 0x1000 0x1300 2 4 0x1800 4) := by decide

theorem test_decode_raster : decodeBytes (bytesOf wordsRaster) = .ok (.raster 0x800 0x40 64 1 64) := by decide

theorem test_decode_wsearch :
    decodeBytes (bytesOf wordsWsearch) = .ok (.wsearch 0x1100 3 2 2 0x1800 3 0x3000 32 0x2000 64) := by decide

/-- 30_encoding.md R83, the table of 95_test_vectors.md §2.1. -/
theorem test_decode_table_words :
    (List.range 9).map (decodeTableWord 32) =
      [some .endList, some (.diffuse 0 0 0 0), some (.seqEnc 0 0 0 0 0), some (.seqDec 0 0 0 0 0 0 0),
        some (.strEnc 0 0 0 0 0), some (.strDec 0 0 0 0 0 0 0 0), some (.resolve 0 0 0 0 0 0), some (.raster 0 0 0 0 0),
        some (.wsearch 0 0 0 0 0 0 0 0 0 0)] := by decide

/-- The reserved rows of 95_test_vectors.md §2.1, in the decoder's order of checks. -/
theorem test_decode_reserved :
    [0x00000009, 0x000000FF, 0x00000109, 0x00000100].map (fun w => decodeBytes (leBytes 64 w)) =
      [.error (.rejected (.badOpcode 9)), .error (.rejected (.badOpcode 0xFF)), .error (.rejected (.badOpcode 9)),
        .error (.rejected .cmdReserved)] ∧
    decodeBytes (bytesOf (zeros 60 ++ [1,0,0,0])) = .error (.rejected .rsvdNonzero) ∧
    decodeBytes (bytesOf (zeros 63)) = .error (.truncated 63) := by decide

/-- "unused fields ignored". -/
theorem test_decode_unused_fields :
    decodeBytes (bytesOf (zeros 4 ++ List.replicate 56 0xFF ++ zeros 4)) = .ok .endList := by decide

/-- The host's fetch word reaches `exec` as the first command after reset. -/
theorem test_withFetchWord_runs : (after (step (State.reset.withFetchWord 32 0))).done = true := by decide

/-! ### The text form (30_encoding.md R88 to R90) -/

/-- R90's text, with a base, a label and a comment around it, gives R90's bytes at the base. -/
theorem test_assemble_example :
    ((assemble ".base 0x40\nx: SEQ_ENC src=0x1000, dst=0x2000, w=2, h=4, f=2 ; R90".toList).map
      (fun p => (p.labels, (p.load []).readBytes 0x40 64))).toOption =
      some ([(['x'], 0x40)], bytesOf wordsSeqEnc) := by decide

/-- An omitted key is 0; the second statement stands 64 bytes further; a key the mnemonic does not use is an error. -/
theorem test_assemble_statements :
    ((assemble ".base 16\nRASTER rw=7\nEND".toList).map
      (fun p => p.items.map (fun i => (i.1, (decode i.2).toOption)))).toOption =
      some [(16, some (.raster 0 0 0 0 7)), (80, some .endList)] ∧
    parseStatement "DIFFUSE rw=1".toList = .error .unusedKey ∧ parseStatement "NOP".toList = .error .unknownMnemonic := by
  decide

/-- The assembler's field table and the statements' are transcribed apart. -/
theorem test_field_use : (List.range 9).map fieldUse = (List.range 9).map usesWord := by decide

/-! ### Commands: one step each on small memories -/

/-- "empty run": DONE, CMD_PTR 0, CMD_COUNT 0. -/
theorem test_end_step :
    let t := after (step (running (memOf [(0, zeros 64)])))
    t.done = true ∧ t.busy = false ∧ t.cmdPtr = 0 ∧ t.cmdCount = 0 := by decide

/-- "Full pixels" of §2.3. -/
def fullPixels : State :=
  running (memOf [(0x1000, [0x12,0x34,0,0xFF,0x80,0x80,0xFF,0xFF,0,0xA0,0,0,0,1,0xFF,0])])

theorem test_diffuse_full_pixels :
    let t := after (exec (.diffuse 0x1000 0x2000 2 1) fullPixels)
    t.mem.readBytes 0x2000 8 = bytesOf [0x12,0,0x80,0xFF,0,0,0,0xFF] ∧ res t = (2, 1, 0) := by decide

/-- P1: the 2×2 image with a carry, a clamp and an error to the row below. -/
theorem test_diffuse_two_rows :
    (after (exec (.diffuse 0x1000 0x2000 2 2) (running (memOf [(0x1000,
      [0x00,0xFF,0xFF,0xFF,0x00,0x00,0x80,0x00,0x00,0xA0,0xFF,0xF0,0x00,0x01,0x80,0x00] ++
      [0x00,0x80,0x12,0x34,0x00,0xFF,0x80,0x00,0x00,0x40,0xFF,0xFF,0x00,0xFF,0x80,0x00])])))).mem.readBytes 0x2000 16 =
      bytesOf [0x00,0xFF,0x00,0x80,0x01,0xFF,0x00,0x80,0x00,0x12,0x00,0x80,0x00,0xFF,0x01,0x80] := by decide

/-- SRC holds 00 01 02 …. -/
def counting (n : Nat) : State := running (memOf [(0x1000, List.range n)])

theorem test_seqEnc_w2_h3_f3 :
    let t := after (exec (.seqEnc 0x1000 0x2000 2 3 3) (counting 6))
    t.mem.readBytes 0x2000 6 = bytesOf [0,2,4,1,3,5] ∧ res t = (6, 1, 0) ∧ t.cmdPtr = 64 ∧ t.cmdCount = 1 := by decide

theorem test_seqEnc_errors :
    errs (exec (.seqEnc 0x1000 0x2000 2 4 3) (counting 8)) (counting 8) .dimMismatch 5 = true ∧
    errs (exec (.seqEnc 0x1000 0x1004 2 4 2) (counting 8)) (counting 8) .overlap 2 = true ∧
    errs (exec (.seqEnc 0xFFFC 0x2000 2 4 2) (counting 8)) (counting 8) .range 1 = true := by decide

theorem test_strEnc_w2_h3_f3 :
    let t := after (exec (.strEnc 0x1000 0x2000 2 3 3) (counting 6))
    t.mem.readBytes 0x2000 6 = bytesOf [0,2,4,1,3,5] ∧ res t = (3, 2, 0) := by decide

theorem test_strEnc_errors :
    errs (exec (.strEnc 0x1000 0x2000 2 4 0) (counting 8)) (counting 8) .empty 5 = true ∧
    errs (exec (.strEnc 0x1000 0x2000 0 4 0) (counting 8)) (counting 8) .empty 3 = true := by decide

/-- The palette of §2.5: entry i is (0x10·i, 0x10·i, 0x10·i, 0xFF). -/
def greys : List Nat := (List.range 8).flatMap (fun i => [16 * i, 16 * i, 16 * i, 255])

def encoded : State := running (memOf [(0x1000, [0,4,1,5,2,6,3,7]), (0x3000, greys)])

theorem test_seqDec_vector :
    let t := after (exec (.seqDec 0x1000 0x2000 4 2 2 0x3000 8) encoded)
    t.mem.readBytes 0x2000 32 = bytesOf greys ∧ res t = (2, 4, 0) := by decide

theorem test_seqDec_errors :
    errs (exec (.seqDec 0x1000 0x2000 3 2 2 0x3000 8) encoded) encoded .dimMismatch 5 = true ∧
    errs (exec (.seqDec 0x1000 0x2000 4 2 2 0xFFF0 8) encoded) encoded .range 8 = true ∧
    errs (exec (.seqDec 0x1000 0x3010 4 2 2 0x3000 8) encoded) encoded .overlap 2 = true := by decide

theorem test_strDec_vector :
    let t := after (exec (.strDec 0x1000 0x2000 2 4 2 2 0x3000 8) encoded)
    t.mem.readBytes 0x2000 32 = bytesOf greys ∧ res t = (2, 4, 0) := by decide

theorem test_strDec_errors :
    errs (exec (.strDec 0x1000 0x2000 3 1 2 1 0x3000 8) encoded) encoded .dimMismatch 6 = true ∧
    errs (exec (.strDec 0x1000 0x2000 2 4 0 2 0x3000 8) encoded) encoded .empty 6 = true := by decide

theorem test_resolve_vector :
    let t := after (exec (.resolve 0x1000 0x2000 2 1 0x3000 8) (running (memOf [(0x1000, [7, 0]), (0x3000, greys)])))
    t.mem.readBytes 0x2000 8 = bytesOf [0x70,0x70,0x70,0xFF,0,0,0,0xFF] ∧ res t = (2, 1, 0) := by decide

/-- SRC = 07 08: INDEX_RANGE at offset 1; PALLEN 0 and 257. -/
theorem test_resolve_errors :
    let s := running (memOf [(0x1000, [7, 8]), (0x3000, greys)])
    errs (exec (.resolve 0x1000 0x2000 2 1 0x3000 8) s) s .indexRange 1 = true ∧
    errs (exec (.resolve 0x1000 0x2000 2 1 0x3000 0) s) s .paletteLen 9 = true ∧
    errs (exec (.resolve 0x1000 0x2000 2 1 0x3000 257) s) s .paletteLen 9 = true := by decide

/-- The raster of the "Scratch tail" of §2.7 at k = 2; the byte after it keeps EE. -/
theorem test_raster_padding :
    let t := after (exec (.raster 0x1000 0x4000 3 1 2) (running (memOf [(0x1000, [1,2,3]), (0x4000, [0xEE,0xEE,0xEE,0xEE,0xEE])])))
    t.mem.readBytes 0x4000 5 = bytesOf [1,2,3,0,0xEE] ∧ res t = (2, 2, 1) := by decide

theorem test_raster_errors :
    errs (exec (.raster 0x1000 0x2000 4 80 0) (counting 1)) (counting 1) .empty 10 = true ∧
    errs (exec (.raster 0x1000 0x1007 4 2 8) (counting 8)) (counting 8) .overlap 2 = true := by decide

/-- The common setup of §2.7 with F Wf Hf = 2 2 2 and CAP = 10; the answers at hand are the sizes. -/
def searching (answers : List EncReply) : State :=
  { running (memOf [(0x1000, [0,1,2,3,0,1,2,3])]) with wsCap := 10, replies := answers }

def size (n : Nat) : EncReply := { ok := true, value := BitVec.ofNat 32 n }

def search : Instr := .wsearch 0x1000 2 2 2 0x3000 4 0x4000 0x1000 0x5000 0x400

/-- The first row of §2.7. -/
theorem test_wsearch_example :
    let t := after (exec search (searching [size 50, size 50, size 40]))
    t.mem.readBytes 0x5000 32 = bytesOf ([4,0,0,0, 2,0,0,0, 0x32,0,0,0, 1,0,0,0] ++ [0xA,0,0,0, 1,0,0,0, 0x28,0,0,0, 3,0,0,0]) ∧
    [t.wsEmits, t.wsCands, t.wsBestW, t.wsBestH, t.wsBestSize, t.wsCurW, t.wsCurK] = [2, 3, 10, 1, 40, 10, 3] ∧
    res t = (10, 1, 2) ∧
    t.sent.filterMap (fun m => match m with | .request _ => none | .verdict k w _ => some (k, w)) =
      [(true, 4), (false, 8), (true, 10)] := by decide

/-- "ENC_ERROR at k = 2". -/
theorem test_wsearch_enc_error :
    let t := after (exec search (searching [size 50, { ok := false, value := 0xBEEF }]))
    t.errCode = .encError ∧ t.errInfo = 0xBEEF ∧ t.busy = false ∧ t.cmdPtr = 0 ∧ res t = (0, 0, 0) ∧
    [t.wsEmits, t.wsCands, t.wsBestW, t.wsBestH, t.wsBestSize, t.wsCurW, t.wsCurK] = [1, 2, 4, 2, 50, 8, 2] := by decide

/-! ### Registers: the K vectors of 95_test_vectors.md §2.2 -/

/-- K1 to K4. -/
theorem test_reset_reads :
    ((List.range 64).map (fun i => (State.reset.readReg (4 * i) 4).toNat)) =
      [0x50585331, 0, 0, 0, 0, 0, 0, 0x000493E0] ++ zeros 56 := by decide

/-- K5, at PXS_BASE + 4. -/
theorem test_narrow_write_ignored :
    handle (.regWrite (vectors.pxsBase + 4) 1 1) (idleWith []) = .next (idleWith []) := rfl

/-- K6 and K7: the host starts an empty run with IRQ_EN, and clears DONE when it has ended. -/
theorem test_start_end_interrupt :
    let s0 := { idleWith (memOf [(0, zeros 64)]) with
      inputs := [.regWrite (vectors.pxsBase + 4) 4 3, .engineTurn, .regWrite (vectors.pxsBase + 8) 4 2] }
    let s2 := after (step (after (step s0)))
    s2.done = true ∧ s2.irqEn = true ∧ s2.irq = true ∧ s2.cmdCount = 0 ∧ (after (step s2)).done = false ∧
      (after (step s2)).irq = false := by decide

/-- K9: START sets IRQ_EN and WZ from the same write. K10: STATUS bit 2. K12: CTRL = 5 while BUSY. -/
theorem test_ctrl_and_status_writes :
    ({ idleWith [] with irqEn := true, wz := true }).writeReg 4 4 1 = running [] ∧
    ({ idleWith [] with err := true, errCode := .dimMismatch, errInfo := 5 }).writeReg 8 4 4 =
      { idleWith [] with errInfo := 5 } ∧
    ({ running [] with irqEn := true }).writeReg 4 4 5 = running [] := by decide

/-- 60_exceptions.md R200: STATUS shows the code in bits 15:8; BUSY and ENC_WAIT in bits 0 and 3 (10_state.md R25). -/
theorem test_status_word :
    ({ idleWith [] with err := true, errCode := .encError }).readReg 8 4 = 0x0A04 ∧
    (after (exec search (searching []))).readReg 8 4 = 0x9 := by decide

/-! ### Witnesses: a state and operands that meet each statement's hypotheses -/

theorem busy_running (m : Memory) : (running m).busy = true := rfl

theorem witness_EncodedCommandsDecode :
    (Instr.wsearch topWord 0 topWord 0 topWord 0 topWord 0 topWord 0).wellFormed = true := by decide

theorem witness_DecodedCommandsAreWellFormed :
    decode (Descriptor.ofBytes (bytesOf wordsWsearch)) =
      .ok (.wsearch 0x1100 3 2 2 0x1800 3 0x3000 32 0x2000 64) := by decide

/-- END, and END with its unused words filled. -/
def filled : Descriptor := Descriptor.ofWords (fun j => if j = 0 ∨ j = 15 then 0 else 0xFFFFFFFF)

theorem witness_UnusedFieldsIgnored :
    filled.cmd = Descriptor.zero.cmd ∧ (filled.rsvd = 0 ↔ Descriptor.zero.rsvd = 0) ∧
      (∀ j ∈ usesWord (Descriptor.zero.cmd.toNat % 256), filled.words[j]? = Descriptor.zero.words[j]?) := by decide

/-- A descriptor for each clause, at the boundary of its range; and a fetch of the first and of the last of them, the last
descriptor that fits, with another agent's write before it. -/
theorem witness_ReservedEncodingsFail :
    let d (cmd rsvd : Word) : Descriptor := { Descriptor.zero with cmd, rsvd }
    RejectedWith (d 0x109 1) .badOpcode 9 ∧ RejectedWith (d 0x108 1) .badDesc 0 ∧
      RejectedWith (d 0x08 0x80000000) .badDesc 15 ∧
    ((d 0x08 0).cmd.toNat % 256 ≤ 0x08 ∧ (d 0x08 0).cmd.toNat / 256 = 0 ∧ (d 0x08 0).rsvd = 0) ∧
    ∀ p ∈ [([9, 1] ++ zeros 58 ++ [1, 0, 0, 0], ErrCode.badOpcode, 9), ([8] ++ zeros 62 ++ [0x80], .badDesc, 15)],
      let s : State := { running (memOf [(0xFFC0, p.1)]) with cmdPtr := 0xFFC0, foreign := [(.host, 0xFFBF)] }
      Turn s s ∧ s.phase = .fetch ∧ s.cmdPtr % 4 = 0 ∧ s.cmdPtr + 64 ≤ s.cfg.memSize ∧
        RejectedWith (Descriptor.ofBytes (s.mem.readBytes s.cmdPtr 64)) p.2.1 p.2.2 ∧
        ∀ w ∈ s.foreign, Region.contains { base := s.cmdPtr, len := 64 } w.2 = false := by
  refine ⟨.inl (by decide), .inr (.inl (by decide)), .inr (.inr (by decide)), by decide, ?_⟩
  intro p hp
  simp only [List.mem_cons, List.not_mem_nil, or_false] at hp
  rcases hp with rfl | rfl
  · exact ⟨.inl ⟨rfl, rfl⟩, rfl, by decide, by decide, .inl (by decide), by decide⟩
  · exact ⟨.inl ⟨rfl, rfl⟩, rfl, by decide, by decide, .inr (.inr (by decide)), by decide⟩

/-- Both forms of the engine's turn. -/
theorem witness_Turn (m : Memory) :
    Turn (running m) (running m) ∧ Turn { running m with inputs := [.engineTurn, .reset] } { running m with inputs := [.reset] } :=
  ⟨.inl ⟨rfl, rfl⟩, .inr ⟨[.reset], rfl, rfl⟩⟩

/-- A misaligned pointer, and the first aligned one whose descriptor does not fit. -/
theorem witness_FetchChecks :
    let s (p : Nat) : State := { running [] with cmdPtr := p }
    Turn (s 0x102) (s 0x102) ∧ (s 0x102).phase = .fetch ∧ (s 0x102).cmdPtr % 4 ≠ 0 ∧
    Turn (s 0xFFC4) (s 0xFFC4) ∧ (s 0xFFC4).phase = .fetch ∧ (s 0xFFC4).cmdPtr % 4 = 0 ∧
      (s 0xFFC4).cfg.memSize < (s 0xFFC4).cmdPtr + 64 :=
  ⟨.inl ⟨rfl, rfl⟩, rfl, by decide, .inl ⟨rfl, rfl⟩, rfl, by decide, by decide⟩

/-- R90's command, with another agent's write beside its regions. -/
def fetching : State := { running (memOf [(0, wordsSeqEnc)]) with foreign := [(.host, 0x1008)] }

theorem witness_StepRunsDecodedCommand :
    Turn fetching fetching ∧ fetching.phase = .fetch ∧ fetching.cmdPtr % 4 = 0 ∧
      fetching.cmdPtr + 64 ≤ fetching.cfg.memSize ∧
      decodeBytes (fetching.mem.readBytes fetching.cmdPtr 64) = .ok (.seqEnc 0x1000 0x2000 2 4 2) ∧
      (∀ w ∈ fetching.foreign, ∀ q ∈ { base := fetching.cmdPtr, len := 64 } ::
        (reads (.seqEnc 0x1000 0x2000 2 4 2) ++ writes (.seqEnc 0x1000 0x2000 2 4 2)), q.contains w.2 = false) :=
  ⟨.inl ⟨rfl, rfl⟩, rfl, rfl, by decide, by decide, by decide⟩

/-- The same with a write to the last byte of the source; writes to the last byte of a footprint and to the one behind it. -/
theorem witness_FootprintWritesAreRefused :
    let s : State := { fetching with foreign := [(.host, 0x1007)] }
    (Turn s s ∧ s.phase = .fetch ∧ s.cmdPtr % 4 = 0 ∧ s.cmdPtr + 64 ≤ s.cfg.memSize ∧
      decodeBytes (s.mem.readBytes s.cmdPtr 64) = .ok (.seqEnc 0x1000 0x2000 2 4 2) ∧ (Agent.host, 0x1007) ∈ s.foreign ∧
      ∃ q ∈ { base := s.cmdPtr, len := 64 } ::
        (reads (.seqEnc 0x1000 0x2000 2 4 2) ++ writes (.seqEnc 0x1000 0x2000 2 4 2)), q.contains 0x1007 = true) ∧
    let t : State := { running [] with footprint := [{ base := 0x40, len := 64 }] }
    t.busy = true ∧ 0x80 < t.cfg.memSize ∧ (∃ q ∈ t.footprint, q.contains 0x7F = true) ∧
      ∀ q ∈ t.footprint, q.contains 0x80 = false :=
  ⟨⟨.inl ⟨rfl, rfl⟩, rfl, rfl, by decide, by decide, by decide, by decide⟩, rfl, by decide, by decide, by decide⟩

/-- A WSEARCH (F Wf Hf = 2 2 2, PALLEN = 4) at address 0, and its source. -/
def listed : Memory :=
  memOf [(0, [8,0,0,0, 0,0x10,0,0, 0,0,0,0, 0,0,0,0, 0,0,0,0, 2,0,0,0, 2,0,0,0, 2,0,0,0] ++
    [0,0x30,0,0, 4,0,0,0, 0,0,0,0, 0,0x40,0,0, 0,0x10,0,0, 0,0x50,0,0, 0,4,0,0, 0,0,0,0]),
    (0x1000, [0,1,2,3,0,1,2,3])]

def firstSearch : Search := searchOf 0x1000 2 2 2 0x3000 4 0x4000 0x5000 10

/-- END, a search that waits, and a command that completes. -/
theorem witness_EngineAdvances :
    (let s := running (memOf [(0, zeros 64)]);
      s.phase = .fetch ∧ engineStep s = .next (after (engineStep s))) ∧
    ((searching []).phase = .fetch ∧
      engineStep { searching [] with mem := listed } = .next (after (engineStep { searching [] with mem := listed })) ∧
      (after (engineStep { searching [] with mem := listed })).phase = .execute firstSearch) ∧
    (let s := running (memOf [(0, wordsSeqEnc), (0x1000, List.range 8)]);
      s.phase = .fetch ∧ engineStep s = .next (after (engineStep s))) ∧
    (Turn (idleWith []) (idleWith []) ∧ (idleWith []).busy = false) ∧
    ({ running [] with inputs := [.reset] } : State).inputs = .reset :: [] :=
  ⟨⟨rfl, eq_next_of_ran (by decide)⟩, ⟨rfl, eq_next_of_ran (by decide), by decide⟩, ⟨rfl, eq_next_of_ran (by decide)⟩,
    ⟨.inl ⟨rfl, rfl⟩, rfl⟩, rfl⟩

theorem witness_ReadOnlyRegisters : (0x10 : Nat) ≠ 0x04 ∧ (0x10 : Nat) ≠ 0x08 ∧ (0x10 : Nat) ≠ 0x0C ∧ (0x10 : Nat) ≠ 0x1C := by
  decide

/-- Both ends of the reserved offsets. -/
theorem witness_ReservedOffsets : (0x48 ≤ 0x48 ∧ 0x48 ≤ 0xFC) ∧ (0x48 ≤ 0xFC ∧ 0xFC ≤ 0xFC) := by decide

/-- A narrow access, a misaligned one, one at the last byte; a read that is no read of STATUS, and one of STATUS during a
run; the addresses at both ends outside the register space. -/
theorem witness_UnansweredAccesses :
    (4 < 0x100 ∧ ((1 : Nat) ≠ 4 ∨ 4 % 4 ≠ 0)) ∧ (5 < 0x100 ∧ ((4 : Nat) ≠ 4 ∨ 5 % 4 ≠ 0)) ∧
      (0xFF < 0x100 ∧ ((4 : Nat) ≠ 4 ∨ 0xFF % 4 ≠ 0)) ∧ (0x0C : Nat) ≠ 0x08 ∧ (running []).busy = true ∧
      0x3FFFFFFF < (running []).cfg.pxsBase ∧ (running []).cfg.pxsBase + 0x100 ≤ 0x40000100 := by
  decide

theorem witness_StartARun :
    (3 : Word).getLsbD 0 = true ∧ (idleWith []).busy = false ∧ (running []).busy = true := by decide

theorem witness_IdleRegisterWrites : (idleWith []).busy = false ∧ (6 : Word).getLsbD 0 = false := by decide

theorem statusOk_running (m : Memory) : StatusOk (running m) where
  notBoth := by simp [running, idleWith, State.reset]
  code := by simp [running, idleWith, State.reset]
  busyClear := fun _ => ⟨rfl, rfl⟩

theorem witness_BusyRegisterWrites : StatusOk (running []) ∧ (running []).busy = true := ⟨statusOk_running [], rfl⟩

/-- A run at its second command, which goes on. -/
def goesOn : State := running (memOf [(0, wordsSeqEnc), (0x1000, List.range 8)])

theorem witness_RunParametersFixed :
    goesOn.busy = true ∧ step goesOn = .next (after (step goesOn)) ∧ (after (step goesOn)).busy = true :=
  ⟨rfl, eq_next_of_ran (by decide), by decide⟩

/-- A run that goes on, and one that ends. -/
theorem witness_InterruptLine :
    (StatusOk goesOn ∧ goesOn.busy = true ∧ engineStep goesOn = .next (after (engineStep goesOn))) ∧
    (let s : State := { running (memOf [(0, zeros 64)]) with irqEn := true };
      StatusOk s ∧ s.busy = true ∧ engineStep s = .next (after (engineStep s))) :=
  ⟨⟨statusOk_running _, rfl, eq_next_of_ran (by decide)⟩,
    ⟨(statusOk_running []).notBoth, (statusOk_running []).code, fun _ => ⟨rfl, rfl⟩⟩, rfl, eq_next_of_ran (by decide)⟩

theorem witness_EndEndsTheRun :
    exec .endList (running []) = .next (after (exec .endList (running []))) := rfl

/-- A check that fails, and the encoder's error. -/
def failing : State := running (memOf [(0, [9] ++ zeros 63)])

def waitingSearch : Search := firstSearch

def waiting (answers : List EncReply) : State := { after (exec search (searching [])) with replies := answers }

theorem waiting_phase (answers : List EncReply) : (waiting answers).phase = .execute waitingSearch := by
  have h : (after (exec search (searching []))).phase = .execute waitingSearch := by decide
  exact h

def encoderFails : EncReply := { ok := false, value := 0xBEEF }

theorem witness_ErrorsArePrecise :
    (failing.err = false ∧ engineStep failing = .next (after (engineStep failing)) ∧ (after (engineStep failing)).err = true ∧
      (after (engineStep failing)).errCode ≠ .encError) ∧
    (let s := waiting [encoderFails];
      s.err = false ∧ engineStep s = .next (after (engineStep s)) ∧ (after (engineStep s)).err = true) :=
  ⟨⟨rfl, eq_next_of_ran (by decide), by decide, by decide⟩, by decide, eq_next_of_ran (by decide), by decide⟩

/-- The two commands the statement names, and the first failing check at its boundary. -/
theorem witness_EncodeChecks :
    (Instr.strEnc 0 0 0 0 0 = .seqEnc 0 0 0 0 0 ∨ Instr.strEnc 0 0 0 0 0 = .strEnc 0 0 0 0 0) ∧
    errs (exec (.strEnc 0xFFF8 0x2000 2 4 2) (counting 8)) (counting 8) .range 1 = false ∧
    errs (exec (.strEnc 0xFFF9 0x2000 2 4 2) (counting 8)) (counting 8) .range 1 = true := by decide

/-- DIFFUSE: each check at its boundary, in the order of the list. -/
theorem witness_DiffuseChecks :
    let s : State := { fullPixels with cfg := { vectors with dwMax := 4 } }
    errs (exec (.diffuse 0x1000 0x2000 0 0) s) s .empty 3 = true ∧
    errs (exec (.diffuse 0x1000 0x2000 1 0) s) s .empty 4 = true ∧
    errs (exec (.diffuse 0x1000 0x2000 5 1) s) s .limit 3 = true ∧
    errs (exec (.diffuse 0xFFF8 0x2000 2 1) s) s .range 1 = true ∧
    errs (exec (.diffuse 0x1000 0xFFFC 2 1) s) s .range 2 = true ∧
    errs (exec (.diffuse 0x1000 0x100C 2 1) s) s .overlap 2 = true ∧
    ran (exec (.diffuse 0x1000 0x1010 2 1) s) = true ∧ (after (exec (.diffuse 0x1000 0x1010 2 1) s)).err = false := by
  decide

/-- SEQ_DEC: each check at its boundary, in the order of the list. -/
theorem witness_SeqDecChecks :
    let s := encoded
    let go (dst w h f pal n : Nat) := exec (.seqDec 0x1000 dst w h f pal n) s
    errs (go 0x2000 0 0 0 0x3000 8) s .empty 3 = true ∧ errs (go 0x2000 4 0 0 0x3000 8) s .empty 4 = true ∧
    errs (go 0x2000 4 2 0 0x3000 8) s .empty 5 = true ∧ errs (go 0x2000 4 2 3 0x3000 0) s .dimMismatch 5 = true ∧
    errs (go 0x2000 4 2 2 0x3000 257) s .paletteLen 9 = true ∧ errs (go 0xFFE1 4 2 2 0x3000 8) s .range 2 = true ∧
    errs (go 0x2000 4 2 2 0xFFE1 8) s .range 8 = true ∧ errs (go 0x1007 4 2 2 0x3000 8) s .overlap 2 = true ∧
    errs (go 0x2FE1 4 2 2 0x3000 8) s .overlap 2 = true ∧ errs (go 0x2FE0 4 2 2 0x3000 7) s .indexRange 7 = true ∧
    (after (go 0x2FE0 4 2 2 0x3000 8)).err = false := by decide

/-- STR_DEC: the checks that SEQ_DEC has not. -/
theorem witness_StrDecChecks :
    let s := encoded
    let go (fw fh : Nat) := exec (.strDec 0x1000 0x2000 2 4 fw fh 0x3000 8) s
    errs (go 0 0) s .empty 6 = true ∧ errs (go 1 0) s .empty 7 = true ∧ errs (go 3 1) s .dimMismatch 6 = true ∧
    (after (go 8 1)).err = false := by decide

/-- RESOLVE: a source past the end, and the last place where it fits. -/
theorem witness_ResolveChecks :
    let s := running (memOf [(0xFFFE, [7, 0]), (0x3000, greys)])
    errs (exec (.resolve 0xFFFF 0x2000 2 1 0x3000 8) s) s .range 1 = true ∧
    (after (exec (.resolve 0xFFFE 0x2000 2 1 0x3000 8) s)).err = false := by decide

/-- RASTER: T = 3, w = 2, so w·h = 4 bytes of destination. -/
theorem witness_RasterChecks :
    let s := counting 3
    let go (src dst : Nat) := exec (.raster src dst 3 1 2) s
    errs (go 0xFFFE 0x2000) s .range 1 = true ∧ errs (go 0x1000 0xFFFD) s .range 2 = true ∧
    errs (go 0x1000 0xFFD) s .overlap 2 = true ∧ (after (go 0x1000 0xFFC)).err = false := by decide

/-- WSEARCH: the errors of 95_test_vectors.md §2.7. -/
theorem witness_WsearchChecks :
    let s := searching []
    let go (f pal scr scrLen log logLen : Nat) (u : State) := exec (.wsearch 0x1000 f 2 2 0x3000 pal scr scrLen log logLen) u
    errs (go 0 4 0x4000 0x1000 0x5000 0x400 s) s .empty 5 = true ∧
    errs (go 2 4 0x4000 0x1000 0x5000 0x400 { s with wsCap := 0 }) { s with wsCap := 0 } .empty 0x11C = true ∧
    errs (go 2 4 0x4000 0x1000 0x5002 0x400 s) s .badDesc 13 = true ∧
    errs (go 2 0 0x4000 0x1000 0x5000 0x400 s) s .paletteLen 9 = true ∧
    errs (go 2 4 0x4000 9 0x5000 0x400 s) s .range 12 = true ∧
    errs (go 2 4 0x4000 10 0x5000 47 s) s .range 14 = true ∧
    errs (go 2 4 0x4000 0x1000 0x4100 0x400 s) s .overlap 11 = true ∧
    (after (go 2 4 0x4000 10 0x5000 48 s)).err = false := by decide

/-- The index scan stops at the first bad byte (the last row of those errors). -/
theorem witness_ScanFails :
    let s := { searching [] with mem := memOf [(0x1000, [0,1,2,3,0,4,0,0])] }
    (5 < 2 * 2 * 2 ∧ 4 ≤ (s.mem.read (0x1000 + 5)).toNat ∧ ∀ j < 5, (s.mem.read (0x1000 + j)).toNat < 4) ∧
      errs (exec search s) s .indexRange 5 = true := by decide

theorem diffuseOk_fullPixels : DiffuseOk 0x1000 0x2000 2 1 fullPixels where
  widthNe := by decide
  heightNe := by decide
  widthMax := by decide
  srcFits := by decide
  dstFits := by decide
  apart := .inr (by decide)

theorem witness_DiffuseResult : fullPixels.cfg.legal = true ∧ DiffuseOk 0x1000 0x2000 2 1 fullPixels :=
  ⟨by decide, diffuseOk_fullPixels⟩

theorem witness_DiffuseAccumulators :
    DiffuseOk 0x1000 0x2000 2 1 fullPixels ∧
      exec (.diffuse 0x1000 0x2000 2 1) fullPixels = .next (after (exec (.diffuse 0x1000 0x2000 2 1) fullPixels)) :=
  ⟨diffuseOk_fullPixels, eq_next_of_ran (by decide)⟩

/-- The same pixels at another place, the destination on the other side of the source. -/
def movedPixels : State :=
  running (memOf [(0x5000, [0x12,0x34,0,0xFF,0x80,0x80,0xFF,0xFF,0,0xA0,0,0,0,1,0xFF,0])])

theorem witness_DiffuseIsDeterministic :
    DiffuseOk 0x1000 0x2000 2 1 fullPixels ∧ DiffuseOk 0x5000 0x4FF8 2 1 movedPixels ∧
      (∀ n < 8 * (2 * 1), movedPixels.mem.read (0x5000 + n) = fullPixels.mem.read (0x1000 + n)) ∧
      exec (.diffuse 0x1000 0x2000 2 1) fullPixels = .next (after (exec (.diffuse 0x1000 0x2000 2 1) fullPixels)) ∧
      exec (.diffuse 0x5000 0x4FF8 2 1) movedPixels = .next (after (exec (.diffuse 0x5000 0x4FF8 2 1) movedPixels)) :=
  ⟨diffuseOk_fullPixels, ⟨by decide, by decide, by decide, by decide, by decide, .inl (by decide)⟩, by decide,
    eq_next_of_ran (by decide), eq_next_of_ran (by decide)⟩

/-- The encoders' hypotheses, with a destination that touches the source. -/
theorem witness_SeqEncResult_StrEncResult_EncodersWriteTheSameBytes :
    (counting 8).cfg.legal = true ∧ EncodeOk 0x1000 0x1008 2 4 2 (counting 8) :=
  ⟨by decide, ⟨by decide, by decide, by decide, by decide, by decide, by decide, .inr (by decide)⟩⟩

theorem paletteOk_encoded : PaletteOk 0x1000 0x2000 (4 * 2) 0x3000 8 encoded where
  palLo := by decide
  palHi := by decide
  srcFits := by decide
  dstFits := by decide
  palFits := by decide
  dstSrc := .inr (by decide)
  dstPal := .inl (by decide)
  indices := by decide

theorem witness_SeqDecResult :
    encoded.cfg.legal = true ∧ (4 : Nat) ≠ 0 ∧ (2 : Nat) ≠ 0 ∧ 4 % 2 = 0 ∧ PaletteOk 0x1000 0x2000 (4 * 2) 0x3000 8 encoded :=
  ⟨by decide, by decide, by decide, by decide, paletteOk_encoded⟩

theorem witness_StrDecResult :
    encoded.cfg.legal = true ∧ (4 : Nat) ≠ 0 ∧ (2 : Nat) ≠ 0 ∧ (4 * 2) % (2 * 2) = 0 ∧
      PaletteOk 0x1000 0x2000 (4 * 2) 0x3000 8 encoded :=
  ⟨by decide, by decide, by decide, by decide, paletteOk_encoded⟩

theorem witness_ResolveResult :
    encoded.cfg.legal = true ∧ (4 : Nat) ≠ 0 ∧ (2 : Nat) ≠ 0 ∧ PaletteOk 0x1000 0x2000 (4 * 2) 0x3000 8 encoded :=
  ⟨by decide, by decide, by decide, paletteOk_encoded⟩

/-- P2's strip and palette: frames of 2×2, the middle buffer at 0x1100. -/
def strip : State :=
  running (memOf [(0x1000, [0,1,2,3,3,2,1,0]), (0x1800, [0xAA,0xBB,0xCC,0xDD,0x11,0x22,0x33,0x44,0,0,0,0xFF,0xFF,0xFF,0xFF,0])])

theorem witness_SequenceRoundTrip_StreamRoundTrip :
    strip.cfg.legal = true ∧ EncodeOk 0x1000 0x1100 2 (2 * 2) 2 strip ∧
      PaletteOk 0x1000 0x1200 (2 * (2 * 2)) 0x1800 4 strip ∧
      Apart 0x1100 (2 * (2 * 2)) 0x1200 (4 * (2 * (2 * 2))) ∧ Apart 0x1100 (2 * (2 * 2)) 0x1800 (4 * 4) :=
  ⟨by decide, ⟨by decide, by decide, by decide, by decide, by decide, by decide, .inr (by decide)⟩,
    ⟨by decide, by decide, by decide, by decide, by decide, .inr (by decide), .inl (by decide), by decide⟩,
    .inl (by decide), .inl (by decide)⟩

/-- T = 3 and w = 2: one padding cell; and w greater than T. -/
theorem witness_RasterResult :
    (counting 3).cfg.legal = true ∧ (3 : Nat) ≠ 0 ∧ (1 : Nat) ≠ 0 ∧ (2 : Nat) ≠ 0 ∧ (2 : Nat) = (3 * 1 + 2 - 1) / 2 ∧
      0x1000 + 3 * 1 ≤ (counting 3).cfg.memSize ∧ 0x1003 + 2 * 2 ≤ (counting 3).cfg.memSize ∧
      Apart 0x1003 (2 * 2) 0x1000 (3 * 1) ∧ (1 : Nat) = (3 * 1 + 9 - 1) / 9 :=
  ⟨by decide, by decide, by decide, by decide, by decide, by decide, by decide, .inr (by decide), by decide⟩

/-- CAP = 10 and S = 4: three candidates; CAP = 3: one; CAP = 8: a multiple of S. -/
theorem witness_CandidateSequence :
    (4 : Nat) ≠ 0 ∧ (10 : Nat) ≠ 0 ∧ (1 ≤ 2 ∧ 2 < candCount 4 10) ∧ (3 ≤ 4 ∧ candCount 4 3 = 1) ∧
      (8 % 4 = 0 ∧ candCount 4 8 = 2) ∧ (List.range 3).map (fun i => candWidth 4 10 (i + 1)) = [4, 8, 10] ∧
      maxRaster 4 8 10 = 10 := by decide

/-! ### Witnesses: WSEARCH -/

theorem wsearchOk_searching (answers : List EncReply) :
    WsearchOk 0x1000 2 2 2 0x3000 4 0x4000 0x1000 0x5000 0x400 (searching answers) where
  fcountNe := by decide
  fwidthNe := by decide
  fheightNe := by decide
  capNe := by simp [searching]
  aligned := by decide
  palLo := by decide
  palHi := by decide
  srcFits := by simp [searching, running, idleWith, vectors]
  palFits := by simp [searching, running, idleWith, vectors]
  scratchFits := by simp [searching, running, idleWith, vectors]
  logFits := by simp [searching, running, idleWith, vectors]
  scrLenOk := by
    have h : maxRaster (2 * 2) (2 * 2 * 2) 10 ≤ 0x1000 := by decide
    exact h
  logLenOk := by
    have h : 16 * candCount (2 * 2) 10 ≤ 0x400 := by decide
    exact h
  scratchSrc := .inr (by decide)
  scratchPal := .inr (by decide)
  scratchLog := .inl (by decide)
  logSrc := .inr (by decide)
  logPal := .inr (by decide)
  indices := by
    have h : ∀ i < 2 * 2 * 2, ((searching []).mem.read (0x1000 + i)).toNat < 4 := by decide
    exact h

theorem legal_searching (answers : List EncReply) : (searching answers).cfg.legal = true := by
  have h : vectors.legal = true := by decide
  exact h

theorem witness_WsearchSendsFirstRequest :
    (searching []).cfg.legal = true ∧ WsearchOk 0x1000 2 2 2 0x3000 4 0x4000 0x1000 0x5000 0x400 (searching []) ∧
      (searching []).replies = [] ∧ (4 : Nat) = (if (searching []).wsCap.toNat ≤ 2 * 2 then (searching []).wsCap.toNat else 2 * 2) ∧
      (2 : Nat) = (2 * 2 * 2 + 4 - 1) / 4 ∧ ((searching []).wz = false ∨ 4 * 2 = 2 * 2 * 2) :=
  ⟨legal_searching [], wsearchOk_searching [], rfl, by decide, by decide, .inl rfl⟩

/-- Three answers for three candidates. -/
theorem witness_WsearchFindsOptimum :
    let s := searching [size 50, size 50, size 40]
    s.cfg.legal = true ∧ WsearchOk 0x1000 2 2 2 0x3000 4 0x4000 0x1000 0x5000 0x400 s ∧
      [1, 2, 3] = evaluated s.wz (2 * 2) (2 * 2 * 2) s.wsCap.toNat ∧ [1, 2, 3].length ≤ s.replies.length ∧
      (∀ r ∈ s.replies.take [1, 2, 3].length, r.ok = true) ∧ [1, 2, 3] ≠ [] :=
  ⟨legal_searching _, wsearchOk_searching _, by decide, by decide, by decide, by decide⟩

/-- "WZ = 1 with no zero-waste candidate": F Wf Hf = 3 1 1, CAP = 2. -/
def wasteful : State := { searching [] with wsCap := 2, wz := true }

theorem witness_WsearchFindsOptimum_none :
    wasteful.cfg.legal = true ∧ WsearchOk 0x1000 3 1 1 0x3000 4 0x4000 0x1000 0x5000 0x400 wasteful ∧
      [] = evaluated wasteful.wz (3 * 1) (3 * 1 * 1) wasteful.wsCap.toNat :=
  ⟨by decide, ⟨by decide, by decide, by decide, by decide, by decide, by decide, by decide, by decide, by decide, by decide,
    by decide, by decide, by decide, .inr (by decide), .inr (by decide), .inl (by decide), .inr (by decide),
    .inr (by decide), by decide⟩, by decide⟩

theorem searchOk_waiting : SearchOk vectors waitingSearch where
  stepPos := by decide
  capPos := by decide
  capWord := by decide
  totalWord := by decide
  count := by decide
  kPos := by decide
  kLe := by decide
  cells := by
    intro k h1 h2
    have h3 : k ≤ 3 := h2
    obtain rfl | rfl | rfl : k = 1 ∨ k = 2 ∨ k = 3 := by omega
    all_goals decide
  scratchFits := by decide
  logFits := by decide
  logScratch := .inr (by decide)
  logSrc := .inr (by decide)
  scratchSrc := .inr (by decide)
  logPal := .inr (by decide)
  scratchPal := .inr (by decide)

/-- The search waits on its first request: nothing emitted yet. -/
theorem waitOk_first (answers : List EncReply) : WaitOk (waiting answers) waitingSearch := by
  have h0 : (waiting answers).wsEmits.toNat = 0 := by
    have h : (after (exec search (searching []))).wsEmits.toNat = 0 := by decide
    exact h
  have hc : (waiting answers).cfg = vectors := by
    have h : (after (exec search (searching []))).cfg = vectors := by decide
    exact h
  have h1 : (waiting answers).wsCands.toNat < waitingSearch.k := by
    have h : (after (exec search (searching []))).wsCands.toNat < waitingSearch.k := by decide
    exact h
  exact ⟨hc ▸ searchOk_waiting, ⟨by omega, by omega, by omega, by omega⟩, h1⟩

/-- The search waits on its second request, with one record in the log. -/
def waitingSecond (answers : List EncReply) : State := { after (engineStep (waiting [size 50])) with replies := answers }

theorem waitingSecond_phase (answers : List EncReply) : (waitingSecond answers).phase = .execute waitingSearch.next := by
  have h : (after (engineStep (waiting [size 50]))).phase = .execute waitingSearch.next := by decide
  exact h

theorem waitOk_second (answers : List EncReply) : WaitOk (waitingSecond answers) waitingSearch.next := by
  have h0 : (after (engineStep (waiting [size 50]))).wsEmits.toNat = 1 := by decide
  have hc : (after (engineStep (waiting [size 50]))).cfg = vectors := by decide
  have hr : recordWord (after (engineStep (waiting [size 50]))).mem 0x5000 0 0 = 4 ∧
      recordWord (after (engineStep (waiting [size 50]))).mem 0x5000 0 4 = 2 ∧
      recordWord (after (engineStep (waiting [size 50]))).mem 0x5000 0 8 = 50 ∧
      recordWord (after (engineStep (waiting [size 50]))).mem 0x5000 0 12 = 1 := by decide
  have hb : (after (engineStep (waiting [size 50]))).wsBestW.toNat = 4 ∧
      (after (engineStep (waiting [size 50]))).wsBestH.toNat = 2 ∧
      (after (engineStep (waiting [size 50]))).wsBestSize.toNat = 50 ∧
      (after (engineStep (waiting [size 50]))).wsCands.toNat = 1 := by decide
  refine ⟨?_, ⟨?_, ?_, ?_, ?_⟩, ?_⟩
  · show SearchOk (after (engineStep (waiting [size 50]))).cfg _
    rw [hc]
    exact { searchOk_waiting with kPos := by decide, kLe := by decide }
  · intro n hn
    have : n + 1 < 1 := h0 ▸ hn
    omega
  · intro n hn
    have : n + 1 < 1 := h0 ▸ hn
    omega
  · intro n hn
    have h : n + 1 = 1 := h0 ▸ hn
    obtain rfl : n = 0 := by omega
    refine ⟨hr.1.trans hb.1.symm, hr.2.1.trans hb.2.1.symm, hr.2.2.1.trans hb.2.2.1.symm, ?_⟩
    show recordWord (after (engineStep (waiting [size 50]))).mem 0x5000 0 12 < 2
    omega
  · show (after (engineStep (waiting [size 50]))).wsEmits.toNat ≤ (after (engineStep (waiting [size 50]))).wsCands.toNat
    omega
  · show (after (engineStep (waiting [size 50]))).wsCands.toNat < 2
    omega

/-- The second candidate after the first's answer; with WZ = 1 candidate 3 is skipped and none is left. -/
theorem witness_WsearchSendsFirstRequest_next :
    let d := waitingSearch.next
    (WaitOk (waiting [size 50]) waitingSearch ∧ (waiting [size 50]).phase = .execute waitingSearch ∧
      (waiting [size 50]).replies = [size 50] ∧ (size 50).ok = true ∧ d = { waitingSearch with k := d.k } ∧
      waitingSearch.k < d.k ∧ d.k ≤ waitingSearch.nCands ∧ (∀ k, waitingSearch.k < k → ¬k < d.k) ∧
      (8 : Nat) = (if waitingSearch.cap ≤ d.k * waitingSearch.step then waitingSearch.cap else d.k * waitingSearch.step) ∧
      (1 : Nat) = (waitingSearch.total + 8 - 1) / 8 ∧ (waiting [size 50]).wz = false) ∧
    (let s : State := { waitingSecond [size 50] with wz := true };
      WaitOk s d ∧ s.phase = .execute d ∧ s.replies = [size 50] ∧
      ∀ k, d.k < k → k ≤ d.nCands → s.wz = true ∧ candCells d.step d.total d.cap k ≠ d.total) := by
  refine ⟨⟨waitOk_first _, waiting_phase _, rfl, rfl, rfl, by decide, by decide, fun k h1 h2 => ?_, by decide, by decide,
    by decide⟩, ?_, waitingSecond_phase [size 50], rfl, fun k h1 h2 => ⟨rfl, ?_⟩⟩
  · have h3 : k < 2 := h2
    have h4 : 1 < k := h1
    omega
  · obtain ⟨h1, ⟨h2, h3, h4, h5⟩, h6⟩ := waitOk_second [size 50]
    exact ⟨h1, ⟨h2, h3, h4, h5⟩, h6⟩
  · have h3 : k ≤ 3 := h2
    have h4 : 2 < k := h1
    obtain rfl : k = 3 := by omega
    decide

/-- The last candidate's answer, after which none is left. -/
theorem witness_WsearchSendsFirstRequest_last :
    let c : Search := { waitingSearch with k := 3 }
    let s : State := { after (engineStep (waiting [size 50])) with replies := [size 40], phase := .execute c }
    WaitOk s c ∧ s.phase = .execute c ∧ s.replies = [size 40] ∧ c.k = c.nCands ∧ ∀ k, c.k < k → ¬k ≤ c.nCands := by
  have hk : ({ waitingSearch with k := 3 } : Search).nCands = 3 := by decide
  obtain ⟨h1, ⟨h2, h3, h4, h5⟩, h6⟩ := waitOk_second [size 40]
  refine ⟨⟨{ h1 with kPos := by decide, kLe := by decide }, ⟨h2, h3, fun n hn => ?_, h5⟩, Nat.lt_succ_of_lt h6⟩, rfl, rfl,
    by decide, fun k h7 h8 => by rw [hk] at h8; exact absurd h7 (by show ¬3 < k; omega)⟩
  obtain ⟨h7, h8, h9, h10⟩ := h4 n hn
  exact ⟨h7, h8, h9, Nat.lt_succ_of_lt h10⟩

/-- WSEARCH that waits, that completes and that stops on ENC_ERROR; and the second move. -/
theorem witness_WsearchLogIsMonotonic :
    (∀ answers ∈ [[], [size 50, size 50, size 40], [size 50, encoderFails]],
      exec search (searching answers) = .next (after (exec search (searching answers)))) ∧
    WaitOk (waitingSecond [size 40]) waitingSearch.next ∧
      (waitingSecond [size 40]).phase = .execute waitingSearch.next ∧
      engineStep (waitingSecond [size 40]) = .next (after (engineStep (waitingSecond [size 40]))) := by
  refine ⟨?_, waitOk_second _, waitingSecond_phase _, eq_next_of_ran (by decide)⟩
  intro answers h
  have hr : ∀ a ∈ [[], [size 50, size 50, size 40], [size 50, encoderFails]], ran (exec search (searching a)) = true := by decide
  exact eq_next_of_ran (hr answers h)

/-- No candidate before; a smaller size; the boundary, an equal one. -/
theorem witness_WsearchEmitsImprovements :
    (WaitOk (waiting []) waitingSearch ∧ (size 50).ok = true ∧ (waiting []).wsEmits = 0) ∧
    (WaitOk (waitingSecond []) waitingSearch.next ∧ (size 49).ok = true ∧
      (size 49).value.toNat < (waitingSecond []).wsBestSize.toNat) ∧
    ((size 50).ok = true ∧ (waitingSecond []).wsEmits ≠ 0 ∧
      (waitingSecond []).wsBestSize.toNat ≤ (size 50).value.toNat) :=
  ⟨⟨waitOk_first [], rfl, by decide⟩, ⟨waitOk_second [], rfl, by decide⟩, rfl, by decide, by decide⟩

theorem witness_EncoderErrorEndsRun :
    (waiting [encoderFails]).phase = .execute waitingSearch ∧
      (waiting [encoderFails]).replies = { ok := false, value := 0xBEEF } :: [] :=
  ⟨waiting_phase _, rfl⟩

theorem witness_AnswersMayComeLate :
    (exec search { searching [] with replies := [] } = .next (after (exec search (searching []))) ∧
      (after (exec search (searching []))).phase = .execute waitingSearch) ∧
    ((waiting []).phase = .execute waitingSearch ∧
      engineStep { waiting [] with replies := [size 50] } = .next (after (engineStep (waiting [size 50]))) ∧
      (after (engineStep (waiting [size 50]))).phase = .execute waitingSearch.next) :=
  ⟨⟨eq_next_of_ran (by decide), by decide⟩, waiting_phase _, eq_next_of_ran (by decide), by decide⟩

/-- A host read of STATUS while the encoder is silent. -/
theorem witness_SilentEncoderHangs :
    (waiting []).phase = .execute waitingSearch ∧ (waiting []).replies = [] ∧
      handle (.regRead (vectors.pxsBase + 8) 4) (waiting []) =
        .next (after (handle (.regRead (vectors.pxsBase + 8) 4) (waiting []))) ∧
      Event.regRead (vectors.pxsBase + 8) 4 ≠ .reset :=
  ⟨waiting_phase _, rfl, rfl, by decide⟩

/-- A request stands; none stands; it has its answer. -/
theorem witness_ResponsesArriveOnce :
    ((waiting []).encWait = true ∧ (waiting []).replies = []) ∧ (running []).encWait = false ∧
      (waiting [size 1]).replies ≠ [] := by
  refine ⟨⟨by decide, rfl⟩, rfl, by decide⟩

/-! ### Witnesses: frames, the outside world, invariants -/

/-- The byte before the destination, the byte after it, and a source byte. -/
theorem witness_WritesStayInRegions_SourcesAreKept :
    let i : Instr := .seqEnc 0x1000 0x1008 2 4 2
    (counting 8).cfg.legal = true ∧ exec i (counting 8) = .next (after (exec i (counting 8))) ∧
      (∀ q ∈ writes i, q.contains 0x1007 = false) ∧ (∀ q ∈ writes i, q.contains 0x1010 = false) ∧
      ∃ q ∈ reads i, q.contains 0x1007 = true :=
  ⟨by decide, eq_next_of_ran (by decide), by decide, by decide, by decide⟩

/-- A search that goes on: the first byte that its candidates cannot reach behind SCRATCH and LOG, the last byte of the
source and of the palette. -/
theorem witness_WritesStayInRegions_SourcesAreKept_resumed :
    let c := waitingSearch
    (WaitOk (waiting [size 50]) c ∧ (waiting [size 50]).phase = .execute c ∧
      engineStep (waiting [size 50]) = .next (after (engineStep (waiting [size 50])))) ∧
    (c.scratch + c.maxRaster ≤ 0x400A ∧ 0x400A < c.log) ∧ c.log + 16 * c.nCands ≤ 0x5030 ∧
      (c.src ≤ 0x1007 ∧ 0x1007 < c.src + c.total) ∧ (c.pal ≤ 0x300F ∧ 0x300F < c.pal + 4 * c.palLen) :=
  ⟨⟨waitOk_first _, waiting_phase _, eq_next_of_ran (by decide)⟩, by decide, by decide, by decide, by decide⟩

theorem witness_OnlyWsearchWritesSearchRegisters :
    let i : Instr := .seqEnc 0x1000 0x2000 2 4 2
    exec i (counting 8) = .next (after (exec i (counting 8))) ∧
      (∀ a b c d e f g h k l, i ≠ .wsearch a b c d e f g h k l) ∧ (∀ a b c d e, i ≠ .raster a b c d e) ∧
      exec search (searching []) = .next (after (exec search (searching []))) ∧
      (waiting [encoderFails]).phase = .execute waitingSearch ∧
      engineStep (waiting [encoderFails]) = .next (after (engineStep (waiting [encoderFails]))) :=
  ⟨eq_next_of_ran (by decide), fun _ _ _ _ _ _ _ _ _ _ => by simp, fun _ _ _ _ _ => by simp,
    eq_next_of_ran (by decide), waiting_phase _, eq_next_of_ran (by decide)⟩

/-- R90's command, then one that fails (F = 0), then R90's again. -/
def failsSecond : State :=
  running (memOf [(0, wordsSeqEnc), (0x40, [4,0,0,0, 0,0x10,0,0, 0,0x30,0,0, 2,0,0,0, 4,0,0,0] ++ zeros 44),
    (0x80, wordsSeqEnc), (0x1000, List.range 8)])

theorem wouldWrite_iff {s : State} {a : Nat} : WouldWrite s a ↔ s.wouldWrite.any (fun q => q.contains a) = true := by
  simp [WouldWrite]

/-- Host reads: in a region whose end has not been seen, in the command to come, and just behind both; an idle machine's
STATUS read; encoder reads of the raster's last byte, the palette's last byte, and the bytes behind them, and before the
request; the first address that does not exist. -/
theorem witness_IdleMemoryAccess :
    (let s : State := { failsSecond with unseen := [{ base := 0x3000, len := 1 }] };
      (∃ q ∈ s.unseen, q.contains 0x3000 = true) ∧ WouldWrite s 0x2007 ∧ 0x2008 < s.cfg.memSize ∧
        (∀ q ∈ s.unseen, q.contains 0x2008 = false) ∧ ¬WouldWrite s 0x2008) ∧
    ((idleWith []).busy = false ∧ 0xFFFF < (idleWith []).cfg.memSize) ∧
    (let c := waitingSearch;
      (waiting []).phase = .execute c ∧ (c.scratch ≤ 0x4007 ∧ 0x4007 < c.scratch + c.width * c.height) ∧
        (c.pal ≤ 0x300F ∧ 0x300F < c.pal + 4 * c.palLen) ∧
        ∀ a ∈ [0x4008, 0x3010], a < (waiting []).cfg.memSize ∧ ¬(c.scratch ≤ a ∧ a < c.scratch + c.width * c.height) ∧
          ¬(c.pal ≤ a ∧ a < c.pal + 4 * c.palLen)) ∧
    (goesOn.busy = true ∧ goesOn.encWait = false) ∧ (idleWith []).cfg.memSize ≤ 0x10000 := by
  refine ⟨⟨by decide, wouldWrite_iff.2 (by decide), by decide, by decide, fun h => ?_⟩, by decide, ⟨waiting_phase _, by decide⟩,
    by decide, by decide⟩
  exact absurd (wouldWrite_iff.1 h) (by decide)

/-- A run that is about to execute R90's command: a byte of its destination, and the byte after it; that command goes on,
and the one after it fails; and a byte already in the run's written regions. -/
theorem witness_ResetDuringRun :
    (failsSecond.busy = true ∧ handle .reset failsSecond = .next (after (handle .reset failsSecond)) ∧
      ¬WouldWrite failsSecond 0x2008 ∧ WouldWrite failsSecond 0x2007) ∧
    (∃ q ∈ ({ goesOn with written := [{ base := 0x1000, len := 1 }] } : State).written, q.contains 0x1000 = true) ∧
    (failsSecond.phase = .fetch ∧ failsSecond.cmdPtr % 4 = 0 ∧ failsSecond.cmdPtr + 64 ≤ failsSecond.cfg.memSize ∧
      decodeBytes (failsSecond.mem.readBytes failsSecond.cmdPtr 64) = .ok (.seqEnc 0x1000 0x2000 2 4 2) ∧
      failsSecond.err = false ∧
      exec (.seqEnc 0x1000 0x2000 2 4 2) failsSecond = .next (after (exec (.seqEnc 0x1000 0x2000 2 4 2) failsSecond)) ∧
      (after (exec (.seqEnc 0x1000 0x2000 2 4 2) failsSecond)).err = false) ∧
    (let s : State := { failsSecond with cmdPtr := 0x40 };
      s.cmdPtr % 4 = 0 ∧ s.cmdPtr + 64 ≤ s.cfg.memSize ∧
      decodeBytes (s.mem.readBytes s.cmdPtr 64) = .ok (.strEnc 0x1000 0x3000 2 4 0) ∧ s.err = false ∧
      exec (.strEnc 0x1000 0x3000 2 4 0) s = .next (after (exec (.strEnc 0x1000 0x3000 2 4 0) s)) ∧
      (after (exec (.strEnc 0x1000 0x3000 2 4 0) s)).err = true) := by
  refine ⟨⟨rfl, rfl, fun h => absurd (wouldWrite_iff.1 h) (by decide), wouldWrite_iff.2 (by decide)⟩, by decide,
    ⟨rfl, by decide, by decide, by decide, rfl, eq_next_of_ran (by decide), by decide⟩,
    by decide, by decide, by decide, rfl, eq_next_of_ran (by decide), by decide⟩

/-- The command list is followed to the command that fails, and no further. -/
theorem test_wouldWrite_ahead :
    failsSecond.wouldWrite = [{ base := 0x2000, len := 8 }] ∧
    ({ failsSecond with cmdPtr := 0x40 } : State).wouldWrite = [] := by decide

theorem witness_StatusIsKept : StatusOk goesOn := statusOk_running _

/-- The pointer's invariant in a run at the last descriptor that fits. -/
theorem witness_PointerIsKept :
    let s : State := { running [] with cmdBase := 0xFF80, cmdPtr := 0xFFC0, cmdCount := 1 }
    PointerOk s ∧ s.busy = true :=
  ⟨⟨by decide, fun _ => by decide, fun _ h => absurd rfl h, fun _ => .inr (by decide)⟩, rfl⟩

/-- Memory's invariant while a search waits, with its log in the footprint. -/
theorem witness_MemoryIsKept :
    MemoryOk { waiting [] with footprint := [{ base := 0x5000, len := 0x400 }], written := [{ base := 0x5000, len := 0x400 }] } := by
  refine ⟨by decide, by decide, by decide, fun _ => by decide, fun c h => ?_, fun c h a h1 h2 => ?_⟩
  · have h' : (waiting []).phase = .execute c := h
    rw [waiting_phase] at h'
    injection h' with h'
    subst h'
    obtain ⟨h1, ⟨h2, h3, h4, h5⟩, h6⟩ := waitOk_first []
    exact ⟨h1, ⟨h2, h3, h4, h5⟩, h6⟩
  · have h' : (waiting []).phase = .execute c := h
    rw [waiting_phase] at h'
    injection h' with h'
    subst h'
    have e1 : waitingSearch.log = 0x5000 := by decide
    have e2 : waitingSearch.nCands = 3 := by decide
    rw [e1] at h1
    rw [e1, e2] at h2
    simp [Region.contains]
    omega

end Sys2Proof.Tests
end

section
/-! PROOFS. The statements of the state family (spec/10_state.md): what the registers hold and answer, what every step
keeps of the status flags, the command pointer and the run's parameters, and what DIFFUSE and WSEARCH leave. -/

namespace Sys2Proof.Machine

open Sys2Proof Sys2Proof.Claims

/-! ### What a step can do to the control part of the state -/

/-- The parameters, the status, the engine's phase and the registers that control a run are the same. -/
structure SameControl (s t : State) : Prop where
  cfg : t.cfg = s.cfg
  phase : t.phase = s.phase
  done : t.done = s.done
  err : t.err = s.err
  errCode : t.errCode = s.errCode
  wz : t.wz = s.wz
  wsCap : t.wsCap = s.wsCap
  cmdBase : t.cmdBase = s.cmdBase
  cmdPtr : t.cmdPtr = s.cmdPtr
  cmdCount : t.cmdCount = s.cmdCount

/-- What one input or one move of the engine can do to the control part of the state. -/
inductive ControlStep (s t : State) : Prop where
  /-- An access, an answer, an idle turn or a write that touches IRQ_EN alone. -/
  | stays (same : SameControl s t)
  /-- The engine's move during a run. -/
  | moves (busy : s.phase ≠ .idle) (keeps : MoveKeeps s t) (ends : MoveEnd s t)
      (fetched : s.phase = .fetch → t.phase ≠ .idle → s.cmdPtr % 4 = 0 ∧ s.cmdPtr + 64 ≤ s.cfg.memSize)
  /-- START (40_control.md R100). -/
  | starts (idle : s.busy = false) (irqEn wz : Bool) (eq : t = s.start irqEn wz)
  /-- Any other write to CTRL, CMD_BASE or WS_CAP while idle. -/
  | configures (idle : s.busy = false) (irqEn wz : Bool) (base cap : Word)
      (eq : t = { s with irqEn := irqEn, wz := wz, cmdBase := base, wsCap := cap })
  /-- A write to STATUS (10_state.md R26). -/
  | clears (v : Word) (eq : t = s.writeStatus v)
  /-- The reset input, with the memory and the draws that it leaves (70_reset_and_hazards.md R230, R231). -/
  | resets (u : State) (cfg : u.cfg = s.cfg) (eq : t = u.resetBlock)

theorem ControlStep.of_engineStep {s t : State} (h : engineStep s = .next t) : ControlStep s t := by
  by_cases hp : s.phase = .idle
  · obtain rfl : t = s := by
      rw [engineStep, hp] at h
      cases h
      rfl
    exact .stays ⟨rfl, rfl, rfl, rfl, rfl, rfl, rfl, rfl, rfl, rfl⟩
  · obtain ⟨hkeeps, hends, hfetched⟩ := engineStep_ends h hp
    exact .moves hp hkeeps hends hfetched

theorem ControlStep.of_writeReg (s : State) (off width : Nat) (v : Word) : ControlStep s (s.writeReg off width v) := by
  rcases s.writeReg_cases off width v with h | ⟨-, b, h⟩ | ⟨hb, b, z, h⟩ | ⟨hb, b, z, base, cap, h⟩ | h
  · exact .stays (by rw [h]; exact ⟨rfl, rfl, rfl, rfl, rfl, rfl, rfl, rfl, rfl, rfl⟩)
  · exact .stays (by rw [h]; exact ⟨rfl, rfl, rfl, rfl, rfl, rfl, rfl, rfl, rfl, rfl⟩)
  · exact .starts hb b z h
  · exact .configures hb b z base cap h
  · exact .clears v h

theorem ControlStep.of_assertReset (s : State) : ControlStep s s.assertReset := by
  unfold State.assertReset
  split
  · obtain ⟨m, n, heq, -⟩ := State.drawRegions_eq s.wouldWrite s
    exact .resets _ (by rw [heq]) rfl
  · exact .resets { s with unseen := s.written ++ s.unseen } rfl rfl

theorem ControlStep.of_handle {e : Event} {s t : State} (h : handle e s = .next t) : ControlStep s t := by
  rcases handle_cases h with ⟨-, hmove⟩ | ⟨off, width, v, rfl⟩ | ⟨-, rfl⟩ | ⟨d, n, x, w, u, rfl, -⟩ |
    ⟨r, -, -, rfl⟩ | ⟨g, a, v, -, ⟨-, rfl⟩ | ⟨-, -, rfl⟩⟩
  · exact .of_engineStep hmove
  · exact .of_writeReg s off width v
  · exact .of_assertReset s
  all_goals exact .stays ⟨rfl, rfl, rfl, rfl, rfl, rfl, rfl, rfl, rfl, rfl⟩

theorem ControlStep.of_step {s t : State} (h : step s = .next t) :
    ∃ rest, ControlStep { s with inputs := rest } t := by
  obtain ⟨rest, hmove | ⟨e, he⟩⟩ := step_next h
  · exact ⟨rest, .of_engineStep hmove⟩
  · exact ⟨rest, .of_handle he⟩

/-- An invariant that does not look at the inputs, and that every control step keeps, is kept by every step. -/
theorem safe_step_of_controlStep {P : State → Prop} (inputs : ∀ s rest, P s → P { s with inputs := rest })
    (keeps : ∀ s t, P s → ControlStep s t → P t) {s : State} (hs : P s) : Safe P (step s) := by
  cases ho : step s with
  | next t =>
    obtain ⟨rest, hstep⟩ := ControlStep.of_step ho
    exact keeps _ t (inputs s rest hs) hstep
  | fault _ => trivial
  | refused _ => trivial

/-! ### The command pointer (10_state.md R28, R29; 40_control.md R106, R107) -/

theorem PointerOk.of_idle {s : State} (legal : s.cfg.legal = true) (hp : s.phase = .idle) : PointerOk s where
  legal := legal
  advance hb := absurd hp (State.busy_iff.1 hb)
  inside hb := absurd hp (State.busy_iff.1 hb)
  bounded hf := by rw [hp] at hf; cases hf

theorem PointerOk.congr {s t : State} (h : PointerOk s) (cfg : t.cfg = s.cfg) (phase : t.phase = s.phase)
    (base : t.cmdBase = s.cmdBase) (ptr : t.cmdPtr = s.cmdPtr) (count : t.cmdCount = s.cmdCount) : PointerOk t := by
  obtain ⟨hl, ha, hi, hb⟩ := h
  have hbusy : t.busy = s.busy := by rw [State.busy, State.busy, phase]
  constructor
  · rwa [cfg]
  · rwa [hbusy, base, ptr, count]
  · rwa [hbusy, cfg, phase, ptr]
  · rwa [cfg, phase, ptr, count]

/-- A run's descriptors take at most MEM_SIZE bytes (40_control.md R107; the bound on CMD_COUNT is log 18's). -/
theorem PointerOk.count_le {s : State} (h : PointerOk s) (hb : s.busy = true) :
    64 * s.cmdCount.toNat ≤ s.cfg.memSize ∧ s.cmdCount.toNat ≤ 2 ^ 26 := by
  have hadv := h.advance hb
  have hmem := Config.memSize_le h.legal
  have hle : 64 * s.cmdCount.toNat ≤ s.cfg.memSize := by
    by_cases hf : s.phase = .fetch
    · rcases h.bounded hf with h0 | ⟨-, hptr⟩
      · simp [h0]
      · omega
    · obtain ⟨-, hptr⟩ := h.inside hb hf
      omega
  exact ⟨hle, by omega⟩

/-- The descriptor that the engine's move runs lies in data memory at a multiple of 4 (40_control.md R101). -/
theorem PointerOk.descriptor {s t : State} (h : PointerOk s) (hb : s.busy = true)
    (fetched : s.phase = .fetch → t.phase ≠ .idle → s.cmdPtr % 4 = 0 ∧ s.cmdPtr + 64 ≤ s.cfg.memSize)
    (ht : t.phase ≠ .idle) : s.cmdPtr % 4 = 0 ∧ s.cmdPtr + 64 ≤ s.cfg.memSize := by
  by_cases hf : s.phase = .fetch
  · exact fetched hf ht
  · exact h.inside hb hf

/-- The engine's move keeps the pointer's invariant: it ends the run, or waits at its descriptor, or completes and goes
on 64 bytes further. -/
theorem PointerOk.move {s t : State} (h : PointerOk s) (busy : s.phase ≠ .idle) (keeps : MoveKeeps s t)
    (ends : MoveEnd s t)
    (fetched : s.phase = .fetch → t.phase ≠ .idle → s.cmdPtr % 4 = 0 ∧ s.cmdPtr + 64 ≤ s.cfg.memSize) :
    PointerOk t := by
  have hb := State.busy_iff.2 busy
  have hlegal : t.cfg.legal = true := by rw [keeps.cfg]; exact h.legal
  have hadv := h.advance hb
  have hmem := Config.memSize_le h.legal
  cases ends with
  | ends phase => exact .of_idle hlegal phase
  | fails phase => exact .of_idle hlegal phase
  | waits c phase done same =>
    have hdesc := h.descriptor hb fetched (by rw [phase]; simp)
    refine ⟨hlegal, fun _ => ?_, fun _ _ => ?_, fun hf => ?_⟩
    · rw [same.cmdPtr, same.cmdCount, keeps.cmdBase]
      exact hadv
    · rw [same.cmdPtr, keeps.cfg]
      exact hdesc
    · rw [phase] at hf
      cases hf
  | completes phase done ptr count =>
    obtain ⟨haligned, hfits⟩ := h.descriptor hb fetched (by rw [phase]; simp)
    have hcount : t.cmdCount.toNat = s.cmdCount.toNat + 1 := by
      rw [count]
      exact toNat_add_one (by omega)
    refine ⟨hlegal, fun _ => ?_, fun _ hf => absurd phase hf, fun _ => .inr ?_⟩
    · rw [ptr, hcount, keeps.cmdBase]
      omega
    · rw [ptr, keeps.cfg]
      omega

theorem PointerOk.controlStep {s t : State} (h : PointerOk s) (hstep : ControlStep s t) : PointerOk t := by
  cases hstep with
  | stays same => exact h.congr same.cfg same.phase same.cmdBase same.cmdPtr same.cmdCount
  | moves busy keeps ends fetched => exact h.move busy keeps ends fetched
  | starts idle b z eq =>
    subst eq
    exact ⟨h.legal, fun _ => by simp, fun _ hf => absurd rfl hf, fun _ => .inl rfl⟩
  | configures idle b z base cap eq =>
    subst eq
    exact .of_idle h.legal (State.busy_eq_false.1 idle)
  | clears v eq =>
    subst eq
    exact h.congr rfl rfl rfl rfl rfl
  | resets u cfg eq =>
    subst eq
    exact .of_idle (by rw [State.resetBlock_cfg, cfg]; exact h.legal) rfl

/-- Settles O59: the invariant is inductive over what a step can do to the control part of the state. -/
theorem pointerIsKept : Obligations.PointerIsKept := by
  intro s h
  refine ⟨?_, fun hb => ?_⟩
  · exact safe_step_of_controlStep (fun _ _ h => h.congr rfl rfl rfl rfl rfl) (fun _ _ h => h.controlStep) h
  · obtain ⟨hmem, hcount⟩ := h.count_le hb
    have hadv := h.advance hb
    exact ⟨hmem, hcount, by omega⟩

/-! ### The status flags (10_state.md R25, R36, R37) -/

theorem StatusOk.congr {s t : State} (h : StatusOk s) (phase : t.phase = s.phase) (done : t.done = s.done)
    (err : t.err = s.err) (code : t.errCode = s.errCode) : StatusOk t := by
  obtain ⟨hn, hc, hb⟩ := h
  have hbusy : t.busy = s.busy := by rw [State.busy, State.busy, phase]
  constructor
  · rwa [done, err]
  · rwa [err, code]
  · rwa [hbusy, done, err]

/-- Both flags are 0 and the code is 0x00: any phase goes with it. -/
theorem StatusOk.of_clear {s : State} (done : s.done = false) (err : s.err = false) (code : s.errCode = .noError) :
    StatusOk s where
  notBoth hd := by simp [done] at hd
  code := by simp [err, code]
  busyClear _ := ⟨done, err⟩

/-- The engine's move in a run, in which both flags are 0, ends with at most one of them set, and then in IDLE. -/
theorem StatusOk.move {s t : State} (h : StatusOk s) (busy : s.phase ≠ .idle) (ends : MoveEnd s t) : StatusOk t := by
  obtain ⟨hdone, herr⟩ := h.busyClear (State.busy_iff.2 busy)
  have hcode := h.code.1 herr
  cases ends with
  | ends phase done same =>
    have herr' : t.err = false := same.err.trans herr
    have hcode' : t.errCode = .noError := same.errCode.trans hcode
    exact ⟨by simp [herr'], by simp [herr', hcode'], fun hb => absurd phase (State.busy_iff.1 hb)⟩
  | completes phase done ptr count err code => exact .of_clear (done.trans hdone) (err.trans herr) (code.trans hcode)
  | fails phase done ptr count w hh waste err code =>
    exact ⟨by simp [done, hdone], by simp [err, code], fun hb => absurd phase (State.busy_iff.1 hb)⟩
  | waits c phase done same => exact .of_clear (done.trans hdone) (same.err.trans herr) (same.errCode.trans hcode)

/-- A write to STATUS clears ERR and ERR_CODE together, and sets no flag (10_state.md R26). -/
theorem StatusOk.writeStatus {s : State} (h : StatusOk s) (v : Word) : StatusOk (s.writeStatus v) := by
  obtain ⟨hn, hc, hb⟩ := h
  constructor
  · simp only [State.writeStatus_done, State.writeStatus_err, Bool.and_eq_true]
    exact fun ⟨⟨hd, _⟩, he, _⟩ => hn ⟨hd, he⟩
  · rw [State.writeStatus_err, State.writeStatus_errCode]
    cases v.getLsbD 2
    · simpa using hc
    · simp
  · intro hbusy
    obtain ⟨hd, he⟩ := hb hbusy
    simp [hd, he]

theorem StatusOk.controlStep {s t : State} (h : StatusOk s) (hstep : ControlStep s t) : StatusOk t := by
  cases hstep with
  | stays same => exact h.congr same.phase same.done same.err same.errCode
  | moves busy keeps ends => exact h.move busy ends
  | starts idle b z eq =>
    subst eq
    exact .of_clear rfl rfl rfl
  | configures idle b z base cap eq =>
    subst eq
    exact h.congr rfl rfl rfl rfl
  | clears v eq =>
    subst eq
    exact h.writeStatus v
  | resets u cfg eq =>
    subst eq
    exact .of_clear rfl rfl rfl

/-- Settles O58: the invariant is inductive over what a step can do to the control part of the state. -/
theorem statusIsKept : Obligations.StatusIsKept := fun _ h =>
  safe_step_of_controlStep (fun _ _ h => h.congr rfl rfl rfl rfl) (fun _ _ h => h.controlStep) h

/-! ### The parameters of a run (10_state.md R36) -/

/-- A control step inside a run leaves what R36 and 00_scope.md R6 fix: START and the other register writes that could
change it need an idle engine, and a reset leaves one. -/
theorem ControlStep.parameters_fixed {s t : State} (h : ControlStep s t) (hs : s.busy = true) (ht : t.busy = true) :
    t.wz = s.wz ∧ t.wsCap = s.wsCap ∧ t.cmdBase = s.cmdBase ∧ t.cfg = s.cfg := by
  cases h with
  | stays same => exact ⟨same.wz, same.wsCap, same.cmdBase, same.cfg⟩
  | moves busy keeps => exact ⟨keeps.wz, keeps.wsCap, keeps.cmdBase, keeps.cfg⟩
  | starts idle => rw [idle] at hs; cases hs
  | configures idle => rw [idle] at hs; cases hs
  | clears v eq =>
    subst eq
    exact ⟨rfl, rfl, rfl, rfl⟩
  | resets u cfg eq =>
    subst eq
    cases ht

/-- Settles O18, by the kinds of a control step. -/
theorem runParametersFixed : Obligations.RunParametersFixed := by
  intro s t hs hstep ht
  obtain ⟨rest, h⟩ := ControlStep.of_step hstep
  exact h.parameters_fixed hs ht

/-! ### The state after reset (10_state.md R22, R43) -/

/-- Settles O57: the flags are clear, the engine is idle, and nothing has been written. -/
theorem resetIsSound : Obligations.ResetIsSound := by
  refine ⟨.of_clear rfl rfl rfl, .of_idle (by decide) rfl, ?_⟩
  constructor
  case legal => decide
  case canonical => exact .nil
  case below => exact List.forall_mem_nil _
  case written => exact fun _ => List.forall_mem_nil _
  case waiting => exact fun _ h => nomatch h
  case claimed => exact fun _ h => nomatch h

/-! ### The accumulators after DIFFUSE (41_dither.md R121, R124, R126) -/

/-- Every one of the DW_MAX + 2 cells of a zeroed row is 0. -/
theorem Row.values_allZero (width : Nat) (c : Config) : (Row.allZero width).values c = List.replicate (c.dwMax + 2) 0 :=
  List.eq_replicate_iff.2 ⟨Row.length_values _ c, by simp [Row.values]⟩

/-- Settles O30: the rows DIFFUSE leaves, where no cell of the next row takes more than 255·(3 + 5 + 1). -/
theorem diffuseAccumulators : Obligations.DiffuseAccumulators := by
  intro src dst width height s t ok hexec c
  have hcheck : checkOf (.diffuse src dst width height) s = none :=
    diffuseCheck_eq_none.2 ⟨ok.widthNe, ok.heightNe, ok.widthMax, ok.srcFits, ok.dstFits, ok.apart⟩
  rw [exec_of_check hcheck] at hexec
  cases hexec
  obtain ⟨hnxt, hused, hrest⟩ :=
    rows_ditherImage (src := src) (dst := dst) (width := width) (m := s.mem) (a := s.acc) ok.heightNe c
  refine ⟨?_, Row.length_values _ _, fun j hj => ?_, hrest⟩
  · exact (congrArg (Row.values · s.cfg) hnxt).trans (Row.values_allZero width s.cfg)
  · calc _ ≤ nextBound width j := hused j hj
      _ ≤ 2295 := nextBound_le width j
      _ ≤ 4080 := by decide

/-! ### Who writes WS_*, the port and RES_WASTE (10_state.md R32, R33) -/

/-- Of the commands without a search only RASTER gives RES_WASTE another value than 0. -/
theorem effectOf_resWaste (i : Instr) (s : State)
    (hsearch : ∀ a b c d e f g h k l, i ≠ .wsearch a b c d e f g h k l)
    (hraster : ∀ a b c d e, i ≠ .raster a b c d e) :
    (effectOf i s).resWaste = s.resWaste ∨ (effectOf i s).resWaste = 0 := by
  cases i with
  | endList => exact .inl rfl
  | raster a b c d e => exact absurd rfl (hraster a b c d e)
  | wsearch a b c d e f g h k l => exact absurd rfl (hsearch a b c d e f g h k l)
  | diffuse | seqEnc | seqDec | strEnc | strDec | resolve => exact .inr rfl

theorem sameSearchRegisters_refl (s : State) : SameSearchRegisters s s := ⟨rfl, rfl, rfl, rfl, rfl, rfl, rfl⟩

/-- A command without a search leaves WS_* and the port alone. -/
theorem effectOf_sameSearchRegisters (i : Instr) (s : State)
    (hsearch : ∀ a b c d e f g h k l, i ≠ .wsearch a b c d e f g h k l) :
    SameSearchRegisters s (effectOf i s) ∧ (effectOf i s).replies = s.replies ∧ (effectOf i s).sent = s.sent := by
  by_cases hend : i = .endList
  · subst hend
    exact ⟨sameSearchRegisters_refl s, rfl, rfl⟩
  · obtain ⟨m, acc, cursor, w, h, waste, heq, -⟩ := effectOf_complete i s hend hsearch
    rw [heq]
    exact ⟨sameSearchRegisters_refl s, rfl, rfl⟩

theorem writeReg_sameSearchRegisters (s : State) (off width : Nat) (v : Word) :
    SameSearchRegisters s (s.writeReg off width v) := by
  rcases s.writeReg_cases off width v with h | ⟨-, b, h⟩ | ⟨-, b, z, h⟩ | ⟨-, b, z, base, cap, h⟩ | h
  all_goals
    rw [h]
    exact sameSearchRegisters_refl s

/-- A WSEARCH, whether it fails its checks, waits, completes or raises ENC_ERROR, leaves what no search touches. -/
theorem exec_wsearch_keeps {src fcount fwidth fheight pal palLen scratch scrLen log logLen : Nat} {s t : State}
    (h : exec (.wsearch src fcount fwidth fheight pal palLen scratch scrLen log logLen) s = .next t) :
    SearchKeeps s t := by
  rcases exec_cases (.wsearch src fcount fwidth fheight pal palLen scratch scrLen log logLen) s with
    ⟨e, -, heq⟩ | ⟨-, heq⟩
  all_goals
    rw [heq] at h
    cases h
  · exact ⟨rfl, rfl, rfl, rfl, rfl, rfl, rfl, rfl, rfl, rfl, rfl, rfl, rfl, rfl, rfl, rfl⟩
  · have hclear : SearchKeeps s s.clearSearch :=
      ⟨rfl, rfl, rfl, rfl, rfl, rfl, rfl, rfl, rfl, rfl, rfl, rfl, rfl, rfl, rfl, rfl⟩
    obtain ⟨hloop, -⟩ := searchLoop_ends (candCount (fcount * fwidth) s.wsCap.toNat)
      (searchOf src fcount fwidth fheight pal palLen scratch log s.wsCap.toNat) s.clearSearch
    exact hclear.trans hloop

theorem awaitReply_keeps (c : Search) (s : State) : SearchKeeps s (awaitReply c s) := by
  rcases awaitReply_cases c s with ⟨-, heq⟩ | ⟨r, rs, -, heq⟩ <;> rw [heq]
  · exact .refl s
  · have htake : SearchKeeps s { s with replies := rs } :=
      ⟨rfl, rfl, rfl, rfl, rfl, rfl, rfl, rfl, rfl, rfl, rfl, rfl, rfl, rfl, rfl, rfl⟩
    exact htake.trans (resumeSearch_ends c r _).1

/-- The frame of a search, as one equation of states. -/
theorem SearchKeeps.endFrame {s t : State} (h : SearchKeeps s t) :
    SearchEndFrame { s with err := t.err, errCode := t.errCode, errInfo := t.errInfo } t := by
  cases s
  cases t
  cases h
  simp only at *
  subst_vars
  rfl

/-- Settles O52: per command for the commands without a search, by the frame of the candidate loop for WSEARCH. -/
theorem onlyWsearchWritesSearchRegisters : Obligations.OnlyWsearchWritesSearchRegisters := by
  refine ⟨fun i s t hexec hsearch => ?_, writeReg_sameSearchRegisters, ?_, fun c s t hphase hmove => ?_⟩
  · rcases exec_cases i s with ⟨e, -, heq⟩ | ⟨-, heq⟩
    all_goals
      rw [heq] at hexec
      cases hexec
    · exact ⟨sameSearchRegisters_refl s, rfl, rfl, fun _ => .inl rfl⟩
    · obtain ⟨hregs, hreplies, hsent⟩ := effectOf_sameSearchRegisters i s hsearch
      exact ⟨hregs, hreplies, hsent, effectOf_resWaste i s hsearch⟩
  · exact fun src fcount fwidth fheight pal palLen scratch scrLen log logLen s t hexec =>
      (exec_wsearch_keeps hexec).endFrame
  · rw [engineStep, hphase] at hmove
    cases hmove
    exact (awaitReply_keeps c s).endFrame

/-! ### Register reads and writes (10_state.md R21 to R36) -/

/-- The last register stands at 0x44 (10_state.md R22). -/
theorem State.regMap_offset_le (s : State) : ∀ p ∈ s.regMap, p.1 ≤ 0x44 := by
  simp [State.regMap]

/-- Offsets past the last register read 0 (10_state.md R34). -/
theorem State.readReg_reserved (s : State) {off : Nat} (width : Nat) (h : 0x48 ≤ off) : s.readReg off width = 0 := by
  have hnone : s.regMap.lookup off = none := by
    rw [List.lookup_eq_none_iff]
    intro p hp
    have hle : p.1 ≤ 0x44 := State.regMap_offset_le s p hp
    simp only [bne_iff_ne]
    omega
  simp [State.readReg, hnone]

/-- Only CTRL, STATUS, CMD_BASE and WS_CAP take a write (10_state.md R22, R23). -/
theorem State.writeReg_other (s : State) {off : Nat} (width : Nat) (v : Word) (hctrl : off ≠ 0x04)
    (hstatus : off ≠ 0x08) (hbase : off ≠ 0x0C) (hcap : off ≠ 0x1C) : s.writeReg off width v = s := by
  unfold State.writeReg
  split
  · split
    · exact absurd rfl hctrl
    · exact absurd rfl hstatus
    · exact absurd rfl hbase
    · exact absurd rfl hcap
    · rfl
  · rfl

theorem answered_eq_false {off width : Nat} (h : width ≠ 4 ∨ off % 4 ≠ 0) : answered off width = false := by
  simp only [answered, Bool.and_eq_false_iff, decide_eq_false_iff_not]
  exact h

theorem State.readReg_unanswered (s : State) {off width : Nat} (h : answered off width = false) :
    s.readReg off width = 0 := by
  simp [State.readReg, h]

theorem State.writeReg_unanswered (s : State) {off width : Nat} (v : Word) (h : answered off width = false) :
    s.writeReg off width v = s := by
  simp [State.writeReg, h]

theorem State.seeStatus_unanswered (s : State) {off width : Nat} (h : answered off width = false) :
    s.seeStatus off width = s := by
  simp [State.seeStatus, h]

@[simp] theorem State.writeReg_ctrl (s : State) (v : Word) : s.writeReg 0x04 4 v = s.writeCtrl v := rfl

@[simp] theorem State.writeReg_status (s : State) (v : Word) : s.writeReg 0x08 4 v = s.writeStatus v := rfl

@[simp] theorem State.writeReg_cmdBase (s : State) (v : Word) : s.writeReg 0x0C 4 v = s.writeCmdBase v := rfl

@[simp] theorem State.writeReg_wsCap (s : State) (v : Word) : s.writeReg 0x1C 4 v = s.writeWsCap v := rfl

@[simp] theorem State.readReg_ctrl (s : State) : s.readReg 0x04 4 = s.ctrlWord := rfl

@[simp] theorem State.readReg_status (s : State) : s.readReg 0x08 4 = s.statusWord := rfl

/-- Settles O9: the eighteen registers one by one, and the reserved offsets. -/
theorem resetRegisters : Obligations.ResetRegisters := by
  refine ⟨fun off haligned => ?_, rfl, rfl, rfl⟩
  obtain ⟨k, rfl⟩ := Nat.dvd_of_mod_eq_zero haligned
  by_cases hk : k < 18
  · interval_cases k <;> rfl
  · rw [State.readReg_reserved _ _ (by omega), if_neg (by omega), if_neg (by omega)]

/-- Settles O10: a reserved offset is no register of the map and none that takes a write. -/
theorem reservedOffsets : Obligations.ReservedOffsets := by
  intro s off width v hlo hhi
  exact ⟨s.readReg_reserved 4 hlo, s.writeReg_other width v (by omega) (by omega) (by omega) (by omega)⟩

/-- Settles O11: each offset is looked up in the register map. -/
theorem readOnlyRegisters : Obligations.ReadOnlyRegisters := by
  intro s off width v
  exact ⟨⟨rfl, rfl, rfl, rfl, rfl, rfl, rfl, rfl, rfl, rfl, rfl, rfl, rfl, rfl⟩, s.writeReg_other width v⟩

/-! ### Host accesses (10_state.md R21, R35) -/

theorem Config.regOffset_add (c : Config) {off : Nat} (h : off < 0x100) :
    Config.regOffset c (c.pxsBase + off) = some off := by
  rw [Config.regOffset, if_pos (by omega), Nat.add_sub_cancel_left]

theorem Config.regOffset_outside (c : Config) {addr : Nat} (h : addr < c.pxsBase ∨ c.pxsBase + 0x100 ≤ addr) :
    Config.regOffset c addr = none := by
  rw [Config.regOffset, if_neg (by omega)]

theorem State.hostRegWrite_at (s : State) {off : Nat} (width : Nat) (v : Word) (h : off < 0x100) :
    s.hostRegWrite (s.cfg.pxsBase + off) width v = s.writeReg off width v := by
  rw [State.hostRegWrite, Config.regOffset_add _ h]

theorem State.hostRegRead_at (s : State) {off : Nat} (width : Nat) (h : off < 0x100) :
    s.hostRegRead (s.cfg.pxsBase + off) width = { s.seeStatus off width with hostData := s.readReg off width } := by
  rw [State.hostRegRead, Config.regOffset_add _ h]

/-- Settles O12: an access reaches readReg and writeReg at its offset; only an answered STATUS read while idle settles
the model's records. -/
theorem unansweredAccesses : Obligations.UnansweredAccesses := by
  refine ⟨fun s off width v hoff => ⟨?_, ⟨_, rfl, ?_, fun hother => ?_⟩, fun hbad => ?_⟩,
    fun s addr width v hout => ?_⟩
  · exact congrArg Host.Outcome.next (s.hostRegWrite_at width v hoff)
  · rw [s.hostRegRead_at width hoff]
    rcases s.seeStatus_cases off width with hsee | ⟨-, -, -, hsee⟩ <;> rw [hsee]
  · rw [s.hostRegRead_at width hoff]
    rcases s.seeStatus_cases off width with hsee | ⟨hidle, hstatus, -, -⟩
    · rw [hsee]
    · rcases hother with hne | hbusy
      · exact absurd hstatus hne
      · rw [hidle] at hbusy
        cases hbusy
  · have hun := answered_eq_false hbad
    simp only [handle, s.hostRegRead_at width hoff, s.hostRegWrite_at width v hoff, s.readReg_unanswered hun,
      s.seeStatus_unanswered hun, s.writeReg_unanswered v hun, and_self]
  · simp only [handle, State.hostRegRead, State.hostRegWrite, Config.regOffset_outside _ hout, and_self]

/-! ### The words STATUS and CTRL (10_state.md R24, R25) -/

@[simp] theorem bit_false : bit false = 0 := rfl

theorem bit_le_one (b : Bool) : bit b ≤ 1 := by cases b <;> decide

theorem ofNat_getLsbD_eq_of_bit {n i : Nat} {b : Bool} (hi : i < 32) (h : n / 2 ^ i % 2 = bit b) :
    (BitVec.ofNat 32 n).getLsbD i = b := by
  rw [BitVec.getLsbD_ofNat, Nat.testBit_eq_decide_div_mod_eq, h]
  cases b <;> simp [hi, bit]

theorem ofNat_extractLsb'_eq {n i k m : Nat} (hn : n < 2 ^ 32) (h : n / 2 ^ i = m) :
    (BitVec.ofNat 32 n).extractLsb' i k = BitVec.ofNat k m := by
  apply BitVec.eq_of_toNat_eq
  rw [BitVec.extractLsb'_toNat, BitVec.toNat_ofNat, Nat.mod_eq_of_lt hn, Nat.shiftRight_eq_div_pow, h,
    BitVec.toNat_ofNat]

/-- Each field of STATUS stands at its bits. -/
theorem State.statusWord_fields (s : State) :
    s.statusWord.getLsbD 0 = s.busy ∧ s.statusWord.getLsbD 1 = s.done ∧ s.statusWord.getLsbD 2 = s.err ∧
      s.statusWord.getLsbD 3 = s.encWait ∧ s.statusWord.extractLsb' 4 4 = 0 ∧
      s.statusWord.extractLsb' 8 8 = s.errCode.value ∧ s.statusWord.extractLsb' 16 16 = 0 := by
  have hbusy := bit_le_one s.busy
  have hdone := bit_le_one s.done
  have herr := bit_le_one s.err
  have hwait := bit_le_one s.encWait
  have hcode : s.errCode.value.toNat < 256 := s.errCode.value.isLt
  have hvalue : s.errCode.value = BitVec.ofNat 8 s.errCode.value.toNat := by simp
  unfold State.statusWord
  refine ⟨ofNat_getLsbD_eq_of_bit (by decide) (by omega), ofNat_getLsbD_eq_of_bit (by decide) (by omega),
    ofNat_getLsbD_eq_of_bit (by decide) (by omega), ofNat_getLsbD_eq_of_bit (by decide) (by omega), ?_, ?_, ?_⟩
  · rw [ofNat_extractLsb'_eq (m := 16 * s.errCode.value.toNat) (by omega) (by omega)]
    apply BitVec.eq_of_toNat_eq
    simp
  · rw [ofNat_extractLsb'_eq (m := s.errCode.value.toNat) (by omega) (by omega), ← hvalue]
  · exact ofNat_extractLsb'_eq (m := 0) (by omega) (by omega)

/-- Each field of CTRL stands at its bit. -/
theorem State.ctrlWord_fields (s : State) :
    s.ctrlWord.getLsbD 0 = false ∧ s.ctrlWord.getLsbD 1 = s.irqEn ∧ s.ctrlWord.getLsbD 2 = s.wz ∧
      s.ctrlWord.extractLsb' 3 29 = 0 := by
  have hirq := bit_le_one s.irqEn
  have hwz := bit_le_one s.wz
  unfold State.ctrlWord
  exact ⟨ofNat_getLsbD_eq_of_bit (by decide) (by rw [bit_false]; omega),
    ofNat_getLsbD_eq_of_bit (by decide) (by omega), ofNat_getLsbD_eq_of_bit (by decide) (by omega),
    ofNat_extractLsb'_eq (m := 0) (by omega) (by omega)⟩

/-- Settles O13: the fields of the two words, and the eleven codes one by one. -/
theorem statusAndCtrlFields : Obligations.StatusAndCtrlFields := by
  intro s
  obtain ⟨hbusy, hdone, herr, hwait, hlow, hcode, hhigh⟩ := s.statusWord_fields
  refine ⟨hbusy, hdone, herr, hwait, hlow, fun p hp hs => ?_, hhigh, s.ctrlWord_fields⟩
  rw [State.readReg_status, hcode, hs]
  fin_cases hp <;> rfl

/-! ### What the host's writes do (10_state.md R24, R26, R27, R31, R36) -/

/-- Settles O14: clearing a flag by a bit is choosing 0 where the bit is 1. -/
theorem statusWrite : Obligations.StatusWrite := by
  intro s v
  rw [State.writeReg_status]
  have hclear : ∀ flag b : Bool, (flag && !b) = if b then false else flag := by decide
  simp only [State.writeStatus, hclear]

theorem State.writeCmdBase_of_idle {s : State} (v : Word) (h : s.busy = false) :
    s.writeCmdBase v = { s with cmdBase := v } := by
  simp [State.writeCmdBase, h]

theorem State.writeWsCap_of_idle {s : State} (v : Word) (h : s.busy = false) :
    s.writeWsCap v = { s with wsCap := v } := by
  simp [State.writeWsCap, h]

/-- Settles O16: with BUSY = 0 the guards of R36 let every write through. -/
theorem idleRegisterWrites : Obligations.IdleRegisterWrites := by
  intro s v hidle
  rw [State.writeReg_ctrl, State.writeReg_cmdBase, State.writeReg_wsCap,
    State.writeCmdBase_of_idle v hidle, State.writeWsCap_of_idle v hidle]
  refine ⟨fun hstart => ?_, rfl, rfl, rfl, rfl⟩
  rw [State.writeCtrl, if_neg (by simp [hidle]), if_neg (by rw [hstart]; decide)]

/-- With both flags and the code clear a write to STATUS has nothing to clear. -/
theorem State.writeStatus_eq_self {s : State} (v : Word) (done : s.done = false) (err : s.err = false)
    (code : s.errCode = .noError) : s.writeStatus v = s := by
  cases s
  subst done err code
  simp [State.writeStatus]

/-- No register write during a run changes WS_CAP or WZ (10_state.md R36). -/
theorem State.writeReg_keeps_cap_wz {s : State} (off width : Nat) (v : Word) (hbusy : s.busy = true) :
    (s.writeReg off width v).wsCap = s.wsCap ∧ (s.writeReg off width v).wz = s.wz := by
  rcases s.writeReg_cases off width v with h | ⟨-, b, h⟩ | ⟨hidle, -⟩ | ⟨hidle, -⟩ | h
  case inr.inr.inl | inr.inr.inr.inl =>
    rw [hidle] at hbusy
    cases hbusy
  all_goals
    rw [h]
    exact ⟨rfl, rfl⟩

/-- Settles O17: with BUSY = 1 the guards of R36 hold, and the status invariant leaves STATUS nothing to clear. -/
theorem busyRegisterWrites : Obligations.BusyRegisterWrites := by
  intro s v hok hbusy
  obtain ⟨hdone, herr⟩ := hok.busyClear hbusy
  refine ⟨?_, ?_, ?_, State.writeStatus_eq_self v hdone herr (hok.code.1 herr),
    fun off width => State.writeReg_keeps_cap_wz off width v hbusy⟩
  · simp [State.writeCmdBase, hbusy]
  · simp [State.writeWsCap, hbusy]
  · simp [State.writeCtrl, hbusy]

end Sys2Proof.Machine
end

section
/-! PROOFS. The statements of the memory family (spec/20_memory.md): what commands and searches write and leave, the
memory invariant, and what the host and the encoder reach of data memory. -/

namespace Sys2Proof.Machine

open Sys2Proof Sys2Proof.Claims

/-! ### What a command writes and leaves (20_memory.md R66, R67) -/

/-- A command is END, or a WSEARCH, or one of those that complete in their one step (40_control.md R103, R104, R109). -/
theorem Instr.kinds (i : Instr) :
    i = .endList ∨
      (∃ src fcount fwidth fheight pal palLen scratch scrLen log logLen,
        i = .wsearch src fcount fwidth fheight pal palLen scratch scrLen log logLen) ∨
      i ≠ .endList ∧ ∀ a b c d e f g h k l, i ≠ .wsearch a b c d e f g h k l := by
  cases i with
  | endList => exact .inl rfl
  | wsearch => exact .inr (.inl ⟨_, _, _, _, _, _, _, _, _, _, rfl⟩)
  | _ => exact .inr (.inr ⟨nofun, nofun⟩)

/-- The effect of a command that does not search leaves every byte outside its written regions. -/
theorem read_effectOf_outside {i : Instr} {s : State} {a : Nat} (hk : checkOf i s = none)
    (hsearch : ∀ a b c d e f g h k l, i ≠ .wsearch a b c d e f g h k l) (ha : ∀ q ∈ writes i, q.contains a = false) :
    (effectOf i s).mem.read a = s.mem.read a := by
  simp only [← Bool.not_eq_true, Region.contains_iff] at ha
  cases i with
  | endList => rfl
  | diffuse src dst width height =>
    obtain ⟨-, -, -, -, -, hapart⟩ := diffuseCheck_eq_none.1 hk
    simp only [writes, List.mem_singleton, forall_eq] at ha
    exact (read_ditherImage hapart.symm).2 a (by omega)
  | seqEnc src dst width height frames =>
    obtain ⟨hw, hh, hF, hdiv, -, -, hapart⟩ := encodeCheck_eq_none.1 hk
    have hcells := cells_of_divides (width := width) hF hdiv
    have hpos : 0 < width * height := Nat.mul_pos (Nat.pos_of_ne_zero hw) (Nat.pos_of_ne_zero hh)
    simp only [writes, List.mem_singleton, forall_eq] at ha
    rw [hcells] at ha hapart hpos
    show (seqEncWalk src dst (width * height) frames s.mem).1.read a = _
    rw [hcells, read_seqEncWalk (Nat.pos_of_ne_zero hF) (Nat.pos_of_mul_pos_left hpos) hapart.symm, if_neg ha]
  | strEnc src dst width height frames =>
    obtain ⟨-, -, hF, hdiv, -, -, hapart⟩ := encodeCheck_eq_none.1 hk
    have hcells := cells_of_divides (width := width) hF hdiv
    rw [Nat.mul_comm width (height / frames)] at hcells
    simp only [writes, List.mem_singleton, forall_eq] at ha
    rw [hcells] at ha hapart
    show (strEncWalk src dst width (height / frames) frames s.mem).read a = _
    rw [read_strEncWalk (Nat.pos_of_ne_zero hF) hapart.symm, if_neg ha]
  | seqDec src dst width height frames pal palLen =>
    obtain ⟨-, -, hF, hdiv, ok⟩ := seqDecCheck_eq_none.1 hk
    have hcells : width * height = frames * (height * (width / frames)) := by
      rw [Nat.mul_comm width, cells_of_divides hF hdiv]
    simp only [writes, List.mem_singleton, forall_eq] at ha
    rw [hcells] at ha ok
    exact (read_decodeFrames ok.dstSrc.symm ok.dstPal.symm ok.indices).2 a (by omega)
  | strDec src dst width height fwidth fheight pal palLen =>
    obtain ⟨-, -, -, -, hdiv, ok⟩ := strDecCheck_eq_none.1 hk
    have hcells : width * height = strDecFrames width height fwidth fheight * (fheight * fwidth) := by
      rw [Nat.mul_comm fheight, strDecFrames, Nat.div_mul_cancel (Nat.dvd_of_mod_eq_zero hdiv)]
    simp only [writes, List.mem_singleton, forall_eq] at ha
    have hout : a < dst ∨ dst + 4 * (width * height) ≤ a := by omega
    rw [hcells] at hout ok
    exact (read_decodeFrames ok.dstSrc.symm ok.dstPal.symm ok.indices).2 a hout
  | resolve src dst width height pal palLen =>
    obtain ⟨-, -, ok⟩ := resolveCheck_eq_none.1 hk
    simp only [writes, List.mem_singleton, forall_eq] at ha
    exact (read_resolveWalk ok.dstSrc.symm ok.dstPal.symm ok.indices).2 a (by omega)
  | raster src dst width height rwidth =>
    obtain ⟨-, -, -, -, -, hapart⟩ := rasterCheck_eq_none.1 hk
    simp only [writes, List.mem_singleton, forall_eq] at ha
    unfold Apart at hapart
    show (writeRaster src (width * height) dst _ s.mem).read a = _
    rw [read_writeRaster (fun i hi j hj => by omega), if_neg ha]
  | wsearch a b c d e f g h k l => exact absurd rfl (hsearch a b c d e f g h k l)

/-- A WSEARCH whose checks pass leaves a sound search, and writes what that search may write (43_optimizer.md R185 to
R187). -/
theorem WsearchOk.effect {src fcount fwidth fheight pal palLen scratch scrLen log logLen : Nat} {s : State}
    (h : WsearchOk src fcount fwidth fheight pal palLen scratch scrLen log logLen s) (hl : s.cfg.legal = true) :
    let c := searchOf src fcount fwidth fheight pal palLen scratch log s.wsCap.toNat
    let t := wsearchEffect src fcount fwidth fheight pal palLen scratch log s
    LoopOk c s.cfg t ∧ SearchWrites c s.mem t.mem := by
  intro c t
  have hstart : WaitOk s.clearSearch c := h.start (Config.memSize_le hl)
  have hfuel : c.nCands - c.k < c.nCands := by
    have hpos := hstart.search.kPos
    have hle := hstart.search.kLe
    omega
  exact ⟨searchLoop_ok hstart hfuel, searchLoop_writes hstart hfuel⟩

/-- What a command may do to memory: only its written regions change, and the canonical form and the bound stay. -/
structure CommandWrites (i : Instr) (s : State) (m : Memory) : Prop where
  outside : ∀ a, (∀ q ∈ writes i, q.contains a = false) → m.read a = s.mem.read a
  canonical : s.mem.wf → m.wf
  below : s.mem.below s.cfg.memSize → m.below s.cfg.memSize

theorem CommandWrites.refl (i : Instr) (s : State) : CommandWrites i s s.mem := ⟨fun _ _ => rfl, id, id⟩

theorem effectOf_writes {i : Instr} {s : State} (hl : s.cfg.legal = true) (hk : checkOf i s = none) :
    CommandWrites i s (effectOf i s).mem := by
  rcases Instr.kinds i with rfl | ⟨src, fcount, fwidth, fheight, pal, palLen, scratch, scrLen, log, logLen, rfl⟩ |
    ⟨hend, hsearch⟩
  · exact .refl .endList s
  · have ok : WsearchOk src fcount fwidth fheight pal palLen scratch scrLen log logLen s := wsearchCheck_eq_none.1 hk
    obtain ⟨-, hout, hwf, hbelow⟩ := ok.effect hl
    have hscrLen := ok.scrLenOk
    have hlogLen := ok.logLenOk
    have hscrFits := ok.scratchFits
    have hlogFits := ok.logFits
    refine ⟨fun a ha => ?_, hwf, fun hm => hbelow _ hm ?_ ?_⟩
    · simp only [writes, List.mem_cons, List.not_mem_nil, or_false, forall_eq_or_imp, forall_eq, ← Bool.not_eq_true,
        Region.contains_iff] at ha
      obtain ⟨hnscr, hnlog⟩ := ha
      refine hout a ?_ ?_ <;> simp only [searchOf] <;> omega
    all_goals
      simp only [searchOf]
      omega
  · obtain ⟨m, acc, cursor, w, h, waste, heq, hwf⟩ := effectOf_complete i s hend hsearch
    refine ⟨fun a => read_effectOf_outside hk hsearch, fun hm => ?_, fun hm => below_effectOf hk hm hsearch⟩
    rw [heq]
    exact hwf hm

/-- A command fails a check and writes nothing, or passes them all and writes its regions alone. -/
theorem exec_writes {i : Instr} {s t : State} (hl : s.cfg.legal = true) (h : exec i s = .next t) :
    CommandWrites i s t.mem := by
  rcases exec_cases i s with ⟨e, -, heq⟩ | ⟨hk, heq⟩
  all_goals
    rw [heq] at h
    cases h
  · exact .refl i s
  · exact effectOf_writes hl hk

/-! ### What a search that waits writes and leaves (43_optimizer.md R185) -/

/-- A wait stays sound where the parameters, the log and the search registers stay. -/
theorem WaitOk.congr {s t : State} {c : Search} (h : WaitOk s c) (cfg : t.cfg = s.cfg)
    (registers : SameSearchRegisters s t)
    (log : ∀ a, c.log ≤ a → a < c.log + 16 * c.nCands → t.mem.read a = s.mem.read a) : WaitOk t c := by
  obtain ⟨hw, hh, hz, he, hc, -, -⟩ := registers
  have hemits := h.log.emits
  have hcands := h.cands
  have hk := h.search.kLe
  refine ⟨by rw [cfg]; exact h.search, ?_, by rw [hc]; exact hcands⟩
  exact h.log.congr (Nat.le_refl _) (fun a h1 h2 => log a h1 (by omega)) he hw hh hz (by rw [hc])

/-- Taking an answer from the list leaves the wait sound. -/
theorem WaitOk.withReplies {s : State} {c : Search} (h : WaitOk s c) (rs : List EncReply) :
    WaitOk { s with replies := rs } c :=
  h.congr rfl (sameSearchRegisters_refl s) (fun _ _ _ => rfl)

theorem engineStep_of_execute {s : State} {c : Search} (h : s.phase = .execute c) :
    engineStep s = .next (awaitReply c s) := by
  rw [engineStep, h]

theorem awaitReply_writes {s : State} {c : Search} (h : WaitOk s c) : SearchWrites c s.mem (awaitReply c s).mem := by
  rcases awaitReply_cases c s with ⟨-, heq⟩ | ⟨r, rs, -, heq⟩ <;> rw [heq]
  · exact .refl c s.mem
  · exact resumeSearch_writes (h.withReplies rs) r

/-- Where the search waits again after its move, it is sound and the same search. -/
theorem awaitReply_waits {s : State} {c d : Search} (h : WaitOk s c) (hp : s.phase = .execute c)
    (hd : (awaitReply c s).phase = .execute d) : WaitOk (awaitReply c s) d ∧ SameSearch c d := by
  rcases awaitReply_cases c s with ⟨-, heq⟩ | ⟨r, rs, -, heq⟩ <;> rw [heq] at hd ⊢
  · rw [hp] at hd
    cases hd
    exact ⟨h, rfl⟩
  · exact (resumeSearch_ok (h.withReplies rs) r).waits d hd

/-! ### The memory invariant (20_memory.md R50, R66, R70; 43_optimizer.md R185, R187) -/

/-- Where no search waits, the invariant is about memory and the written regions alone. -/
theorem MemoryOk.of_notWaiting {s : State} (legal : s.cfg.legal = true) (canonical : s.mem.wf)
    (below : s.mem.below s.cfg.memSize) (written : s.busy = true → ∀ r ∈ s.written, r.base + r.len ≤ s.cfg.memSize)
    (phase : ∀ c, s.phase ≠ .execute c) : MemoryOk s where
  legal := legal
  canonical := canonical
  below := below
  written := written
  waiting c hc := absurd hc (phase c)
  claimed c hc := absurd hc (phase c)

theorem MemoryOk.of_idle {s : State} (legal : s.cfg.legal = true) (canonical : s.mem.wf)
    (below : s.mem.below s.cfg.memSize) (phase : s.phase = .idle) : MemoryOk s :=
  .of_notWaiting legal canonical below (fun hb => absurd phase (State.busy_iff.1 hb)) (fun c => by rw [phase]; nofun)

/-- An error ends the run and leaves memory as it is (60_exceptions.md R202). -/
theorem MemoryOk.raiseError {s : State} (h : MemoryOk s) (e : Err) : MemoryOk (s.raiseError e) :=
  .of_idle h.legal h.canonical h.below rfl

/-- What the memory invariant looks at is the same, but for the records of a run that has ended. -/
structure SameMemory (s t : State) : Prop where
  cfg : t.cfg = s.cfg
  phase : t.phase = s.phase
  mem : t.mem = s.mem
  footprint : t.footprint = s.footprint
  registers : SameSearchRegisters s t
  written : s.busy = true → t.written = s.written

theorem MemoryOk.congr {s t : State} (h : MemoryOk s) (same : SameMemory s t) : MemoryOk t := by
  obtain ⟨cfg, phase, mem, footprint, registers, written⟩ := same
  have hbusy : t.busy = s.busy := by rw [State.busy, State.busy, phase]
  constructor
  case legal => rw [cfg]; exact h.legal
  case canonical => rw [mem]; exact h.canonical
  case below => rw [mem, cfg]; exact h.below
  case written =>
    intro hb
    rw [hbusy] at hb
    rw [written hb, cfg]
    exact h.written hb
  case waiting =>
    intro c hc
    rw [phase] at hc
    exact (h.waiting c hc).congr cfg registers (fun a _ _ => by rw [mem])
  case claimed =>
    intro c hc
    rw [phase] at hc
    rw [footprint]
    exact h.claimed c hc

/-! #### Moves of the engine -/

/-- A WSEARCH that waits is sound, and its log lies in its written regions. -/
theorem effectOf_waits {i : Instr} {s : State} {d : Search} (hl : s.cfg.legal = true) (hk : checkOf i s = none)
    (hd : (effectOf i s).phase = .execute d) :
    WaitOk (effectOf i s) d ∧
      ∃ q ∈ writes i, ∀ a, d.log ≤ a → a < d.log + 16 * d.nCands → q.contains a = true := by
  rcases Instr.kinds i with rfl | ⟨src, fcount, fwidth, fheight, pal, palLen, scratch, scrLen, log, logLen, rfl⟩ |
    ⟨hend, hsearch⟩
  · cases hd
  · have ok : WsearchOk src fcount fwidth fheight pal palLen scratch scrLen log logLen s := wsearchCheck_eq_none.1 hk
    obtain ⟨hwait, hsame⟩ := (ok.effect hl).1.waits d hd
    refine ⟨hwait, { base := log, len := logLen }, by simp [writes], fun a hlo hhi => ?_⟩
    have hlen := ok.logLenOk
    rw [hsame] at hlo hhi
    simp only [searchOf] at hlo hhi
    rw [Region.contains_iff]
    show log ≤ a ∧ a < log + logLen
    omega
  · obtain ⟨m, acc, cursor, w, h, waste, heq, -⟩ := effectOf_complete i s hend hsearch
    rw [heq] at hd
    cases hd

/-- A command run at the state that has claimed its regions keeps the invariant. -/
theorem MemoryOk.exec {i : Instr} {s t : State} (h : MemoryOk s) (hb : s.busy = true)
    (hx : exec i (s.claim i) = .next t) : MemoryOk t := by
  rcases exec_cases i (s.claim i) with ⟨e, -, heq⟩ | ⟨hk, heq⟩
  · rw [heq] at hx
    cases hx
    exact .of_idle h.legal h.canonical h.below rfl
  obtain ⟨hkeeps, hfootprint, hwritten, -⟩ := exec_ends hx
  obtain ⟨-, hwf, hbelow⟩ := exec_writes (s := s.claim i) h.legal hx
  have hcfg : t.cfg = s.cfg := hkeeps.cfg
  rw [heq] at hx
  cases hx
  constructor
  case legal => rw [hcfg]; exact h.legal
  case canonical => exact hwf h.canonical
  case below => rw [hcfg]; exact hbelow h.below
  case written =>
    intro _ r hr
    rw [hwritten, State.claim_written, List.mem_append] at hr
    rw [hcfg]
    rcases hr with hr | hr
    · exact writes_fit hk r hr
    · exact h.written hb r hr
  case waiting => exact fun d hd => (effectOf_waits (s := s.claim i) h.legal hk hd).1
  case claimed =>
    intro d hd a hlo hhi
    obtain ⟨-, q, hq, hlog⟩ := effectOf_waits (s := s.claim i) h.legal hk hd
    rw [hfootprint, State.claim_footprint, List.any_eq_true]
    exact ⟨q, List.mem_append_left _ (List.mem_append_right _ hq), hlog a hlo hhi⟩

theorem MemoryOk.runDescriptor {d : Descriptor} {s t : State} (h : MemoryOk s) (hb : s.busy = true)
    (hr : runDescriptor d s = .next t) : MemoryOk t := by
  rcases runDescriptor_next hr with ⟨e, -, rfl⟩ | ⟨i, -, -, hx⟩
  · exact h.raiseError _
  · exact h.exec hb hx

/-- A search that goes on keeps the invariant: its footprint and its log stay where they are. -/
theorem MemoryOk.awaitReply {c : Search} {s : State} (h : MemoryOk s) (hp : s.phase = .execute c) :
    MemoryOk (awaitReply c s) := by
  have hwait := h.waiting c hp
  have hkeeps := awaitReply_keeps c s
  obtain ⟨-, hwf, hbelow⟩ := awaitReply_writes hwait
  have hb : s.busy = true := State.busy_iff.2 (by rw [hp]; nofun)
  constructor
  case legal => rw [hkeeps.cfg]; exact h.legal
  case canonical => exact hwf h.canonical
  case below => rw [hkeeps.cfg]; exact hbelow _ h.below hwait.search.scratchFits hwait.search.logFits
  case written => rw [hkeeps.cfg, hkeeps.written]; exact fun _ => h.written hb
  case waiting => exact fun d hd => (awaitReply_waits hwait hp hd).1
  case claimed =>
    intro d hd
    obtain ⟨-, hsame⟩ := awaitReply_waits hwait hp hd
    rw [hkeeps.footprint, hsame]
    exact h.claimed c hp

theorem MemoryOk.engineStep {s t : State} (h : MemoryOk s) (hm : engineStep s = .next t) : MemoryOk t := by
  rcases engineStep_next hm with ⟨-, rfl⟩ | ⟨hp, hf⟩ | ⟨d, hp, hr⟩ | ⟨c, hp, rfl⟩
  · exact h
  · rcases fetchAndRun_next hf with ⟨e, -, rfl⟩ | ⟨-, -, hr⟩
    · exact h.raiseError e
    · have hfetched : MemoryOk s.fetched := .of_notWaiting h.legal h.canonical h.below
        (fun _ => h.written (State.busy_iff.2 (by rw [hp]; nofun))) nofun
      exact hfetched.runDescriptor rfl hr
  · exact h.runDescriptor (State.busy_iff.2 (by rw [hp]; nofun)) hr
  · exact h.awaitReply hp

/-! #### The outside world -/

theorem MemoryOk.writeReg {s : State} (h : MemoryOk s) (off width : Nat) (v : Word) :
    MemoryOk (s.writeReg off width v) := by
  have hregs := writeReg_sameSearchRegisters s off width v
  rcases s.writeReg_cases off width v with heq | ⟨-, b, heq⟩ | ⟨-, b, z, heq⟩ | ⟨-, b, z, base, cap, heq⟩ | heq
  case inr.inr.inl =>
    rw [heq]
    exact .of_notWaiting h.legal h.canonical h.below (fun _ => List.forall_mem_nil _) nofun
  all_goals
    rw [heq] at hregs ⊢
    exact h.congr ⟨rfl, rfl, rfl, rfl, hregs, fun _ => rfl⟩

/-- A reset during a run draws only bytes that the run would write, and those regions fit (70_reset_and_hazards.md
R231). -/
theorem MemoryOk.assertReset {s : State} (h : MemoryOk s) : MemoryOk s.assertReset := by
  unfold State.assertReset
  split
  · next hb =>
    have hfit : ∀ r ∈ s.wouldWrite, r.base + r.len ≤ s.cfg.memSize := by
      intro r hr
      rcases List.mem_append.1 hr with hr | hr
      · exact h.written hb r hr
      · exact s.toCome_fit r hr
    have hcfg : (s.drawRegions s.wouldWrite).cfg = s.cfg := by
      obtain ⟨m, n, heq, -⟩ := State.drawRegions_eq s.wouldWrite s
      rw [heq]
    refine .of_idle ?_ (State.wf_drawRegions h.canonical) ?_ rfl
    · rw [State.resetBlock_cfg, hcfg]
      exact h.legal
    · rw [State.resetBlock_cfg, hcfg]
      exact State.below_drawRegions h.below hfit
  · exact .of_idle h.legal h.canonical h.below rfl

/-- A byte that another agent writes lies in data memory and, while a search waits, outside its log, which the footprint
holds (20_memory.md R70). -/
theorem MemoryOk.otherWrites {s : State} (h : MemoryOk s) {a : Nat} (v : Byte) (foreign : List (Agent × Nat))
    (ha : a < s.cfg.memSize) (hout : s.busy = true → s.inFootprint a = false) :
    MemoryOk { s with mem := s.mem.write a v, foreign := foreign } where
  legal := h.legal
  canonical := Memory.wf_write h.canonical a v
  below := Memory.below_write h.below ha v
  written := h.written
  waiting c hc := by
    have hb : s.busy = true := State.busy_iff.2 (by rw [show s.phase = .execute c from hc]; nofun)
    refine (h.waiting c hc).congr rfl (sameSearchRegisters_refl s) (fun b hlo hhi => ?_)
    have hclaimed : s.inFootprint b = true := h.claimed c hc b hlo hhi
    refine Memory.read_write_other _ _ ?_
    rintro rfl
    rw [hout hb] at hclaimed
    cases hclaimed
  claimed := h.claimed

theorem MemoryOk.handle {e : Event} {s t : State} (h : MemoryOk s) (hh : handle e s = .next t) : MemoryOk t := by
  rcases handle_cases hh with ⟨-, hmove⟩ | ⟨off, width, v, rfl⟩ | ⟨-, rfl⟩ | ⟨d, n, x, w, u, rfl, hrecords⟩ |
    ⟨r, -, -, rfl⟩ | ⟨g, a, v, ha, ⟨hidle, rfl⟩ | ⟨-, hout, rfl⟩⟩
  · exact h.engineStep hmove
  · exact h.writeReg off width v
  · exact h.assertReset
  · refine h.congr ⟨rfl, rfl, rfl, rfl, sameSearchRegisters_refl s, fun hb => ?_⟩
    rcases hrecords with ⟨hw, -⟩ | ⟨hidle, -⟩
    · exact hw
    · rw [hidle] at hb
      cases hb
  · exact h.congr ⟨rfl, rfl, rfl, rfl, sameSearchRegisters_refl s, fun _ => rfl⟩
  · exact h.otherWrites v s.foreign ha (fun hb => by rw [hidle] at hb; cases hb)
  · exact h.otherWrites v _ ha (fun _ => hout)

/-- Settles O60: the invariant is inductive over the engine's moves and the inputs of the outside world. -/
theorem memoryIsKept : Obligations.MemoryIsKept := by
  intro s h
  cases ho : step s with
  | next t =>
    obtain ⟨rest, hstep⟩ := step_next ho
    have hrest : MemoryOk { s with inputs := rest } :=
      h.congr ⟨rfl, rfl, rfl, rfl, sameSearchRegisters_refl s, fun _ => rfl⟩
    rcases hstep with hmove | ⟨e, he⟩
    · exact hrest.engineStep hmove
    · exact hrest.handle he
  | fault _ => trivial
  | refused _ => trivial

/-! ### Writes stay in their regions, sources stay (20_memory.md R66, R67) -/

/-- Settles O50: per command by the closed form of its loop, per search by what its candidates can write. -/
theorem writesStayInRegions : Obligations.WritesStayInRegions := by
  refine ⟨fun i s t hl hx => (exec_writes hl hx).outside, fun c s t hw hp hm => ?_⟩
  rw [engineStep_of_execute hp] at hm
  cases hm
  exact (awaitReply_writes hw).outside

/-- No written region of a command whose checks pass meets one of its read regions (20_memory.md R67). -/
theorem reads_apart_writes {i : Instr} {s : State} (hk : checkOf i s = none) :
    ∀ q ∈ reads i, ∀ r ∈ writes i, Apart r.base r.len q.base q.len := by
  cases i <;> simp only [reads, writes, palRegion, List.mem_cons, List.not_mem_nil, or_false, forall_eq_or_imp,
    forall_eq, false_imp_iff, implies_true]
  case diffuse =>
    obtain ⟨-, -, -, -, -, hapart⟩ := diffuseCheck_eq_none.1 hk
    exact hapart
  case seqEnc | strEnc =>
    obtain ⟨-, -, -, -, -, -, hapart⟩ := encodeCheck_eq_none.1 hk
    exact hapart
  case seqDec =>
    obtain ⟨-, -, -, -, ok⟩ := seqDecCheck_eq_none.1 hk
    exact ⟨ok.dstSrc, ok.dstPal⟩
  case strDec =>
    obtain ⟨-, -, -, -, -, ok⟩ := strDecCheck_eq_none.1 hk
    exact ⟨ok.dstSrc, ok.dstPal⟩
  case resolve =>
    obtain ⟨-, -, ok⟩ := resolveCheck_eq_none.1 hk
    exact ⟨ok.dstSrc, ok.dstPal⟩
  case raster =>
    obtain ⟨-, -, -, -, -, hapart⟩ := rasterCheck_eq_none.1 hk
    exact hapart
  case wsearch =>
    have ok := wsearchCheck_eq_none.1 hk
    exact ⟨⟨ok.scratchSrc, ok.logSrc⟩, ok.scratchPal, ok.logPal⟩

theorem Apart.contains_eq_false {r q : Region} {a : Nat} (h : Apart r.base r.len q.base q.len)
    (ha : q.contains a = true) : r.contains a = false := by
  rw [Region.contains_iff] at ha
  rw [← Bool.not_eq_true, Region.contains_iff]
  unfold Apart at h
  omega

/-- Settles O51: what is written lies apart from what is read, by the checks of each command and by what they have
ensured of a search. -/
theorem sourcesAreKept : Obligations.SourcesAreKept := by
  refine ⟨fun i s t hl hx a ⟨q, hq, ha⟩ => ?_, fun c s t hw hp hm a ha => ?_⟩
  · have hwrites := (exec_writes hl hx).outside a
    rcases exec_cases i s with ⟨e, -, heq⟩ | ⟨hk, -⟩
    · rw [heq] at hx
      cases hx
      rfl
    · exact hwrites (fun r hr => (reads_apart_writes hk q hq r hr).contains_eq_false ha)
  · have hscrSrc := hw.search.scratchSrc
    have hscrPal := hw.search.scratchPal
    have hlogSrc := hw.search.logSrc
    have hlogPal := hw.search.logPal
    exact writesStayInRegions.2 c s t hw hp hm a (by omega) (by omega)

/-! ### Writes by other agents (20_memory.md R70, R76) -/

/-- It is the engine's turn: the step is the engine's move, and s0 differs from s in its inputs alone. -/
theorem step_of_turn {s s0 : State} (h : Turn s s0) :
    step s = engineStep s0 ∧ ∃ rest, s0 = { s with inputs := rest } := by
  rcases h with ⟨hnil, rfl⟩ | ⟨rest, hcons, rfl⟩
  · rw [step, hnil]
    exact ⟨rfl, s0.inputs, rfl⟩
  · rw [step, hcons]
    exact ⟨rfl, rest, rfl⟩

theorem State.inFootprint_iff {s : State} {a : Nat} : s.inFootprint a = true ↔ ∃ q ∈ s.footprint, q.contains a = true :=
  List.any_eq_true

/-- A byte that another agent has written during the run is found where a region holds it (20_memory.md R70, log 8). -/
theorem State.trespass_of_foreign {s : State} {rs : List Region} {g : Agent} {a : Nat} (hw : (g, a) ∈ s.foreign)
    (hr : ∃ q ∈ rs, q.contains a = true) : ∃ g', s.trespass rs = some g' := by
  have hsome : (s.foreign.find? (fun w => rs.any (fun r => r.contains w.2))).isSome = true :=
    List.find?_isSome.2 ⟨(g, a), hw, List.any_eq_true.2 hr⟩
  obtain ⟨w, hw⟩ := Option.isSome_iff_exists.1 hsome
  exact ⟨w.1, by rw [State.trespass, hw]; rfl⟩

theorem Memory.take_drop_readBytes (m : Memory) (a : Nat) {n k l : Nat} (h : k + l ≤ n) :
    ((m.readBytes a n).drop k).take l = m.readBytes (a + k) l := by
  induction n generalizing a k l with
  | zero =>
    obtain ⟨rfl, rfl⟩ : k = 0 ∧ l = 0 := by omega
    rfl
  | succ n ih =>
    cases k with
    | succ k =>
      rw [Memory.readBytes, List.drop_succ_cons, ih _ (by omega), Nat.add_assoc, Nat.add_comm 1 k]
    | zero =>
      cases l with
      | zero => rfl
      | succ l =>
        have htail := ih (a + 1) (k := 0) (l := l) (by omega)
        rw [List.drop_zero] at htail
        rw [Memory.readBytes, List.drop_zero, List.take_succ_cons, htail]
        rfl

theorem Descriptor.ofWords_congr {w w' : Nat → Word} (h : ∀ j < 16, w j = w' j) :
    Descriptor.ofWords w = Descriptor.ofWords w' := by
  simp [Descriptor.ofWords, h]

/-- FETCH reads the descriptor that the 64 bytes at CMD_PTR hold (30_encoding.md R80, 40_control.md R101). -/
theorem State.fetchWords_eq (s : State) : s.fetchWords = Descriptor.ofBytes (s.mem.readBytes s.cmdPtr 64) := by
  refine Descriptor.ofWords_congr fun j hj => ?_
  rw [s.mem.take_drop_readBytes s.cmdPtr (by omega), Memory.readLE]

theorem decode_fetchWords {s : State} {i : Instr} (h : decodeBytes (s.mem.readBytes s.cmdPtr 64) = .ok i) :
    decode s.fetchWords = .ok i := by
  rw [State.fetchWords_eq]
  rw [decodeBytes, Memory.length_readBytes, if_neg (by decide)] at h
  cases hd : decode (Descriptor.ofBytes (s.mem.readBytes s.cmdPtr 64)) with
  | error e => simp [hd] at h
  | ok j => simpa [hd] using h

/-- The command that turns out to use a byte another agent has written during the run is refused. -/
theorem engineStep_of_foreign {s : State} {i : Instr} {g : Agent} {a : Nat} (hp : s.phase = .fetch)
    (hc : s.fetchCheck = none) (hd : decode s.fetchWords = .ok i) (hw : (g, a) ∈ s.foreign)
    (hr : ∃ q ∈ s.descRegion :: (reads i ++ writes i), q.contains a = true) :
    ∃ g', engineStep s = .refused (.footprintWritten g') := by
  cases hdesc : s.trespass [s.descRegion] with
  | some g' => exact ⟨g', by simp only [engineStep, hp, fetchAndRun, hc, hdesc]⟩
  | none =>
    have hregion : ∃ q ∈ reads i ++ writes i, q.contains a = true := by
      obtain ⟨q, hq, ha⟩ := hr
      rcases List.mem_cons.1 hq with rfl | hq
      · obtain ⟨g', hg⟩ := State.trespass_of_foreign hw ⟨_, List.mem_singleton_self _, ha⟩
        rw [hdesc] at hg
        cases hg
      · exact ⟨q, hq, ha⟩
    obtain ⟨g', hg⟩ := State.trespass_of_foreign (s := s.fetched) hw hregion
    exact ⟨g', by simp only [engineStep, hp, fetchAndRun, hc, hdesc, runDescriptor, hd, hg]⟩

/-- Settles O53: the bus checks the footprint so far, and FETCH checks what was written before. -/
theorem footprintWritesAreRefused : Obligations.FootprintWritesAreRefused := by
  refine ⟨fun s g a v hb ha => ⟨fun hin => ?_, fun hout => ?_⟩,
    fun s s0 i g a hturn hp haligned hfits hdecode hforeign hregion => ?_⟩
  · have hin' := State.inFootprint_iff.2 hin
    simp [handle, State.busWrite, Nat.not_le.2 ha, hb, hin']
  · have hout' : s.inFootprint a = false := by
      rw [← Bool.not_eq_true, State.inFootprint_iff]
      rintro ⟨q, hq, hqa⟩
      rw [hout q hq] at hqa
      cases hqa
    refine ⟨{ s with mem := s.mem.write a v, foreign := (g, a) :: s.foreign }, ?_, rfl, fun b => s.mem.read_write a b v⟩
    simp [handle, State.busWrite, Nat.not_le.2 ha, hb, hout']
  · obtain ⟨hstep, rest, rfl⟩ := step_of_turn hturn
    rw [hstep]
    exact engineStep_of_foreign (s := { s with inputs := rest }) hp (fetchCheck_eq_none.2 ⟨haligned, hfits⟩)
      (decode_fetchWords hdecode) hforeign hregion

/-! ### What the host and the encoder reach (20_memory.md R50, R70, R72, R73, R76) -/

/-- The host must not rely on a byte that the run would write, or that a run has written whose end it has not seen. -/
theorem State.unsettled_any_iff {s : State} {a : Nat} :
    s.unsettled.any (fun r => r.contains a) = true ↔ (∃ q ∈ s.unseen, q.contains a = true) ∨ WouldWrite s a := by
  simp only [State.unsettled, List.any_append, Bool.or_eq_true, List.any_eq_true, WouldWrite]

theorem handle_hostRead {s : State} {a : Nat} (ha : a < s.cfg.memSize) :
    handle (.memRead .host a) s = .next (s.hostMemRead a) := by
  rw [handle, State.busRead, if_neg (Nat.not_le.2 ha)]

theorem handle_encoderRead {s : State} {a : Nat} (ha : a < s.cfg.memSize) :
    handle (.memRead .encoder a) s = s.encMemRead a := by
  rw [handle, State.busRead, if_neg (Nat.not_le.2 ha)]

/-- A host read of a settled byte returns it (20_memory.md R50). -/
theorem handle_hostRead_settled {s : State} {a : Nat} (ha : a < s.cfg.memSize)
    (h : s.unsettled.any (fun r => r.contains a) = false) :
    handle (.memRead .host a) s = .next { s with hostData := (s.mem.read a).setWidth 32 } := by
  simp [handle_hostRead ha, State.hostMemRead, h]

/-- An idle engine that has shown its end to the host has nothing unsettled (20_memory.md R73, log 27). -/
theorem State.unsettled_of_seen {s : State} (hidle : s.busy = false) (hwritten : s.written = [])
    (hunseen : s.unseen = []) (a : Nat) : s.unsettled.any (fun r => r.contains a) = false := by
  simp [State.unsettled, State.wouldWrite, State.toCome, hwritten, hunseen, State.busy_eq_false.1 hidle]

theorem Search.encoderMayRead_iff {c : Search} {a : Nat} :
    c.encoderMayRead a = true ↔
      (c.scratch ≤ a ∧ a < c.scratch + c.width * c.height) ∨ (c.pal ≤ a ∧ a < c.pal + 4 * c.palLen) := by
  rw [Search.encoderMayRead, Bool.or_eq_true, Region.contains_iff, Region.contains_iff, palRegion]

/-- A host read of STATUS with BUSY = 0 settles every region. -/
theorem handle_statusRead_idle {s : State} (hidle : s.busy = false) :
    handle (.regRead (s.cfg.pxsBase + 0x08) 4) s =
      .next { s with hostData := s.readReg 0x08 4, written := [], unseen := [] } := by
  have hsee : s.seeStatus 0x08 4 = { s with written := [], unseen := [] } := by
    simp [State.seeStatus, answered, hidle]
  rw [handle, s.hostRegRead_at 4 (by decide), hsee]

/-- An encoder read in each phase (20_memory.md R76, log 21). -/
theorem State.encMemRead_cases (s : State) (a : Nat) :
    (s.busy = false → s.encMemRead a = .next { s with encData := s.mem.read a }) ∧
      (s.busy = true → s.encWait = false → s.encMemRead a = .refused .encoderReadOutside) ∧
      ∀ c, s.phase = .execute c → s.encMemRead a =
        if c.encoderMayRead a then .next { s with encData := s.mem.read a } else .refused .encoderReadOutside := by
  refine ⟨fun hidle => ?_, fun hbusy hwait => ?_, fun c hp => ?_⟩
  · rw [State.encMemRead, State.busy_eq_false.1 hidle]
  · rw [State.busy_iff] at hbusy
    unfold State.encWait at hwait
    unfold State.encMemRead
    cases hp : s.phase with
    | idle => exact absurd hp hbusy
    | fetch => rfl
    | validate d => rfl
    | execute c => simp [hp] at hwait
  · rw [State.encMemRead, hp]

/-- Settles O54: one access rule of the bus per clause. -/
theorem idleMemoryAccess : Obligations.IdleMemoryAccess := by
  refine ⟨fun s a ha => ⟨fun hun => ?_, fun hunseen hwould => ?_⟩, fun s hidle => ?_, fun s a ha => ?_,
    fun s g a v hidle ha => ?_, fun s g a v ha => ?_⟩
  · rw [handle_hostRead ha, State.hostMemRead, if_pos (State.unsettled_any_iff.2 hun)]
  · refine handle_hostRead_settled ha ?_
    rw [← Bool.not_eq_true, State.unsettled_any_iff]
    rintro (⟨q, hq, hqa⟩ | hw)
    · rw [hunseen q hq] at hqa
      cases hqa
    · exact hwould hw
  · refine ⟨_, handle_statusRead_idle hidle, rfl, fun a ha => ?_⟩
    refine handle_hostRead_settled ha (State.unsettled_of_seen ?_ rfl rfl a)
    exact hidle
  · rw [handle_encoderRead ha]
    obtain ⟨hidle, hbusy, hwait⟩ := s.encMemRead_cases a
    refine ⟨hidle, fun c hp => ⟨fun hin => ?_, fun hscr hpal => ?_⟩, hbusy⟩
    · rw [hwait c hp, if_pos (Search.encoderMayRead_iff.2 hin)]
    · rw [hwait c hp, if_neg (mt Search.encoderMayRead_iff.1 (not_or.2 ⟨hscr, hpal⟩))]
  · refine ⟨{ s with mem := s.mem.write a v }, ?_, rfl, fun b => s.mem.read_write a b v⟩
    simp [handle, State.busWrite, Nat.not_le.2 ha, hidle]
  · simp [handle, State.busRead, State.busWrite, ha]

end Sys2Proof.Machine
end

section
/-! PROOFS. The statements of the encoding family (spec/30_encoding.md): the descriptor as bytes and as words, what the
decoder answers, that it undoes the encoder, and what a rejected descriptor raises. -/

namespace Sys2Proof

open Sys2Proof.Machine Sys2Proof.Claims

/-! ### A descriptor's bytes (30_encoding.md R80) -/

/-- Word j of a list of words stands at bytes 4·j to 4·j + 3. -/
theorem take_drop_flatMap_leBytes (ws : List Word) (rest : List Byte) {j : Nat} (hj : j < ws.length) :
    ((ws.flatMap (fun w => leBytes 4 w.toNat) ++ rest).drop (4 * j)).take 4 = leBytes 4 (ws.getD j 0).toNat := by
  induction ws generalizing j with
  | nil => exact absurd hj (Nat.not_lt_zero j)
  | cons w ws ih =>
    rw [List.flatMap_cons, List.append_assoc]
    cases j with
    | zero => exact List.take_left' (length_leBytes 4 w.toNat)
    | succ j =>
      have hdrop : 4 * (j + 1) = (leBytes 4 w.toNat).length + 4 * j := by rw [length_leBytes]; omega
      rw [hdrop, List.drop_length_add_append, List.getD_cons_succ]
      exact ih (Nat.lt_of_succ_lt_succ hj)

theorem ofNat_leValue_leBytes (w : Word) : BitVec.ofNat 32 (leValue (leBytes 4 w.toNat)) = w := by
  rw [leValue_leBytes, Nat.mod_eq_of_lt (b := 256 ^ 4) w.isLt, BitVec.ofNat_toNat, BitVec.setWidth_eq]

@[simp] theorem Descriptor.length_toBytes (d : Descriptor) : d.toBytes.length = 64 := rfl

/-- The words read back from a descriptor's bytes are its words, whatever follows. -/
theorem Descriptor.ofBytes_toBytes (d : Descriptor) (rest : List Byte) : Descriptor.ofBytes (d.toBytes ++ rest) = d := by
  calc Descriptor.ofBytes (d.toBytes ++ rest)
    _ = Descriptor.ofWords (fun j => d.words.getD j 0) := Descriptor.ofWords_congr fun j hj => by
        rw [Descriptor.toBytes, take_drop_flatMap_leBytes d.words rest hj, ofNat_leValue_leBytes]
    _ = d := rfl

/-! ### A field's word (30_encoding.md R82) -/

theorem toNat_field {n : Nat} (h : isWord n = true) : (field n).toNat = n :=
  Nat.mod_eq_of_lt (of_decide_eq_true h)

@[simp] theorem field_toNat (w : Word) : field w.toNat = w := by
  rw [field, BitVec.ofNat_toNat, BitVec.setWidth_eq]

@[simp] theorem isWord_toNat (w : Word) : isWord w.toNat = true := decide_eq_true w.isLt

/-! ### What the decoder answers (30_encoding.md R84, R87) -/

theorem Descriptor.opc_eq (d : Descriptor) : d.opc = d.cmd.toNat % 256 := by
  rw [Descriptor.opc, BitVec.extractLsb'_toNat, Nat.shiftRight_zero]

theorem Descriptor.cmdRsvd_eq (d : Descriptor) : d.cmdRsvd = d.cmd.toNat / 256 := by
  have hlt := d.cmd.isLt
  rw [Descriptor.cmdRsvd, BitVec.extractLsb'_toNat, Nat.shiftRight_eq_div_pow]
  omega

/-- The command that a descriptor's OPC selects, with the fields R86 gives it (END where OPC is reserved). -/
def Descriptor.command (d : Descriptor) : Instr :=
  match d.cmd.toNat % 256 with
  | 0x01 => .diffuse d.src.toNat d.dst.toNat d.width.toNat d.height.toNat
  | 0x02 => .seqEnc d.src.toNat d.dst.toNat d.width.toNat d.height.toNat d.fcount.toNat
  | 0x03 => .seqDec d.src.toNat d.dst.toNat d.width.toNat d.height.toNat d.fcount.toNat d.pal.toNat d.palLen.toNat
  | 0x04 => .strEnc d.src.toNat d.dst.toNat d.width.toNat d.height.toNat d.fcount.toNat
  | 0x05 => .strDec d.src.toNat d.dst.toNat d.width.toNat d.height.toNat d.fwidth.toNat d.fheight.toNat d.pal.toNat
      d.palLen.toNat
  | 0x06 => .resolve d.src.toNat d.dst.toNat d.width.toNat d.height.toNat d.pal.toNat d.palLen.toNat
  | 0x07 => .raster d.src.toNat d.dst.toNat d.width.toNat d.height.toNat d.rwidth.toNat
  | 0x08 => .wsearch d.src.toNat d.fcount.toNat d.fwidth.toNat d.fheight.toNat d.pal.toNat d.palLen.toNat
      d.scratch.toNat d.scrLen.toNat d.log.toNat d.logLen.toNat
  | _ => .endList

/-- The decoder: three checks in the order of R84, then the command that OPC selects. -/
theorem decode_eq (d : Descriptor) : decode d =
    if 0x08 < d.cmd.toNat % 256 then .error (.badOpcode (d.cmd.toNat % 256))
    else if d.cmd.toNat / 256 ≠ 0 then .error .cmdReserved
    else if d.rsvd ≠ 0 then .error .rsvdNonzero
    else .ok d.command := by
  rw [decode, d.opc_eq, d.cmdRsvd_eq, Descriptor.command]
  by_cases hopc : 0x08 < d.cmd.toNat % 256
  · rw [if_pos hopc, if_pos hopc]
  · rw [if_neg hopc, if_neg hopc]
    have hle : d.cmd.toNat % 256 ≤ 0x08 := Nat.not_lt.1 hopc
    generalize d.cmd.toNat % 256 = opc at hle
    interval_cases opc <;> rfl

/-- The three checks of R84 let the descriptor pass. -/
structure Descriptor.Legal (d : Descriptor) : Prop where
  opc : d.cmd.toNat % 256 ≤ 0x08
  high : d.cmd.toNat / 256 = 0
  rsvd : d.rsvd = 0

/-- The decoder accepts the legal descriptors alone. -/
theorem decode_eq_ok {d : Descriptor} {i : Instr} : decode d = .ok i ↔ d.Legal ∧ d.command = i := by
  rw [decode_eq]
  constructor
  · intro h
    split_ifs at h with hopc hhigh hrsvd
    exact ⟨⟨Nat.not_lt.1 hopc, not_not.1 hhigh, not_not.1 hrsvd⟩, Except.ok.inj h⟩
  · rintro ⟨⟨hopc, hhigh, hrsvd⟩, rfl⟩
    rw [if_neg (Nat.not_lt.2 hopc), if_neg (not_not.2 hhigh), if_neg (not_not.2 hrsvd)]

/-! ### A command and its descriptor (30_encoding.md R83, R86) -/

theorem Instr.toDescriptor_legal (i : Instr) : i.toDescriptor.Legal := by
  have hcmd : i.toDescriptor.cmd.toNat ≤ 0x08 := by cases i <;> simp [Instr.toDescriptor]
  exact ⟨by omega, by omega, by cases i <;> rfl⟩

/-- Each operand is read back from the word it was written to. -/
theorem Instr.command_toDescriptor {i : Instr} (h : i.wellFormed = true) : i.toDescriptor.command = i := by
  rw [Instr.wellFormed, List.all_eq_true] at h
  cases i <;> simp only [Instr.operands, List.mem_cons, List.not_mem_nil, or_false, forall_eq_or_imp, forall_eq] at h <;>
    simp [Descriptor.command, Instr.toDescriptor, toNat_field, h]

theorem Descriptor.command_wellFormed (d : Descriptor) : d.command.wellFormed = true := by
  unfold Descriptor.command
  split <;> simp [Instr.wellFormed, Instr.operands]

theorem Descriptor.Legal.cmd_toDescriptor_command {d : Descriptor} (h : d.Legal) :
    d.command.toDescriptor.cmd = d.cmd := by
  obtain ⟨hopc, hhigh, -⟩ := h
  have hcmd : d.cmd.toNat % 256 = d.cmd.toNat := by omega
  apply BitVec.eq_of_toNat_eq
  rw [Descriptor.command, ← hcmd]
  generalize d.cmd.toNat % 256 = opc at hopc
  interval_cases opc <;> rfl

/-- A command's descriptor holds each word that R86 marks for its opcode as it was read. -/
theorem Descriptor.words_toDescriptor_command (d : Descriptor) :
    ∀ j ∈ usesWord (d.cmd.toNat % 256), d.command.toDescriptor.words[j]? = d.words[j]? := by
  unfold Descriptor.command
  split <;> next hopc => simp [hopc, usesWord, Instr.toDescriptor, Descriptor.words]

/-- The command is a function of OPC and the words that R86 marks for it (30_encoding.md R85). -/
theorem Descriptor.command_congr {d d' : Descriptor} (hcmd : d'.cmd = d.cmd)
    (hwords : ∀ j ∈ usesWord (d.cmd.toNat % 256), d'.words[j]? = d.words[j]?) : d'.command = d.command := by
  unfold Descriptor.command
  rw [hcmd]
  split
  case h_9 => rfl
  all_goals
    next hopc =>
    simp only [hopc, usesWord, List.forall_mem_cons, Descriptor.words, List.getElem?_cons_succ, List.getElem?_cons_zero,
      Option.some.injEq] at hwords
    simp only [hwords]

/-- Settles O2: the bytes give back the descriptor, and the descriptor the command. -/
theorem encodedCommandsDecode : Obligations.EncodedCommandsDecode := by
  refine fun i hwf => ⟨i.toDescriptor.length_toBytes, fun rest => ?_⟩
  have hlen : ¬(encodeBytes i ++ rest).length < 64 := by simp [encodeBytes]
  have hdecode : decode i.toDescriptor = .ok i := decode_eq_ok.2 ⟨i.toDescriptor_legal, i.command_toDescriptor hwf⟩
  rw [decodeBytes, if_neg hlen, encodeBytes, Descriptor.ofBytes_toBytes, hdecode]

/-- Settles O3: what the decoder accepts is legal, and its command reads the words that R86 marks. -/
theorem decodedCommandsAreWellFormed : Obligations.DecodedCommandsAreWellFormed := by
  intro d i h
  obtain ⟨hlegal, rfl⟩ := decode_eq_ok.1 h
  refine ⟨d.command_wellFormed, hlegal.cmd_toDescriptor_command, ?_⟩
  have hcmd : d.cmd.toNat % 256 = d.cmd.toNat := Nat.mod_eq_of_lt (Nat.lt_of_div_eq_zero (by decide) hlegal.high)
  rw [← hcmd]
  exact d.words_toDescriptor_command

/-- Settles O4: neither the three checks nor the command look at another word. -/
theorem unusedFieldsIgnored : Obligations.UnusedFieldsIgnored := by
  intro d d' hcmd hrsvd hwords
  simp only [decode_eq, hcmd, ne_eq, hrsvd, Descriptor.command_congr hcmd hwords]

/-- Settles O1, row by row of the table. -/
theorem specWordsDecode : Obligations.SpecWordsDecode := by
  refine ⟨fun d hd => ?_, rfl, rfl⟩
  simp only [hd]
  exact ⟨rfl, rfl, rfl, rfl, rfl, rfl, rfl, rfl, rfl⟩

end Sys2Proof

namespace Sys2Proof.Machine

open Sys2Proof Sys2Proof.Claims

/-! ### Rejected descriptors (30_encoding.md R84) -/

/-- A rejected descriptor raises its error, and nothing else changes (60_exceptions.md R202). -/
theorem runDescriptor_of_rejected {d : Descriptor} {code : ErrCode} {info : Nat} (h : RejectedWith d code info)
    (s : State) : runDescriptor d s = .next (failed s code info) := by
  rw [runDescriptor, decode_eq]
  rcases h with ⟨hopc, rfl, rfl⟩ | ⟨hopc, hhigh, rfl, rfl⟩ | ⟨hopc, hhigh, hrsvd, rfl, rfl⟩
  · rw [if_pos hopc]
    rfl
  · rw [if_neg (Nat.not_lt.2 hopc), if_pos hhigh]
    rfl
  · rw [if_neg (Nat.not_lt.2 hopc), if_neg (not_not.2 hhigh), if_pos hrsvd]
    rfl

/-- No other agent has written a byte of the regions during the run (20_memory.md R70). -/
theorem State.trespass_eq_none {s : State} {rs : List Region}
    (h : ∀ w ∈ s.foreign, ∀ q ∈ rs, q.contains w.2 = false) : s.trespass rs = none := by
  rw [State.trespass, Option.map_eq_none_iff, List.find?_eq_none]
  intro w hw
  rw [List.any_eq_true]
  rintro ⟨q, hq, hqw⟩
  rw [h w hw q hq] at hqw
  cases hqw

/-- FETCH of a descriptor that is aligned, in data memory and written by no other agent during the run goes on to run the
words it holds (40_control.md R101). -/
theorem engineStep_of_fetch {s : State} (hp : s.phase = .fetch) (haligned : s.cmdPtr % 4 = 0)
    (hfits : s.cmdPtr + 64 ≤ s.cfg.memSize) (hforeign : ∀ w ∈ s.foreign, s.descRegion.contains w.2 = false) :
    engineStep s = runDescriptor (Descriptor.ofBytes (s.mem.readBytes s.cmdPtr 64)) s.fetched := by
  have hclear : s.trespass [s.descRegion] = none :=
    State.trespass_eq_none fun w hw q hq => List.mem_singleton.1 hq ▸ hforeign w hw
  simp only [engineStep, hp, fetchAndRun, fetchCheck_eq_none.2 ⟨haligned, hfits⟩, hclear, s.fetchWords_eq]

/-- Settles O5: the decoder's checks in order, and the step that meets them in FETCH. -/
theorem reservedEncodingsFail : Obligations.ReservedEncodingsFail := by
  refine ⟨fun s d code info h => runDescriptor_of_rejected h s,
    fun d hopc hhigh hrsvd => ⟨d.command, decode_eq_ok.2 ⟨⟨hopc, hhigh, hrsvd⟩, rfl⟩⟩, ?_⟩
  rintro s s0 d code info hturn hp haligned hfits rfl hrejected hforeign
  obtain ⟨hstep, rest, rfl⟩ := step_of_turn hturn
  rw [hstep, engineStep_of_fetch (s := { s with inputs := rest }) hp haligned hfits hforeign,
    runDescriptor_of_rejected hrejected]
  rfl

end Sys2Proof.Machine
end

section
/-! PROOFS. The statements of the control family (spec/40_control.md): START, the fetch checks, the command that a step runs,
END, and where the engine's move from FETCH leaves a run. -/

namespace Sys2Proof.Machine

open Sys2Proof Sys2Proof.Claims

/-! ### START (40_control.md R100) -/

theorem State.writeCtrl_of_busy {s : State} (v : Word) (h : s.busy = true) :
    s.writeCtrl v = { s with irqEn := v.getLsbD 1 } := by
  rw [State.writeCtrl, if_pos h]

theorem State.writeCtrl_start {s : State} {v : Word} (h : s.busy = false) (hstart : v.getLsbD 0 = true) :
    s.writeCtrl v = s.start (v.getLsbD 1) (v.getLsbD 2) := by
  rw [State.writeCtrl, if_neg (by simp [h]), if_pos hstart]

/-- Settles O15: CTRL's guard takes bit 0 to START while idle; while BUSY only IRQ_EN is written. -/
theorem startARun : Obligations.StartARun := by
  intro s v hstart
  rw [State.writeReg_ctrl]
  exact ⟨fun hidle => State.writeCtrl_start hidle hstart, State.writeCtrl_of_busy v⟩

/-! ### FETCH (40_control.md R101) -/

theorem State.fetchCheck_of_misaligned {s : State} (h : s.cmdPtr % 4 ≠ 0) :
    s.fetchCheck = some { code := .badDesc, info := 0x10 } := by
  simp [State.fetchCheck, failIf, firstError, h]

theorem State.fetchCheck_of_outside {s : State} (haligned : s.cmdPtr % 4 = 0) (h : s.cfg.memSize < s.cmdPtr + 64) :
    s.fetchCheck = some { code := .range, info := 0x10 } := by
  simp [State.fetchCheck, failIf, firstError, haligned, h]

theorem engineStep_of_fetchCheck {s : State} {e : Err} (hp : s.phase = .fetch) (h : s.fetchCheck = some e) :
    engineStep s = .next (failed s e.code e.info) := by
  simp only [engineStep, hp, fetchAndRun, h]
  rfl

/-- Settles O6: the first check that fails raises its error at the engine's turn. -/
theorem fetchChecks : Obligations.FetchChecks := by
  intro s s0 hturn hp
  obtain ⟨hstep, rest, rfl⟩ := step_of_turn hturn
  rw [hstep]
  exact ⟨fun h => engineStep_of_fetchCheck (s := { s with inputs := rest }) hp (State.fetchCheck_of_misaligned h),
    fun haligned h =>
      engineStep_of_fetchCheck (s := { s with inputs := rest }) hp (State.fetchCheck_of_outside haligned h)⟩

/-! ### The command that a step runs (40_control.md R101, R102) -/

/-- The decoded command runs at the state that has claimed its regions, where no other agent has written them. -/
theorem runDescriptor_of_decode {s : State} {d : Descriptor} {i : Instr} (hd : decode d = .ok i)
    (hclear : s.trespass (reads i ++ writes i) = none) : runDescriptor d s = exec i (s.claim i) := by
  simp only [runDescriptor, hd, hclear]

/-- FETCH of a clear descriptor that decodes to a command with clear regions runs that command, at the fetched state that
has claimed them. -/
theorem engineStep_of_decode {s : State} {i : Instr} (hp : s.phase = .fetch) (haligned : s.cmdPtr % 4 = 0)
    (hfits : s.cmdPtr + 64 ≤ s.cfg.memSize) (hdecode : decodeBytes (s.mem.readBytes s.cmdPtr 64) = .ok i)
    (hforeign : ∀ w ∈ s.foreign, ∀ q ∈ s.descRegion :: (reads i ++ writes i), q.contains w.2 = false) :
    engineStep s = exec i (s.fetched.claim i) := by
  have hdesc : ∀ w ∈ s.foreign, s.descRegion.contains w.2 = false := fun w hw => hforeign w hw _ List.mem_cons_self
  have hregions : s.fetched.trespass (reads i ++ writes i) = none :=
    State.trespass_eq_none fun w hw q hq => hforeign w hw q (List.mem_cons_of_mem _ hq)
  rw [engineStep_of_fetch hp haligned hfits hdesc, ← s.fetchWords_eq,
    runDescriptor_of_decode (decode_fetchWords hdecode) hregions]

/-- Settles O7: the state that the command runs at is written out, with the fetched words as the 64 bytes hold them. -/
theorem stepRunsDecodedCommand : Obligations.StepRunsDecodedCommand := by
  intro s s0 i hturn hp haligned hfits hdecode hforeign
  obtain ⟨hstep, rest, rfl⟩ := step_of_turn hturn
  rw [hstep, ← s.fetchWords_eq]
  exact engineStep_of_decode (s := { s with inputs := rest }) hp haligned hfits hdecode hforeign

/-! ### END (40_control.md R104) -/

theorem exec_endList (s : State) : exec .endList s = .next { s with phase := .idle, done := true } := rfl

/-- Settles O20: END's only next state has the phase and DONE changed. -/
theorem endEndsTheRun : Obligations.EndEndsTheRun := by
  refine fun s => ⟨exec_endList s, fun t h => ?_⟩
  rw [exec_endList] at h
  cases h
  exact ⟨rfl, rfl, rfl, fun _ => rfl⟩

/-! ### Where a move leaves the engine (40_control.md R103, R107; 60_exceptions.md R217) -/

theorem engineStep_of_idle {s : State} (h : s.phase = .idle) : engineStep s = .next s := by
  rw [engineStep, h]

/-- Settles O8: a move ends as `MoveEnd` says, and one that completes has passed the fetch checks. -/
theorem engineAdvances : Obligations.EngineAdvances := by
  refine ⟨fun s t hp h => ?_, fun s s0 hturn hidle => ?_, fun s e rest hinputs => ?_⟩
  · obtain ⟨-, hends, hfetched⟩ := engineStep_ends h (by rw [hp]; nofun)
    cases hends with
    | ends phase done same => exact .inl ⟨phase, same.cmdPtr⟩
    | fails phase done ptr => exact .inl ⟨phase, ptr⟩
    | waits c phase done same => exact .inr (.inl ⟨c, phase, same.cmdPtr⟩)
    | completes phase done ptr count =>
      obtain ⟨-, hfits⟩ := hfetched hp (by rw [phase]; nofun)
      exact .inr (.inr ⟨phase, ptr, ptr ▸ hfits, count⟩)
  · obtain ⟨hstep, rest, rfl⟩ := step_of_turn hturn
    rw [hstep]
    exact engineStep_of_idle (State.busy_eq_false.1 hidle)
  · rw [step, hinputs]

end Sys2Proof.Machine
end

section
/-! PROOFS. The statements of the dither family (spec/41_dither.md): DIFFUSE's validation list in order, what a DIFFUSE that
passes it leaves, and that its output bytes depend on W, H and the source bytes alone. -/

namespace Sys2Proof.Machine

open Sys2Proof Sys2Proof.Claims

/-! ### Validation lists, check by check (40_control.md R102) -/

/-- The model's check is the stated one: it raises that error where the condition holds and passes where it does not. -/
def Raises (check : Option Err) : Prop × ErrCode × Nat → Prop
  | (p, code, info) => (p → check = some { code, info }) ∧ (¬p → check = none)

theorem failIf_raises {b : Bool} {p : Prop} {code : ErrCode} {info : Nat} (h : b = true ↔ p) :
    Raises (failIf b code info) (p, code, info) :=
  ⟨fun hp => by rw [h.2 hp]; rfl, fun hp => failIf_eq_none.2 (Bool.not_eq_true _ ▸ mt h.1 hp)⟩

/-- A command whose list starts with the stated checks meets them in order; `tail` is what its list still holds after them. -/
theorem checksInOrder_of_raises {i : Instr} {s t : State} {rest : Prop} {checks tail : List (Option Err)}
    {stated : List (Prop × ErrCode × Nat)} (hraises : List.Forall₂ Raises checks stated)
    (hexec : exec i s = s.validated (firstError (checks ++ tail)) t)
    (hrest : exec i s = s.validated (firstError tail) t → rest) : ChecksInOrder i s rest stated := by
  induction hraises with
  | nil => exact hrest hexec
  | cons hraise _ ih =>
    obtain ⟨hfails, hpasses⟩ := hraise
    refine ⟨fun hp => ?_, fun hp => ih ?_⟩
    · rw [Fails, hexec, hfails hp]
      rfl
    · rw [hexec, hpasses hp]
      rfl

theorem not_fits_iff_misfit {s : State} {a n : Nat} :
    (!Region.fits { base := a, len := n } s.cfg) = true ↔ Misfit s a n := by
  rw [Bool.not_eq_true', ← Bool.not_eq_true, Region.fits_iff, Nat.not_le, Misfit]

theorem overlaps_iff_share {a n b m : Nat} :
    Region.overlaps { base := a, len := n } { base := b, len := m } = true ↔ Share a n b m := by
  simp only [Region.overlaps_iff, Region.contains_iff, Share]

/-- Settles O22: each check of the model's list is the stated one. -/
theorem diffuseChecks : Obligations.DiffuseChecks := by
  intro src dst width height s
  exact checksInOrder_of_raises (tail := [])
    (.cons (failIf_raises decide_eq_true_iff) <| .cons (failIf_raises decide_eq_true_iff) <|
      .cons (failIf_raises decide_eq_true_iff) <| .cons (failIf_raises not_fits_iff_misfit) <|
      .cons (failIf_raises not_fits_iff_misfit) <| .cons (failIf_raises overlaps_iff_share) .nil)
    (exec_eq (.diffuse src dst width height) s) fun _ => trivial

/-! ### One pixel, in the statements' terms (41_dither.md R122, R123, R126) -/

theorem samples_eq (m : Memory) (src width : Nat) (c : Chan) : samples m src width c = sampleAt m src width c := rfl

theorem pending_eq (width : Nat) (v : Nat → Nat → Nat) (y x : Nat) :
    pending width v y x = waitingError width (residual width v) y x := by
  cases y with
  | zero => rfl
  | succ y => simp only [pending, pendingAbove, errorFromAbove, waitingError, Nat.succ_pos, if_true, Nat.add_sub_cancel]

theorem clamped_samples_eq (m : Memory) (src width : Nat) (c : Chan) (y x : Nat) :
    clamped width (samples m src width c) y x =
      clampedAt m src width c (residual width (samples m src width c)) y x := by
  rw [clamped, ditherValue_eq, pending_eq, samples_eq, clampedAt]

theorem residual_le (width : Nat) (v : Nat → Nat → Nat) (y x : Nat) : residual width v y x ≤ 255 := by
  rw [residual_eq]
  exact ditherResidual_le _

/-- The four weights sum to 16, so residuals of at most 255 leave at most 4080 waiting (41_dither.md R126). -/
theorem waitingError_le {r : Nat → Nat → Nat} (hr : ∀ y x, r y x ≤ 255) (width y x : Nat) :
    waitingError width r y x ≤ 4080 := by
  have haboveRight := hr (y - 1) (x + 1)
  have habove := hr (y - 1) x
  have haboveLeft := hr (y - 1) (x - 1)
  have hleft := hr y (x - 1)
  unfold waitingError
  split_ifs <;> omega

/-- The output is a byte: the clamped value is at most 65535. -/
theorem toNat_ditherOut_clamped (width : Nat) (v : Nat → Nat → Nat) (y x : Nat) :
    (BitVec.ofNat 8 (ditherOut (clamped width v y x))).toNat = clamped width v y x / 256 := by
  have hle : clamped width v y x ≤ 65535 := by
    rw [clamped, ditherValue_eq]
    exact Nat.min_le_right _ _
  rw [ditherOut_eq, BitVec.toNat_ofNat]
  omega

/-! ### What a DIFFUSE leaves (41_dither.md R121; 40_control.md R103) -/

theorem exec_diffuse {src dst width height : Nat} {s : State} (ok : DiffuseOk src dst width height s) :
    exec (.diffuse src dst width height) s = .next (diffuseEffect src dst width height s) :=
  exec_of_check (i := .diffuse src dst width height)
    (diffuseCheck_eq_none.2 ⟨ok.widthNe, ok.heightNe, ok.widthMax, ok.srcFits, ok.dstFits, ok.apart⟩)

/-- W and H fit their result words: the source's 8·W·H bytes fit in data memory (20_memory.md R66). -/
theorem diffuseEffect_completes {src dst width height : Nat} {s : State} (hl : s.cfg.legal = true)
    (ok : DiffuseOk src dst width height s) : Completes s (diffuseEffect src dst width height s) width height 0 := by
  have hmem := Config.memSize_le hl
  have hsrc := ok.srcFits
  have hw : width ≤ width * height := Nat.le_mul_of_pos_right _ (Nat.pos_of_ne_zero ok.heightNe)
  have hh : height ≤ width * height := Nat.le_mul_of_pos_left _ (Nat.pos_of_ne_zero ok.widthNe)
  exact {
    frame := rfl
    resW := Nat.mod_eq_of_lt (by omega)
    resH := Nat.mod_eq_of_lt (by omega)
    resWaste := rfl
    count := rfl
    ptr := rfl
    fetch := rfl }

theorem read_diffuseEffect {src dst width height : Nat} {s : State} (ok : DiffuseOk src dst width height s) {x y : Nat}
    (hx : x < width) (hy : y < height) (c : Chan) :
    (diffuseEffect src dst width height s).mem.read (narrowAddr dst (flat width x y) c) =
      BitVec.ofNat 8 (ditherOut (clamped width (samples s.mem src width c) y x)) :=
  (read_ditherImage ok.apart.symm).1 y hy x hx c

/-- Settles O29: the residuals are those of the closed form. -/
theorem diffuseResult : Obligations.DiffuseResult := by
  intro src dst width height s hl ok
  refine ⟨_, exec_diffuse ok, diffuseEffect_completes hl ok, rfl, (read_ditherImage ok.apart.symm).2, fun c =>
    ⟨residual width (samples s.mem src width c), fun y hy x hx => ⟨?_, ?_, waitingError_le (residual_le _ _) ..⟩⟩⟩
  · rw [← clamped_samples_eq, ← toNat_ditherOut_clamped]
    exact congrArg BitVec.toNat (read_diffuseEffect ok hx hy c)
  · rw [← clamped_samples_eq, ← ditherResidual_eq, residual_eq]

/-! ### The output as a function of the samples (41_dither.md R127) -/

section Samples

variable {width height : Nat} {v v' : Nat → Nat → Nat}

theorem errorFromAbove_congr {r r' : Nat → Nat} (hr : ∀ x < width, r x = r' x) {x : Nat} (hx : x < width) :
    errorFromAbove width r x = errorFromAbove width r' x := by
  have hright : (if x + 1 < width then r (x + 1) else 0) = if x + 1 < width then r' (x + 1) else 0 :=
    ite_congr rfl (hr _) fun _ => rfl
  rw [errorFromAbove, errorFromAbove, hright, hr x hx, hr (x - 1) (by omega)]

theorem rowResidual_congr {up up' row row' : Nat → Nat} (hup : ∀ x < width, up x = up' x)
    (hrow : ∀ x < width, row x = row' x) : ∀ x < width, rowResidual up row x = rowResidual up' row' x := by
  intro x hx
  induction x with
  | zero => rw [rowResidual, rowResidual, hup 0 hx, hrow 0 hx]
  | succ x ih => rw [rowResidual, rowResidual, hup _ hx, hrow _ hx, ih (by omega)]

variable (hv : ∀ y < height, ∀ x < width, v y x = v' y x)
include hv

theorem residual_congr : ∀ y < height, ∀ x < width, residual width v y x = residual width v' y x := by
  intro y hy
  induction y with
  | zero => exact rowResidual_congr (fun _ _ => rfl) (hv 0 hy)
  | succ y ih => exact rowResidual_congr (fun _ => errorFromAbove_congr (ih (by omega))) (hv _ hy)

theorem pendingAbove_congr {x y : Nat} (hx : x < width) (hy : y < height) :
    pendingAbove width v y x = pendingAbove width v' y x := by
  cases y with
  | zero => rfl
  | succ y => exact errorFromAbove_congr (residual_congr hv y (by omega)) hx

theorem clamped_congr {x y : Nat} (hx : x < width) (hy : y < height) : clamped width v y x = clamped width v' y x := by
  rw [clamped, clamped, pending, pending, hv y hy x hx, pendingAbove_congr hv hx hy,
    residual_congr hv y hy (x - 1) (by omega)]

end Samples

/-- Every byte of a narrow buffer is a channel of one of its pixels (20_memory.md R56). -/
theorem exists_narrowAddr {width height n : Nat} (hn : n < 4 * (width * height)) :
    ∃ y < height, ∃ x < width, ∃ c, ∀ base, base + n = narrowAddr base (flat width x y) c := by
  have hc : ∃ c : Chan, c.index = n % 4 := by
    have hlt : n % 4 < 4 := Nat.mod_lt _ (by decide)
    interval_cases n % 4
    exacts [⟨.red, rfl⟩, ⟨.green, rfl⟩, ⟨.blue, rfl⟩, ⟨.alpha, rfl⟩]
  obtain ⟨c, hc⟩ := hc
  have hpixel : n / 4 < width * height := by omega
  have hwidth : 0 < width := Nat.pos_of_mul_pos_right (Nat.zero_lt_of_lt hpixel)
  refine ⟨n / 4 / width, Nat.div_lt_of_lt_mul hpixel, n / 4 % width, Nat.mod_lt _ hwidth, c, fun base => ?_⟩
  have hflat : flat width (n / 4 % width) (n / 4 / width) = n / 4 := Nat.div_add_mod' _ _
  rw [narrowAddr, hflat, hc]
  omega

theorem samples_congr {src src' width height : Nat} {m m' : Memory}
    (hbytes : ∀ n < 8 * (width * height), m'.read (src' + n) = m.read (src + n)) (c : Chan) :
    ∀ y < height, ∀ x < width, samples m' src' width c y x = samples m src width c y x := by
  intro y hy x hx
  have hn := flat_lt hx hy
  have hc := c.index_lt
  have hhigh := hbytes (8 * flat width x y + 2 * c.index) (by omega)
  have hlow := hbytes (8 * flat width x y + 2 * c.index + 1) (by omega)
  simp only [samples, wideSample, wideAddr, Nat.add_assoc] at hhigh hlow ⊢
  rw [hhigh, hlow]

/-- Settles O31: both commands write the closed form of the same samples. -/
theorem diffuseIsDeterministic : Obligations.DiffuseIsDeterministic := by
  intro src dst src' dst' width height s s' t t' ok ok' hbytes hexec hexec' n hn
  rw [exec_diffuse ok] at hexec
  rw [exec_diffuse ok'] at hexec'
  cases hexec
  cases hexec'
  obtain ⟨y, hy, x, hx, c, haddr⟩ := exists_narrowAddr hn
  rw [haddr, haddr, read_diffuseEffect ok hx hy, read_diffuseEffect ok' hx hy,
    clamped_congr (samples_congr hbytes c) hx hy]

end Sys2Proof.Machine
end

section
/-! PROOFS. The statements of the transcoder family (spec/42_transcoder.md): the five validation lists in order, what each
command leaves where its checks pass, and the round trips. -/

namespace Sys2Proof.Claims

open Sys2Proof Sys2Proof.Machine

/-! ### What the encoders' conditions say of W·H (42_transcoder.md R141, R150) -/

section EncodeOk

variable {src dst width height frames : Nat} {s : State}

theorem EncodeOk.check (ok : EncodeOk src dst width height frames s) :
    encodeCheck src dst width height frames s = none :=
  encodeCheck_eq_none.2 ⟨ok.widthNe, ok.heightNe, ok.fcountNe, ok.divides, ok.srcFits, ok.dstFits, ok.apart⟩

theorem EncodeOk.cells_pos (ok : EncodeOk src dst width height frames s) : 0 < width * height :=
  Nat.mul_pos (Nat.pos_of_ne_zero ok.widthNe) (Nat.pos_of_ne_zero ok.heightNe)

/-- W·H fits a result word: source and destination fit in data memory side by side. -/
theorem EncodeOk.cells_lt (ok : EncodeOk src dst width height frames s) (hl : s.cfg.legal = true) :
    width * height < 2 ^ 32 := by
  have hmem := Config.memSize_le hl
  have hsrc := ok.srcFits
  have hdst := ok.dstFits
  have hpos := ok.cells_pos
  rcases ok.apart with h | h <;> omega

/-- W·H is F frames of Hf·Wf cells. -/
theorem EncodeOk.cells_eq (ok : EncodeOk src dst width height frames s) :
    width * height = frames * (height / frames * width) := by
  rw [Nat.mul_comm _ width]
  exact cells_of_divides ok.fcountNe ok.divides

end EncodeOk

end Sys2Proof.Claims

namespace Sys2Proof.Machine

open Sys2Proof Sys2Proof.Claims

/-! ### Validation lists (42_transcoder.md R141, R145, R150, R154, R158) -/

/-- Settles O23: each check of the model's one list is the stated one. -/
theorem encodeChecks : Obligations.EncodeChecks := by
  intro src dst width height fcount s i hi
  have hexec : ∃ t, exec i s = s.validated (encodeCheck src dst width height fcount s) t := by
    rcases hi with rfl | rfl
    · exact ⟨_, exec_eq _ s⟩
    · exact ⟨_, exec_eq _ s⟩
  obtain ⟨t, hexec⟩ := hexec
  exact checksInOrder_of_raises (tail := [])
    (.cons (failIf_raises decide_eq_true_iff) <| .cons (failIf_raises decide_eq_true_iff) <|
      .cons (failIf_raises decide_eq_true_iff) <| .cons (failIf_raises decide_eq_true_iff) <|
      .cons (failIf_raises not_fits_iff_misfit) <| .cons (failIf_raises not_fits_iff_misfit) <|
      .cons (failIf_raises overlaps_iff_share) .nil)
    hexec fun _ => trivial

theorem badPalLen_iff {palLen : Nat} : badPalLen palLen = true ↔ BadPalette palLen := by
  simp only [badPalLen, BadPalette, Bool.or_eq_true, decide_eq_true_iff]

/-- What the statements list for a palette, the extents and the overlap, before the index scan. -/
def statedPaletteChecks (src dst cells pal palLen : Nat) (s : State) : List (Prop × ErrCode × Nat) :=
  [(BadPalette palLen, .paletteLen, 9), (Misfit s src cells, .range, 1), (Misfit s dst (4 * cells), .range, 2),
    (Misfit s pal (4 * palLen), .range, 8),
    (Share dst (4 * cells) src cells ∨ Share dst (4 * cells) pal (4 * palLen), .overlap, 2)]

/-- The shared checks are the stated ones and then the index scan. -/
theorem paletteChecks_eq_append (src dst cells pal palLen : Nat) (s : State) :
    ∃ checks, paletteChecks src dst cells pal palLen s = checks ++ [indexScan s.mem src cells palLen] ∧
      List.Forall₂ Raises checks (statedPaletteChecks src dst cells pal palLen s) :=
  ⟨_, (List.dropLast_append_getLast (List.cons_ne_nil _ _)).symm,
    .cons (failIf_raises badPalLen_iff) <| .cons (failIf_raises not_fits_iff_misfit) <|
      .cons (failIf_raises not_fits_iff_misfit) <| .cons (failIf_raises not_fits_iff_misfit) <|
      .cons (failIf_raises (Bool.or_eq_true_iff.trans (or_congr overlaps_iff_share overlaps_iff_share))) .nil⟩

theorem scanFails_of_validated {i : Instr} {s t : State} {src n palLen : Nat}
    (hexec : exec i s = s.validated (firstError [indexScan s.mem src n palLen]) t) : ScanFails i s src n palLen := by
  intro k hk hbad hgood
  have hscan : indexScan s.mem src n palLen = some { code := .indexRange, info := k } :=
    indexScan_eq_some.2 ⟨rfl, hk, hbad, hgood⟩
  rw [Fails, hexec, hscan]
  rfl

/-- A command whose list is its own checks and then the shared ones meets them in order, the index scan last. -/
theorem checksInOrder_of_paletteChecks {i : Instr} {s t : State} {src dst cells pal palLen : Nat}
    {own : List (Option Err)} {stated : List (Prop × ErrCode × Nat)} (hown : List.Forall₂ Raises own stated)
    (hexec : exec i s = s.validated (firstError (own ++ paletteChecks src dst cells pal palLen s)) t) :
    ChecksInOrder i s (ScanFails i s src cells palLen)
      (stated ++ statedPaletteChecks src dst cells pal palLen s) := by
  obtain ⟨checks, heq, hchecks⟩ := paletteChecks_eq_append src dst cells pal palLen s
  rw [heq, ← List.append_assoc] at hexec
  exact checksInOrder_of_raises (List.rel_append hown hchecks) hexec scanFails_of_validated

/-- Settles O24: four checks of its own, then the shared ones. -/
theorem seqDecChecks : Obligations.SeqDecChecks := by
  intro src dst width height fcount pal palLen s
  exact checksInOrder_of_paletteChecks
    (.cons (failIf_raises decide_eq_true_iff) <| .cons (failIf_raises decide_eq_true_iff) <|
      .cons (failIf_raises decide_eq_true_iff) <| .cons (failIf_raises decide_eq_true_iff) .nil)
    (exec_eq (.seqDec src dst width height fcount pal palLen) s)

/-- Settles O25: five checks of its own, then the shared ones. -/
theorem strDecChecks : Obligations.StrDecChecks := by
  intro src dst width height fwidth fheight pal palLen s
  exact checksInOrder_of_paletteChecks
    (.cons (failIf_raises decide_eq_true_iff) <| .cons (failIf_raises decide_eq_true_iff) <|
      .cons (failIf_raises decide_eq_true_iff) <| .cons (failIf_raises decide_eq_true_iff) <|
      .cons (failIf_raises decide_eq_true_iff) .nil)
    (exec_eq (.strDec src dst width height fwidth fheight pal palLen) s)

/-- Settles O26: two checks of its own, then the shared ones. -/
theorem resolveChecks : Obligations.ResolveChecks := by
  intro src dst width height pal palLen s
  exact checksInOrder_of_paletteChecks
    (.cons (failIf_raises decide_eq_true_iff) <| .cons (failIf_raises decide_eq_true_iff) .nil)
    (exec_eq (.resolve src dst width height pal palLen) s)

/-! ### Completion (40_control.md R103) -/

/-- A completion over a new memory and cursor whose RES_W·RES_H is a cell count that fits a word. -/
theorem complete_completes (s : State) (m : Memory) (cursor : Cursor) {w h : Nat} (hpos : 0 < w * h)
    (hlt : w * h < 2 ^ 32) : Completes s (State.complete { s with mem := m, cursor := cursor } w h 0) w h 0 where
  frame := rfl
  resW := Nat.mod_eq_of_lt (Nat.lt_of_le_of_lt (Nat.le_mul_of_pos_right _ (Nat.pos_of_mul_pos_left hpos)) hlt)
  resH := Nat.mod_eq_of_lt (Nat.lt_of_le_of_lt (Nat.le_mul_of_pos_left _ (Nat.pos_of_mul_pos_right hpos)) hlt)
  resWaste := rfl
  count := rfl
  ptr := rfl
  fetch := rfl

/-! ### The encoders (42_transcoder.md R141, R142, R150, R151) -/

section Encoders

variable {src dst width height frames : Nat} {s : State}

theorem exec_seqEnc (ok : EncodeOk src dst width height frames s) :
    exec (.seqEnc src dst width height frames) s = .next (seqEncEffect src dst width height frames s) :=
  exec_of_check (i := .seqEnc src dst width height frames) ok.check

theorem exec_strEnc (ok : EncodeOk src dst width height frames s) :
    exec (.strEnc src dst width height frames) s = .next (strEncEffect src dst width height frames s) :=
  exec_of_check (i := .strEnc src dst width height frames) ok.check

/-- The byte that both encoders leave at an address, from a strip of F frames of Hf·Wf cells: destination offset d takes
cell d div F of frame d mod F (42_transcoder.md R142, R150, R151). -/
def encodedByte (src dst cells frames : Nat) (m : Memory) (a : Nat) : Byte :=
  if dst ≤ a ∧ a < dst + frames * cells then m.read (src + ((a - dst) % frames * cells + (a - dst) / frames))
  else m.read a

/-- Cell j of frame f stands at offset j·F + f. -/
theorem encodedByte_at {cells j f : Nat} (hj : j < cells) (hf : f < frames) (m : Memory) :
    encodedByte src dst cells frames m (dst + (j * frames + f)) = m.read (src + (f * cells + j)) := by
  have hlt : j * frames + f < frames * cells := Nat.mul_comm cells frames ▸ mul_add_lt hj hf
  rw [encodedByte, if_pos (by omega), Nat.add_sub_cancel_left, mul_add_mod_right _ hf, mul_add_div_right _ hf]

/-- Frame f's pixel (x, y) stands at offset (y·Wf + x)·F + f (20_memory.md R60, R61). -/
theorem encodedByte_pixel {hf wf f y x : Nat} (hF : f < frames) (hy : y < hf) (hx : x < wf) (m : Memory) :
    encodedByte src dst (hf * wf) frames m (dst + interleavedFlat wf frames f x y) =
      m.read (src + stripFlat wf hf f x y) := by
  rw [interleavedFlat, encodedByte_at (mul_add_lt hy hx) hF, stripFlat, Nat.add_mul, Nat.mul_assoc, Nat.add_assoc]

theorem encodedByte_outside {cells a : Nat} (ha : a < dst ∨ dst + frames * cells ≤ a) (m : Memory) :
    encodedByte src dst cells frames m a = m.read a := if_neg (by omega)

theorem read_seqEncEffect (ok : EncodeOk src dst width height frames s) (a : Nat) :
    (seqEncEffect src dst width height frames s).mem.read a =
      encodedByte src dst (height / frames * width) frames s.mem a := by
  have hpos := ok.cells_pos
  have hapart := ok.apart
  show (seqEncWalk src dst (width * height) frames s.mem).1.read a = _
  rw [ok.cells_eq] at hpos hapart ⊢
  exact read_seqEncWalk (Nat.pos_of_ne_zero ok.fcountNe) (Nat.pos_of_mul_pos_left hpos) hapart.symm s.mem a

theorem read_strEncEffect (ok : EncodeOk src dst width height frames s) (a : Nat) :
    (strEncEffect src dst width height frames s).mem.read a =
      encodedByte src dst (height / frames * width) frames s.mem a := by
  have hapart := ok.apart
  rw [ok.cells_eq] at hapart
  exact read_strEncWalk (Nat.pos_of_ne_zero ok.fcountNe) hapart.symm s.mem a

theorem seqEncEffect_completes (ok : EncodeOk src dst width height frames s) (hl : s.cfg.legal = true) :
    Completes s (seqEncEffect src dst width height frames s) (frames * width) (height / frames) 0 := by
  have hres : frames * width * (height / frames) = width * height := by
    rw [Nat.mul_assoc, ← cells_of_divides ok.fcountNe ok.divides]
  exact complete_completes s _ _ (hres ▸ ok.cells_pos) (hres ▸ ok.cells_lt hl)

theorem strEncEffect_completes (ok : EncodeOk src dst width height frames s) (hl : s.cfg.legal = true) :
    Completes s (strEncEffect src dst width height frames s) frames (width * (height / frames)) 0 := by
  have hres : frames * (width * (height / frames)) = width * height := (cells_of_divides ok.fcountNe ok.divides).symm
  exact complete_completes s _ _ (hres ▸ ok.cells_pos) (hres ▸ ok.cells_lt hl)

end Encoders

/-- Settles O32: SEQ_ENC's walk in its closed form. -/
theorem seqEncResult : Obligations.SeqEncResult := by
  intro src dst width height frames s hl ok
  refine ⟨_, exec_seqEnc ok, seqEncEffect_completes ok hl, rfl, fun a ha => ?_, fun f hf y hy x hx => ?_⟩
  · rw [read_seqEncEffect ok, encodedByte_outside (ok.cells_eq ▸ ha)]
  · rw [read_seqEncEffect ok, Nat.mul_comm frames, encodedByte_at (mul_add_lt hy hx) hf, Nat.mul_assoc, Nat.add_assoc]

/-- Settles O33: STR_ENC's loop in its closed form. -/
theorem strEncResult : Obligations.StrEncResult := by
  intro src dst width height frames s hl ok
  refine ⟨_, exec_strEnc ok, strEncEffect_completes ok hl, rfl, rfl, fun a ha => ?_, fun y hy x hx f hf => ?_⟩
  · rw [read_strEncEffect ok, encodedByte_outside (ok.cells_eq ▸ ha)]
  · rw [read_strEncEffect ok, encodedByte_at (mul_add_lt hy hx) hf, Nat.mul_assoc, Nat.add_assoc]

/-- Settles O34: both encoders have one closed form. -/
theorem encodersWriteTheSameBytes : Obligations.EncodersWriteTheSameBytes := by
  intro src dst width height frames s hl ok
  have hstr := strEncEffect_completes ok hl
  have hseq := seqEncEffect_completes ok hl
  exact ⟨_, _, exec_strEnc ok, exec_seqEnc ok, fun a => (read_strEncEffect ok a).trans (read_seqEncEffect ok a).symm,
    hstr.resW, hstr.resH, hseq.resW, hseq.resH, rfl⟩

/-! ### The decoders (42_transcoder.md R145, R146, R154, R158) -/

section Decoders

variable {src dst width height pal palLen cells : Nat} {s : State}

/-- W·H fits a result word: the destination's 4·W·H bytes fit in data memory. -/
theorem PaletteOk.cells_lt (ok : PaletteOk src dst cells pal palLen s) (hl : s.cfg.legal = true) :
    cells < 2 ^ 32 := by
  have hmem := Config.memSize_le hl
  have hdst := ok.dstFits
  omega

theorem Chan.exists_index {n : Nat} (hn : n < 4) : ∃ c : Chan, c.index = n := by
  interval_cases n
  exacts [⟨.red, rfl⟩, ⟨.green, rfl⟩, ⟨.blue, rfl⟩, ⟨.alpha, rfl⟩]

/-- The decode loop in the statements' terms: its frame, and the strip's pixels. -/
theorem PaletteOk.read_decodeFrames {wf hf frames : Nat} (ok : PaletteOk src dst cells pal palLen s)
    (hcells : cells = frames * (hf * wf)) :
    (∀ a, (a < dst ∨ dst + 4 * cells ≤ a) → (decodeFrames src dst pal wf hf frames s.mem).read a = s.mem.read a) ∧
      ∀ y < hf, ∀ x < wf, ∀ f < frames, ∀ c < 4,
        (decodeFrames src dst pal wf hf frames s.mem).read (dst + 4 * ((f * hf + y) * wf + x) + c) =
          s.mem.read (pal + 4 * (s.mem.read (src + ((y * wf + x) * frames + f))).toNat + c) := by
  subst hcells
  obtain ⟨hpixels, houtside⟩ := Machine.read_decodeFrames ok.dstSrc.symm ok.dstPal.symm ok.indices
  refine ⟨houtside, fun y hy x hx f hf c hc => ?_⟩
  obtain ⟨c, rfl⟩ := Chan.exists_index hc
  exact hpixels f hf y hy x hx c

/-- RESOLVE's loop in the statements' terms: its frame, and the pixels. -/
theorem PaletteOk.read_resolveWalk (ok : PaletteOk src dst cells pal palLen s) :
    (∀ a, (a < dst ∨ dst + 4 * cells ≤ a) → (resolveWalk src dst cells pal s.mem).read a = s.mem.read a) ∧
      ∀ n < cells, ∀ c < 4, (resolveWalk src dst cells pal s.mem).read (dst + 4 * n + c) =
        s.mem.read (pal + 4 * (s.mem.read (src + n)).toNat + c) := by
  obtain ⟨hpixels, houtside⟩ := Machine.read_resolveWalk ok.dstSrc.symm ok.dstPal.symm ok.indices
  refine ⟨houtside, fun n hn c hc => ?_⟩
  obtain ⟨c, rfl⟩ := Chan.exists_index hc
  exact hpixels n hn c

theorem exec_seqDec {frames : Nat} (hw : width ≠ 0) (hh : height ≠ 0) (hF : frames ≠ 0)
    (hdiv : width % frames = 0) (ok : PaletteOk src dst (width * height) pal palLen s) :
    exec (.seqDec src dst width height frames pal palLen) s = .next (seqDecEffect src dst width height frames pal s) :=
  exec_of_check (i := .seqDec src dst width height frames pal palLen) (seqDecCheck_eq_none.2 ⟨hw, hh, hF, hdiv, ok⟩)

theorem exec_strDec {fwidth fheight : Nat} (hw : width ≠ 0) (hh : height ≠ 0) (hfw : fwidth ≠ 0) (hfh : fheight ≠ 0)
    (hdiv : width * height % (fwidth * fheight) = 0) (ok : PaletteOk src dst (width * height) pal palLen s) :
    exec (.strDec src dst width height fwidth fheight pal palLen) s =
      .next (strDecEffect src dst width height fwidth fheight pal s) :=
  exec_of_check (i := .strDec src dst width height fwidth fheight pal palLen)
    (strDecCheck_eq_none.2 ⟨hw, hh, hfw, hfh, hdiv, ok⟩)

theorem exec_resolve (hw : width ≠ 0) (hh : height ≠ 0) (ok : PaletteOk src dst (width * height) pal palLen s) :
    exec (.resolve src dst width height pal palLen) s = .next (resolveEffect src dst width height pal s) :=
  exec_of_check (i := .resolve src dst width height pal palLen) (resolveCheck_eq_none.2 ⟨hw, hh, ok⟩)

end Decoders

/-- Settles O35: F divides W, so the decode loop covers the strip of F frames of H·(W div F) cells. -/
theorem seqDecResult : Obligations.SeqDecResult := by
  intro src dst width height frames pal palLen s hl hw hh hF hdiv ok
  have hpos : 0 < width * height := Nat.mul_pos (Nat.pos_of_ne_zero hw) (Nat.pos_of_ne_zero hh)
  have hcells : width * height = frames * (height * (width / frames)) := by
    rw [Nat.mul_comm width, cells_of_divides hF hdiv]
  have hres : width / frames * (frames * height) = width * height := by
    rw [hcells, Nat.mul_comm, Nat.mul_assoc]
  exact ⟨_, exec_seqDec hw hh hF hdiv ok, complete_completes s _ _ (hres ▸ hpos) (hres ▸ ok.cells_lt hl), rfl, rfl,
    ok.read_decodeFrames hcells⟩

/-- Settles O36: Wf·Hf divides W·H, so the decode loop covers the strip of (W·H) div (Wf·Hf) frames. -/
theorem strDecResult : Obligations.StrDecResult := by
  intro src dst width height fwidth fheight pal palLen s hl hw hh hfw hfh hdiv ok
  have hpos : 0 < width * height := Nat.mul_pos (Nat.pos_of_ne_zero hw) (Nat.pos_of_ne_zero hh)
  have hcells : width * height = strDecFrames width height fwidth fheight * (fheight * fwidth) := by
    rw [Nat.mul_comm fheight, strDecFrames, Nat.div_mul_cancel (Nat.dvd_of_mod_eq_zero hdiv)]
  have hres : fwidth * (strDecFrames width height fwidth fheight * fheight) = width * height := by
    rw [hcells, Nat.mul_comm, Nat.mul_assoc]
  exact ⟨_, exec_strDec hw hh hfw hfh hdiv ok, complete_completes s _ _ (hres ▸ hpos) (hres ▸ ok.cells_lt hl), rfl, rfl,
    ok.read_decodeFrames hcells⟩

/-- Settles O37: RESOLVE's loop, pixel by pixel. -/
theorem resolveResult : Obligations.ResolveResult := by
  intro src dst width height pal palLen s hl hw hh ok
  have hpos : 0 < width * height := Nat.mul_pos (Nat.pos_of_ne_zero hw) (Nat.pos_of_ne_zero hh)
  exact ⟨_, exec_resolve hw hh ok, complete_completes s _ _ hpos (ok.cells_lt hl), rfl, rfl, ok.read_resolveWalk⟩

/-! ### Round trips (42_transcoder.md R147, R156) -/

/-- What an encoder leaves behind: the strip of s at src stands in one of the interleaved layouts at mid, and every other
byte is as before. -/
structure Encoded (src mid wf hf frames : Nat) (s t : State) : Prop where
  cfg : t.cfg = s.cfg
  read : ∀ a, t.mem.read a = encodedByte src mid (hf * wf) frames s.mem a

section RoundTrips

variable {src mid dst wf hf frames pal palLen : Nat} {s t : State}

theorem encoded_seqEncEffect (ok : EncodeOk src mid wf (frames * hf) frames s) :
    Encoded src mid wf hf frames s (seqEncEffect src mid wf (frames * hf) frames s) where
  cfg := rfl
  read a := by rw [read_seqEncEffect ok, Nat.mul_div_cancel_left _ (Nat.pos_of_ne_zero ok.fcountNe)]

theorem encoded_strEncEffect (ok : EncodeOk src mid wf (frames * hf) frames s) :
    Encoded src mid wf hf frames s (strEncEffect src mid wf (frames * hf) frames s) where
  cfg := rfl
  read a := by rw [read_strEncEffect ok, Nat.mul_div_cancel_left _ (Nat.pos_of_ne_zero ok.fcountNe)]

/-- The strip's cells, as the decode loop counts them. -/
theorem strip_cells (wf hf frames : Nat) : wf * (frames * hf) = frames * (hf * wf) := by
  rw [Nat.mul_comm, Nat.mul_assoc]

/-- The encoded buffer is a source for the decoders where the strip is one: its bytes are the strip's. -/
theorem Encoded.paletteOk (enc : Encoded src mid wf hf frames s t)
    (ok : PaletteOk src dst (wf * (frames * hf)) pal palLen s) (hmid : mid + wf * (frames * hf) ≤ s.cfg.memSize)
    (hdst : Apart mid (wf * (frames * hf)) dst (4 * (wf * (frames * hf)))) :
    PaletteOk mid dst (wf * (frames * hf)) pal palLen t where
  palLo := ok.palLo
  palHi := ok.palHi
  srcFits := enc.cfg ▸ hmid
  dstFits := enc.cfg ▸ ok.dstFits
  palFits := enc.cfg ▸ ok.palFits
  dstSrc := hdst.symm
  dstPal := ok.dstPal
  indices i hi := by
    rw [strip_cells] at hi
    have hF : 0 < frames := Nat.pos_of_mul_pos_right (Nat.zero_lt_of_lt hi)
    have hcell : i / frames < hf * wf := Nat.div_lt_of_lt_mul hi
    have hframe : i % frames < frames := Nat.mod_lt _ hF
    have hsource : i % frames * (hf * wf) + i / frames < wf * (frames * hf) :=
      strip_cells wf hf frames ▸ mul_add_lt hframe hcell
    rw [enc.read, ← Nat.div_add_mod' i frames, encodedByte_at hcell hframe]
    exact ok.indices _ hsource

/-- The palette entries that the strip's indices select lie outside the encoded buffer and are kept. -/
theorem Encoded.read_entry (enc : Encoded src mid wf hf frames s t) (hpal : Apart mid (wf * (frames * hf)) pal (4 * palLen))
    {i c : Nat} (hi : i < palLen) (hc : c < 4) : t.mem.read (pal + 4 * i + c) = s.mem.read (pal + 4 * i + c) := by
  have hcells := strip_cells wf hf frames
  rw [enc.read, encodedByte_outside]
  rcases hpal with h | h <;> omega

/-- The decode loop on the encoded buffer writes the bytes that RESOLVE of the strip writes. -/
theorem Encoded.read_decodeFrames (enc : Encoded src mid wf hf frames s t)
    (ok : PaletteOk src dst (wf * (frames * hf)) pal palLen s)
    (okMid : PaletteOk mid dst (wf * (frames * hf)) pal palLen t)
    (hpal : Apart mid (wf * (frames * hf)) pal (4 * palLen)) {n : Nat} (hn : n < 4 * (wf * (frames * hf))) :
    (decodeFrames mid dst pal wf hf frames t.mem).read (dst + n) =
      (resolveWalk src dst (wf * (frames * hf)) pal s.mem).read (dst + n) := by
  obtain ⟨r, hr, x, hx, c, haddr⟩ := exists_narrowAddr hn
  obtain ⟨f, hf', y, hy, rfl⟩ : ∃ f < frames, ∃ y < hf, f * hf + y = r :=
    ⟨r / hf, div_lt_of_lt_mul' hr, r % hf, Nat.mod_lt _ (Nat.pos_of_mul_pos_left (Nat.zero_lt_of_lt hr)),
      Nat.div_add_mod' r hf⟩
  have hpixel : stripFlat wf hf f x y < wf * (frames * hf) := flat_lt hx hr
  rw [haddr]
  calc (decodeFrames mid dst pal wf hf frames t.mem).read (narrowAddr dst (stripFlat wf hf f x y) c)
      = t.mem.read (pal + 4 * (t.mem.read (mid + interleavedFlat wf frames f x y)).toNat + c.index) :=
        (okMid.read_decodeFrames (strip_cells wf hf frames)).2 y hy x hx f hf' _ c.index_lt
    _ = t.mem.read (pal + 4 * (s.mem.read (src + stripFlat wf hf f x y)).toNat + c.index) := by
        rw [enc.read (mid + _), encodedByte_pixel hf' hy hx]
    _ = s.mem.read (pal + 4 * (s.mem.read (src + stripFlat wf hf f x y)).toNat + c.index) :=
        enc.read_entry hpal (ok.indices _ hpixel) c.index_lt
    _ = (resolveWalk src dst (wf * (frames * hf)) pal s.mem).read (narrowAddr dst (stripFlat wf hf f x y) c) :=
        (ok.read_resolveWalk.2 _ hpixel _ c.index_lt).symm

/-- SEQ_DEC of a buffer of W = F·Wf, H = Hf is the decode loop over F frames of Wf × Hf. -/
theorem exec_seqDec_frames (hpos : 0 < wf * (frames * hf)) (ok : PaletteOk mid dst (wf * (frames * hf)) pal palLen t) :
    exec (.seqDec mid dst (frames * wf) hf frames pal palLen) t =
      .next (State.complete { t with mem := decodeFrames mid dst pal wf hf frames t.mem } wf (frames * hf) 0) := by
  have hcells : wf * (frames * hf) = frames * wf * hf := by rw [strip_cells, Nat.mul_comm hf, Nat.mul_assoc]
  have hF : 0 < frames := Nat.pos_of_mul_pos_right (Nat.pos_of_mul_pos_left hpos)
  rw [hcells] at hpos ok
  rw [exec_seqDec (Nat.pos_of_mul_pos_right hpos).ne' (Nat.pos_of_mul_pos_left hpos).ne' hF.ne' (Nat.mul_mod_right _ _) ok,
    seqDecEffect, Nat.mul_div_cancel_left _ hF]

/-- STR_DEC of a buffer of as many cells as F frames of Wf × Hf is the decode loop over them, whatever its W and H. -/
theorem exec_strDec_frames {width height : Nat} (hcells : width * height = wf * (frames * hf))
    (hpos : 0 < wf * (frames * hf)) (ok : PaletteOk mid dst (wf * (frames * hf)) pal palLen t) :
    exec (.strDec mid dst width height wf hf pal palLen) t =
      .next (State.complete { t with mem := decodeFrames mid dst pal wf hf frames t.mem } wf (frames * hf) 0) := by
  have hwf : 0 < wf := Nat.pos_of_mul_pos_right hpos
  have hhf : 0 < hf := Nat.pos_of_mul_pos_left (Nat.pos_of_mul_pos_left hpos)
  have hprod : width * height = frames * (wf * hf) := by rw [hcells, Nat.mul_left_comm]
  have hframes : strDecFrames width height wf hf = frames := by
    rw [strDecFrames, hprod, Nat.mul_div_cancel _ (Nat.mul_pos hwf hhf)]
  have hdiv : width * height % (wf * hf) = 0 := by rw [hprod, Nat.mul_mod_left]
  rw [← hcells] at hpos ok
  rw [exec_strDec (Nat.pos_of_mul_pos_right hpos).ne' (Nat.pos_of_mul_pos_left hpos).ne' hwf.ne' hhf.ne' hdiv ok,
    strDecEffect, hframes]

end RoundTrips

/-- Settles O38: SEQ_DEC's loop reads the interleaved strip back. -/
theorem sequenceRoundTrip : Obligations.SequenceRoundTrip := by
  intro src mid dst wf hf frames pal palLen s hl okEnc ok hdst hpal
  have enc := encoded_seqEncEffect okEnc
  have okMid := enc.paletteOk ok okEnc.dstFits hdst
  exact ⟨_, _, _, exec_seqEnc okEnc, exec_seqDec_frames okEnc.cells_pos okMid,
    exec_resolve okEnc.widthNe okEnc.heightNe ok, fun n hn => enc.read_decodeFrames ok okMid hpal hn, rfl, rfl⟩

/-- Settles O39: all three decoders run the same loop over the same interleaved strip. -/
theorem streamRoundTrip : Obligations.StreamRoundTrip := by
  intro src mid dst wf hf frames pal palLen s hl okEnc ok hdst hpal
  have encStr := encoded_strEncEffect okEnc
  have encSeq := encoded_seqEncEffect okEnc
  have okStr := encStr.paletteOk ok okEnc.dstFits hdst
  have okSeq := encSeq.paletteOk ok okEnc.dstFits hdst
  have hstr : frames * (wf * hf) = wf * (frames * hf) := Nat.mul_left_comm ..
  have hseq : frames * wf * hf = wf * (frames * hf) := by rw [Nat.mul_assoc, hstr]
  exact ⟨_, _, _, _, _, _, exec_strEnc okEnc, exec_seqEnc okEnc, exec_strDec_frames hstr okEnc.cells_pos okStr,
    exec_seqDec_frames okEnc.cells_pos okStr, exec_strDec_frames hseq okEnc.cells_pos okSeq,
    exec_resolve okEnc.widthNe okEnc.heightNe ok, fun n hn =>
      ⟨encStr.read_decodeFrames ok okStr hpal hn, encStr.read_decodeFrames ok okStr hpal hn,
        encSeq.read_decodeFrames ok okSeq hpal hn⟩⟩

end Sys2Proof.Machine
end

section
/-! PROOFS. The statements of the optimizer family (spec/43_optimizer.md): the validation lists of RASTER and WSEARCH,
the candidate sequence, what RASTER and a WSEARCH leave, what an answer does, and the encoder port. -/

namespace Sys2Proof.Machine

open Sys2Proof Sys2Proof.Claims

/-! ### The log (43_optimizer.md R187) -/

theorem exec_wsearch {src fcount fwidth fheight pal palLen scratch scrLen log logLen : Nat} {s : State}
    (ok : WsearchOk src fcount fwidth fheight pal palLen scratch scrLen log logLen s) :
    exec (.wsearch src fcount fwidth fheight pal palLen scratch scrLen log logLen) s =
      .next (wsearchEffect src fcount fwidth fheight pal palLen scratch log s) :=
  exec_of_check (i := .wsearch src fcount fwidth fheight pal palLen scratch scrLen log logLen)
    (wsearchCheck_eq_none.2 ok)

/-- A wait's log is sound, and it has counted fewer than NC candidates. -/
theorem WaitOk.loopOk {s : State} {c : Search} (h : WaitOk s c) (hp : s.phase = .execute c) : LoopOk c s.cfg s where
  config := rfl
  log := h.log.weaken (Nat.le_succ_of_le h.search.kLe)
  cands := Nat.le_trans (Nat.le_of_lt h.cands) h.search.kLe
  waits d hd := by
    rw [hp] at hd
    cases hd
    exact ⟨h, rfl⟩

theorem awaitReply_ok {s : State} {c : Search} (h : WaitOk s c) (hp : s.phase = .execute c) :
    LoopOk c s.cfg (awaitReply c s) := by
  rcases awaitReply_cases c s with ⟨-, heq⟩ | ⟨r, rs, -, heq⟩ <;> rw [heq]
  · exact h.loopOk hp
  · exact resumeSearch_ok (h.withReplies rs) r

/-- Settles O44: the candidate loop keeps the log's invariant, from the start of a search and from a wait. -/
theorem wsearchLogIsMonotonic : Obligations.WsearchLogIsMonotonic := by
  refine ⟨fun src fcount fwidth fheight pal palLen scratch scrLen log logLen s t hl ok hexec => ?_,
    fun c s t hwait hp hmove => ?_⟩
  · rw [exec_wsearch ok] at hexec
    cases hexec
    obtain ⟨-, hlog, hcands, -⟩ := (ok.effect hl).1
    exact ⟨hlog, hcands⟩
  · rw [engineStep_of_execute hp] at hmove
    cases hmove
    obtain ⟨-, hlog, hcands, -⟩ := awaitReply_ok hwait hp
    exact ⟨hlog, hcands⟩

/-! ### Validation lists (43_optimizer.md R172, R185) -/

/-- Settles O27: each check of the model's list is the stated one. -/
theorem rasterChecks : Obligations.RasterChecks := by
  intro src dst width height rwidth s
  exact checksInOrder_of_raises (tail := [])
    (.cons (failIf_raises decide_eq_true_iff) <| .cons (failIf_raises decide_eq_true_iff) <|
      .cons (failIf_raises decide_eq_true_iff) <| .cons (failIf_raises not_fits_iff_misfit) <|
      .cons (failIf_raises not_fits_iff_misfit) <| .cons (failIf_raises overlaps_iff_share) .nil)
    (exec_eq (.raster src dst width height rwidth) s) fun _ => trivial

theorem decide_toNat_eq_zero_iff {w : Word} : decide (w.toNat = 0) = true ↔ w = 0 := by
  rw [decide_eq_true_iff, BitVec.toNat_eq]
  rfl

/-- A region that overlaps one of three others. -/
theorem overlaps_or_iff_share {a n b m c l d k : Nat} :
    (Region.overlaps { base := a, len := n } { base := b, len := m } ||
        Region.overlaps { base := a, len := n } { base := c, len := l } ||
        Region.overlaps { base := a, len := n } { base := d, len := k }) = true ↔
      Share a n b m ∨ Share a n c l ∨ Share a n d k := by
  rw [Bool.or_eq_true_iff, Bool.or_eq_true_iff, overlaps_iff_share, overlaps_iff_share, overlaps_iff_share, or_assoc]

/-- Settles O28: each check of the model's list is the stated one, the index scan last. -/
theorem wsearchChecks : Obligations.WsearchChecks := by
  intro src fcount fwidth fheight pal palLen scratch scrLen log logLen s
  exact checksInOrder_of_raises (tail := [indexScan s.mem src (fcount * fwidth * fheight) palLen])
    (.cons (failIf_raises decide_eq_true_iff) <| .cons (failIf_raises decide_eq_true_iff) <|
      .cons (failIf_raises decide_eq_true_iff) <| .cons (failIf_raises decide_toNat_eq_zero_iff) <|
      .cons (failIf_raises decide_eq_true_iff) <| .cons (failIf_raises badPalLen_iff) <|
      .cons (failIf_raises not_fits_iff_misfit) <| .cons (failIf_raises not_fits_iff_misfit) <|
      .cons (failIf_raises not_fits_iff_misfit) <| .cons (failIf_raises not_fits_iff_misfit) <|
      .cons (failIf_raises decide_eq_true_iff) <| .cons (failIf_raises decide_eq_true_iff) <|
      .cons (failIf_raises overlaps_or_iff_share) <| .cons (failIf_raises overlaps_or_iff_share) .nil)
    (exec_eq (.wsearch src fcount fwidth fheight pal palLen scratch scrLen log logLen) s) scanFails_of_validated

/-! ### RASTER (43_optimizer.md R172) -/

/-- The raster's cells fit a word: the source stands beside them in data memory (20_memory.md R66, R67). -/
theorem rasterEffect_completes {src dst width height w : Nat} {s : State} (hl : s.cfg.legal = true)
    (hcheck : rasterCheck src dst width height w s = none) :
    Completes s (rasterEffect src dst width height w s) w (rasterHeight (width * height) w)
      (w * rasterHeight (width * height) w - width * height) := by
  obtain ⟨hw, hh, hrw, hsrc, hdst, hapart⟩ := rasterCheck_eq_none.1 hcheck
  have hmem := Config.memSize_le hl
  have hsrcPos : 0 < width * height := Nat.mul_pos (Nat.pos_of_ne_zero hw) (Nat.pos_of_ne_zero hh)
  have hpos := Nat.lt_of_lt_of_le hsrcPos (le_mul_rasterHeight (total := width * height) (Nat.pos_of_ne_zero hrw))
  have hword : w * rasterHeight (width * height) w < 2 ^ 32 := by
    rcases hapart with h | h <;> omega
  exact {
    frame := rfl
    resW := Nat.mod_eq_of_lt (Nat.lt_of_le_of_lt (Nat.le_mul_of_pos_right _ (Nat.pos_of_mul_pos_left hpos)) hword)
    resH := Nat.mod_eq_of_lt (Nat.lt_of_le_of_lt (Nat.le_mul_of_pos_left _ (Nat.pos_of_ne_zero hrw)) hword)
    resWaste := Nat.mod_eq_of_lt (Nat.lt_of_le_of_lt (Nat.sub_le _ _) hword)
    count := rfl
    ptr := rfl
    fetch := rfl }

/-- Settles O40: RASTER's loop, byte by byte. -/
theorem rasterResult : Obligations.RasterResult := by
  intro src dst width height w h s hl hw hh hrw hheight hsrc hdst hapart
  obtain rfl : h = rasterHeight (width * height) w := hheight
  have hcheck : rasterCheck src dst width height w s = none :=
    rasterCheck_eq_none.2 ⟨hw, hh, hrw, hsrc, hdst, hapart⟩
  have hlt := mul_rasterHeight_lt (total := width * height) (Nat.pos_of_ne_zero hrw)
  have hread := read_writeRaster (src := src) (total := width * height) (dst := dst)
    (n := w * rasterHeight (width * height) w) (m := s.mem) fun i hi j hj => by
      rcases hapart with h | h <;> omega
  refine ⟨le_mul_rasterHeight (Nat.pos_of_ne_zero hrw), by omega, _,
    exec_of_check (i := .raster src dst width height w) hcheck, rasterEffect_completes hl hcheck, rfl, rfl,
    fun a ha => (hread a).trans (if_neg (by omega)), fun n hn => (hread _).trans ?_⟩
  rw [if_pos (by omega), Nat.add_sub_cancel_left]

/-! ### The candidate sequence (43_optimizer.md R180) -/

section Candidates

variable {step cap k : Nat}

/-- Candidate k lies before the last exactly while k·S < CAP. -/
theorem lt_candCount_iff (hs : 0 < step) : k < candCount step cap ↔ k * step < cap := by
  rw [← Nat.not_le, candCount, ceilDiv_le_iff hs, Nat.not_le]

theorem candWidth_of_lt (hs : 0 < step) (hk : k < candCount step cap) : candWidth step cap k = k * step :=
  if_neg (Nat.not_le.2 ((lt_candCount_iff hs).1 hk))

theorem cap_le_candCount_mul (hs : 0 < step) : cap ≤ candCount step cap * step :=
  (ceilDiv_le_iff hs).1 (Nat.le_refl _)

theorem candWidth_candCount (hs : 0 < step) : candWidth step cap (candCount step cap) = cap :=
  if_pos (cap_le_candCount_mul hs)

theorem candWidth_lt_succ (hs : 0 < step) (hk : k < candCount step cap) :
    candWidth step cap k < candWidth step cap (k + 1) := by
  have hlt := (lt_candCount_iff hs).1 hk
  rw [candWidth_of_lt hs hk, candWidth, Nat.succ_mul]
  split <;> omega

/-- MAXR is the cells of one of the candidates. -/
theorem maxRaster_attained (total : Nat) (hpos : 0 < candCount step cap) :
    ∃ k, 1 ≤ k ∧ k ≤ candCount step cap ∧ candCells step total cap k = maxRaster step total cap := by
  have hattained : candCount step cap = 0 ∧ maxRaster step total cap = 0 ∨
      ∃ k, 1 ≤ k ∧ k ≤ candCount step cap ∧ candCells step total cap k = maxRaster step total cap :=
    forRange_induct (fun n m => n = 0 ∧ m = 0 ∨ ∃ k, 1 ≤ k ∧ k ≤ n ∧ candCells step total cap k = m) (.inl ⟨rfl, rfl⟩)
      fun i _ m hm => by
        change _ ∨ ∃ k, 1 ≤ k ∧ k ≤ i + 1 ∧ candCells step total cap k = max m (candCells step total cap (i + 1))
        have hnew : ∃ k, 1 ≤ k ∧ k ≤ i + 1 ∧ candCells step total cap k = candCells step total cap (i + 1) :=
          ⟨i + 1, by omega, Nat.le_refl _, rfl⟩
        rcases hm with ⟨-, rfl⟩ | ⟨k, h1, h2, rfl⟩
        · rw [Nat.zero_max]
          exact .inr hnew
        · rcases max_choice (candCells step total cap k) (candCells step total cap (i + 1)) with heq | heq <;> rw [heq]
          · exact .inr ⟨k, h1, by omega, rfl⟩
          · exact .inr hnew
  rcases hattained with ⟨h0, -⟩ | hattained
  · omega
  · exact hattained

end Candidates

/-- Settles O41: k·S < CAP says that candidate k is not the last, and MAXR is a maximum over a range that is not
empty. -/
theorem candidateSequence : Obligations.CandidateSequence := by
  intro step cap hstep hcap
  have hs : 0 < step := Nat.pos_of_ne_zero hstep
  have hpos : 0 < candCount step cap := candCount_pos hs (Nat.pos_of_ne_zero hcap)
  have hcov := cap_le_candCount_mul (cap := cap) hs
  refine ⟨hpos, candWidth_candCount hs, hcov,
    fun k _ hk => ⟨(lt_candCount_iff hs).1 hk, candWidth_of_lt hs hk⟩, fun k _ hk => candWidth_lt_succ hs hk,
    fun hle => ?_, fun hmod => ?_, fun total => ⟨fun k h1 h2 => candCells_le_maxRaster h1 h2,
      maxRaster_attained total hpos⟩⟩
  · have : candCount step cap ≤ 1 := (ceilDiv_le_iff hs).2 (by omega)
    omega
  · have hexact : cap / step * step = cap := Nat.div_mul_cancel (Nat.dvd_of_mod_eq_zero hmod)
    have hle : candCount step cap ≤ cap / step := (ceilDiv_le_iff hs).2 (Nat.le_of_eq hexact.symm)
    exact Nat.le_antisymm ((Nat.mul_le_mul_right step hle).trans_eq hexact) hcov

/-! ### How a search goes on with an answer (43_optimizer.md R176, R186) -/

theorem engineStep_of_reply {s : State} {c : Search} {r : EncReply} {rs : List EncReply} (hp : s.phase = .execute c)
    (h : s.replies = r :: rs) : engineStep s = .next (resumeSearch c r { s with replies := rs }) := by
  rw [engineStep_of_execute hp, awaitReply, h]

theorem engineStep_of_noReply {s : State} {c : Search} (hp : s.phase = .execute c) (h : s.replies = []) :
    engineStep s = .next s := by
  rw [engineStep_of_execute hp, awaitReply, h]

theorem resumeSearch_of_error {c : Search} {r : EncReply} (s : State) (hr : r.ok = false) :
    resumeSearch c r s = s.takeReply c r := by
  simp [resumeSearch, hr]

theorem resumeSearch_of_last {c : Search} {r : EncReply} (s : State) (hr : r.ok = true) (hl : c.last = true) :
    resumeSearch c r s = (s.takeReply c r).finishSearch c := by
  simp [resumeSearch, hr, hl]

theorem resumeSearch_of_more {c : Search} {r : EncReply} (s : State) (hr : r.ok = true) (hl : c.last = false) :
    resumeSearch c r s = searchLoop (c.nCands - c.k) c.next (s.takeReply c r) := by
  simp [resumeSearch, hr, hl]

/-! ### One answer (43_optimizer.md R183, R184, R186) -/

/-- The record's four numbers fit their words (20_memory.md R63). -/
theorem SearchOk.record {cfg : Config} {c : Search} (h : SearchOk cfg c) (a : Nat) (size : Word) (m : Memory) :
    (writeRecord a c.width c.height size.toNat c.k m).readLE a 4 = c.width ∧
      (writeRecord a c.width c.height size.toNat c.k m).readLE (a + 4) 4 = c.height ∧
      (writeRecord a c.width c.height size.toNat c.k m).readLE (a + 8) 4 = size.toNat ∧
      (writeRecord a c.width c.height size.toNat c.k m).readLE (a + 12) 4 = c.k := by
  have hwords := readLE_writeRecord a c.width c.height size.toNat c.k m
  rwa [Nat.mod_eq_of_lt h.width_word, Nat.mod_eq_of_lt h.height_word, Nat.mod_eq_of_lt size.isLt,
    Nat.mod_eq_of_lt (Nat.lt_of_le_of_lt h.kLe h.nCands_word)] at hwords

/-- Settles O45: an answer OK = 1 emits or drops the candidate. -/
theorem wsearchEmitsImprovements : Obligations.WsearchEmitsImprovements := by
  intro s c r hwait hr
  have hexclusive : s.wsEmits ≠ 0 → s.wsBestSize.toNat ≤ r.value.toNat →
      ¬(s.wsEmits = 0 ∨ r.value.toNat < s.wsBestSize.toNat) :=
    fun hemitted hworse himproves => himproves.elim hemitted (Nat.not_lt.2 hworse)
  rcases s.takeReply_cases c r with ⟨hbad, -⟩ | ⟨-, himproves, heq⟩ | ⟨-, hemitted, hworse, heq⟩
  · rw [hr] at hbad
    cases hbad
  · obtain ⟨hw, hh, hsize, hk⟩ := hwait.search.record (c.log + 16 * s.wsEmits.toNat) r.value s.mem
    exact ⟨fun _ => ⟨_, heq, hw, hh, hsize, hk, fun a ha => read_writeRecord_outside ha⟩,
      fun hemitted hworse => absurd himproves (hexclusive hemitted hworse)⟩
  · exact ⟨fun himproves => absurd himproves (hexclusive hemitted hworse), fun _ _ => heq⟩

/-- Settles O46: the answer is taken from the port, counted, and raises ENC_ERROR with its value. -/
theorem encoderErrorEndsRun : Obligations.EncoderErrorEndsRun := by
  intro s c v rs hp hreplies
  rw [engineStep_of_reply hp hreplies, resumeSearch_of_error _ rfl]
  simp [State.takeReply, State.countCandidate, State.raiseError]

/-! ### The encoder port (43_optimizer.md R176, R178) -/

theorem State.encWait_iff {s : State} : s.encWait = true ↔ ∃ c, s.phase = .execute c := by
  cases hp : s.phase <;> simp [State.encWait, hp]

/-- An input other than a reset and the engine's turn leaves the phase of a run in progress. -/
theorem handle_phase_of_busy {e : Event} {s t : State} (h : handle e s = .next t) (hbusy : s.busy = true)
    (hturn : e ≠ .engineTurn) (hreset : e ≠ .reset) : t.phase = s.phase := by
  rcases handle_cases h with ⟨he, -⟩ | ⟨off, width, v, rfl⟩ | ⟨he, -⟩ | ⟨d, n, x, w, u, rfl, -⟩ |
    ⟨r, -, -, rfl⟩ | ⟨g, a, v, -, ⟨-, rfl⟩ | ⟨-, -, rfl⟩⟩
  · exact absurd he hturn
  · rcases s.writeReg_cases off width v with heq | ⟨-, b, heq⟩ | ⟨hidle, -⟩ | ⟨hidle, -⟩ | heq
    · rw [heq]
    · rw [heq]
    · simp [hbusy] at hidle
    · simp [hbusy] at hidle
    · rw [heq, State.writeStatus_phase]
  · exact absurd he hreset
  all_goals rfl

/-- Settles O48: without an answer the engine takes no step, and no input but a reset touches the phase. -/
theorem silentEncoderHangs : Obligations.SilentEncoderHangs := by
  intro s c hp hreplies
  have hmove : engineStep s = .next s := engineStep_of_noReply hp hreplies
  refine ⟨hmove, fun e t he hreset => ?_⟩
  have hphase : t.phase = .execute c := by
    by_cases hturn : e = .engineTurn
    · subst hturn
      rw [handle, hmove] at he
      cases he
      exact hp
    · rw [handle_phase_of_busy he (State.busy_iff.2 (by rw [hp]; nofun)) hturn hreset, hp]
  exact ⟨hphase, State.busy_iff.2 (by rw [hphase]; nofun), State.encWait_iff.2 ⟨c, hphase⟩⟩

/-- Settles O49: the port takes an answer exactly while a request stands and no answer is held. -/
theorem responsesArriveOnce : Obligations.ResponsesArriveOnce := by
  refine fun s r => ⟨fun hwait hnone => ?_, fun h => ?_, rfl⟩
  · simp [handle, State.response, hwait, hnone]
  · rcases h with h | h <;> simp [handle, State.response, h]

/-! ### Answers that come late (43_optimizer.md R177) -/

/-- Where a search waits again, an answer that comes then gives what it would have given at hand. -/
theorem resumeSearch_late {c d : Search} {s : State} {r r' : EncReply} {rs : List EncReply}
    (hd : (resumeSearch c r { s with replies := [] }).phase = .execute d) :
    awaitReply d { resumeSearch c r { s with replies := [] } with replies := r' :: rs } =
      resumeSearch c r { s with replies := r' :: rs } := by
  cases hr : r.ok with
  | false =>
    rw [resumeSearch_of_error _ hr, State.takeReply_phase, hr] at hd
    cases hd
  | true =>
    cases hl : c.last with
    | true =>
      obtain ⟨w, h, waste, heq⟩ := (State.takeReply { s with replies := [] } c r).finishSearch_eq c
      rw [resumeSearch_of_last _ hr hl, heq] at hd
      cases hd
    | false =>
      have hmore : ∀ l, resumeSearch c r { s with replies := l } =
          searchLoop (c.nCands - c.k) c.next { s.takeReply c r with replies := l } := fun l => by
        rw [resumeSearch_of_more _ hr hl, State.takeReply_replies_ok s c l hr]
      have hfuel : c.nCands - c.k = c.next.nCands + 1 - c.next.k := (Nat.add_sub_add_right ..).symm
      rw [hmore] at hd
      rw [hmore, hmore]
      exact searchLoop_late (s := { s.takeReply c r with replies := [] }) (r := r') (rs := rs) hfuel rfl hd

/-- Where a WSEARCH waits for its first answer, the answer that comes then gives what it would have given at hand. -/
theorem wsearchEffect_late {src fcount fwidth fheight pal palLen scratch log : Nat} {s : State} {d : Search}
    {r : EncReply} {rs : List EncReply}
    (hd : (wsearchEffect src fcount fwidth fheight pal palLen scratch log { s with replies := [] }).phase =
      .execute d) :
    awaitReply d { wsearchEffect src fcount fwidth fheight pal palLen scratch log { s with replies := [] } with
        replies := r :: rs } =
      wsearchEffect src fcount fwidth fheight pal palLen scratch log { s with replies := r :: rs } :=
  searchLoop_late (s := State.clearSearch { s with replies := [] }) rfl rfl hd

theorem engineStep_withReplies {s : State} {c : Search} (h : s.phase = .execute c) (rs : List EncReply) :
    engineStep { s with replies := rs } = .next (awaitReply c { s with replies := rs }) := engineStep_of_execute h

/-- Settles O47: the checks do not look at the answers, and the loop goes on alike. -/
theorem answersMayComeLate : Obligations.AnswersMayComeLate := by
  refine ⟨fun src fcount fwidth fheight pal palLen scratch scrLen log logLen s t c r rs hexec hp => ?_,
    fun s t c d r r' rs hp hmove hd => ?_⟩
  · rw [engineStep_withReplies hp]
    rcases exec_cases (.wsearch src fcount fwidth fheight pal palLen scratch scrLen log logLen)
      { s with replies := [] } with ⟨e, -, heq⟩ | ⟨hcheck, heq⟩
    · rw [heq] at hexec
      cases hexec
      cases hp
    · rw [heq] at hexec
      obtain rfl := Host.Outcome.next.inj hexec
      have hcheck' : checkOf (.wsearch src fcount fwidth fheight pal palLen scratch scrLen log logLen)
          { s with replies := r :: rs } = none := hcheck
      rw [exec_of_check hcheck']
      exact congrArg _ (wsearchEffect_late hp)
  · rw [engineStep_withReplies hp] at hmove
    obtain rfl := Host.Outcome.next.inj hmove
    rw [engineStep_withReplies hp, engineStep_withReplies hd]
    exact congrArg _ (resumeSearch_late hd)

/-! ### One round of the candidate loop (43_optimizer.md R181, R182) -/

section Round

variable {cfg : Config} {s : State} {c : Search}

/-- The filter skips a candidate exactly where WZ = 1 and it has wasted cells. -/
theorem SearchOk.skips_iff (h : SearchOk cfg c) :
    (s.enterCandidate c).skips c = true ↔ s.wz = true ∧ candCells c.step c.total c.cap c.k ≠ c.total := by
  have hle : c.total ≤ candCells c.step c.total c.cap c.k := le_mul_rasterHeight h.width_pos
  have hwaste : c.waste ≠ 0 ↔ candCells c.step c.total c.cap c.k ≠ c.total := by
    change candCells c.step c.total c.cap c.k - c.total ≠ 0 ↔ _
    omega
  rw [State.skips, State.enterCandidate_wz, Bool.and_eq_true, decide_eq_true_iff, hwaste]

theorem SearchOk.not_skips (h : SearchOk cfg c) (heval : s.wz = false ∨ c.width * c.height = c.total) :
    (s.enterCandidate c).skips c = false := by
  rw [← Bool.not_eq_true, h.skips_iff]
  rintro ⟨hwz, hcells⟩
  rcases heval with hoff | hexact
  · rw [hoff] at hwz
    cases hwz
  · exact hcells hexact

theorem searchLoop_waits {n : Nat} (hs : (s.enterCandidate c).skips c = false)
    (h0 : s.replies = []) : searchLoop (n + 1) c s = s.atWait c := by
  have hsent : ((s.enterCandidate c).sendRequest c).replies = [] := h0
  simp only [searchLoop, hs, Bool.false_eq_true, if_false]
  split
  · rfl
  · next r rs hcons =>
    rw [hsent] at hcons
    cases hcons

theorem searchLoop_skips_last {n : Nat} (hs : (s.enterCandidate c).skips c = true)
    (hl : c.last = true) : searchLoop (n + 1) c s = (s.enterCandidate c).finishSearch c := by
  simp [searchLoop, hs, hl]

/-- The raster of the request that the search waits on, byte by byte (20_memory.md R62). -/
theorem SearchOk.read_atWait (h : SearchOk cfg c) (a : Nat) :
    (s.atWait c).mem.read a =
      if c.scratch ≤ a ∧ a < c.scratch + c.width * c.height then
        (if a - c.scratch < c.total then s.mem.read (c.src + (a - c.scratch)) else 0)
      else s.mem.read a := by
  have hcells := h.cells_le
  have happart := h.scratchSrc
  exact read_writeRaster (fun i hi j hj => by omega) a

theorem SearchOk.read_atWait_raster (h : SearchOk cfg c) {n : Nat} (hn : n < c.width * c.height) :
    (s.atWait c).mem.read (c.scratch + n) = if n < c.total then s.mem.read (c.src + n) else 0 := by
  rw [h.read_atWait, if_pos (by omega), Nat.add_sub_cancel_left]

theorem SearchOk.read_atWait_outside (h : SearchOk cfg c) {a : Nat}
    (ha : a < c.scratch ∨ c.scratch + c.width * c.height ≤ a) : (s.atWait c).mem.read a = s.mem.read a := by
  rw [h.read_atWait, if_neg (by omega)]

end Round

/-! ### The first request (43_optimizer.md R182, R186) -/

theorem searchOf_width (src fcount fwidth fheight pal palLen scratch log cap : Nat) :
    (searchOf src fcount fwidth fheight pal palLen scratch log cap).width =
      if cap ≤ fcount * fwidth then cap else fcount * fwidth := by
  show candWidth (fcount * fwidth) cap 1 = _
  rw [candWidth, Nat.one_mul]

/-- A WSEARCH with no answer at hand waits at its first candidate, where that one is evaluated. -/
theorem WsearchOk.waits {src fcount fwidth fheight pal palLen scratch scrLen log logLen : Nat} {s : State}
    (ok : WsearchOk src fcount fwidth fheight pal palLen scratch scrLen log logLen s) :
    let c := searchOf src fcount fwidth fheight pal palLen scratch log s.wsCap.toNat
    SearchOk s.cfg c → s.replies = [] → (s.wz = false ∨ c.width * c.height = c.total) →
      exec (.wsearch src fcount fwidth fheight pal palLen scratch scrLen log logLen) s =
        .next (s.clearSearch.atWait c) := by
  intro c h h0 heval
  obtain ⟨n, hn⟩ : ∃ n, c.nCands = n + 1 := Nat.exists_eq_add_one.2 h.kLe
  have hloop : wsearchEffect src fcount fwidth fheight pal palLen scratch log s =
      searchLoop c.nCands c s.clearSearch := rfl
  rw [exec_wsearch ok, hloop, hn, searchLoop_waits (h.not_skips (s := s.clearSearch) heval) h0]

/-! ### The candidates after an answer (43_optimizer.md R181, R182, R186) -/

theorem SearchOk.withOrdinal {cfg : Config} {c : Search} (h : SearchOk cfg c) {k : Nat} (h1 : 1 ≤ k)
    (h2 : k ≤ c.nCands) : SearchOk cfg { c with k := k } :=
  { h with kPos := h1, kLe := h2 }

/-- A search that goes on with an answer OK = 1, where the filter skips the candidates before the k-th, stands at the
k-th; only WS_CUR_W and WS_CUR_K have changed since the answer. -/
theorem resumeSearch_reaches {c : Search} {s : State} {r : EncReply} {k : Nat} (h : SearchOk s.cfg c) (hr : r.ok = true)
    (hlt : c.k < k) (hle : k ≤ c.nCands)
    (hskip : ∀ j, c.k < j → j < k → s.wz = true ∧ candCells c.step c.total c.cap j ≠ c.total) :
    ∃ w j, resumeSearch c r s =
      searchLoop (c.nCands - k + 1) { c with k := k } { s.takeReply c r with wsCurW := w, wsCurK := j } := by
  have hl : c.last = false := by
    rw [← Bool.not_eq_true, h.last_iff]
    omega
  have hcfg : (s.takeReply c r).cfg = s.cfg := s.takeReply_cfg c r
  have hwz : (s.takeReply c r).wz = s.wz := (s.takeReply_keeps c r).wz
  have hnext : SearchOk (s.takeReply c r).cfg c.next := by
    rw [hcfg]
    exact h.next (by rw [hl]; nofun)
  have hstands : c.next.k + (k - c.next.k) = k := Nat.add_sub_cancel' hlt
  obtain ⟨w, j, heq⟩ := searchLoop_skips (m := k - c.next.k) (n := c.nCands - c.k) hnext (hstands.trans_le hle)
    (by rw [Search.next_k]; omega) fun j h1 h2 => hwz ▸ hskip j h1 (hstands ▸ h2)
  refine ⟨w, j, ?_⟩
  rw [resumeSearch_of_more s hr hl, heq, hstands, show c.nCands - c.k - (k - c.next.k) = c.nCands - k + 1 by
    rw [Search.next_k]
    omega]
  rfl

theorem State.takeReply_current (s : State) (c : Search) (r : EncReply) :
    (s.takeReply c r).wsCurW = s.wsCurW ∧ (s.takeReply c r).wsCurK = s.wsCurK := by
  rcases s.takeReply_cases c r with ⟨-, heq⟩ | ⟨-, -, heq⟩ | ⟨-, -, -, heq⟩ <;> rw [heq] <;> exact ⟨rfl, rfl⟩

/-- A search that goes on with an answer OK = 1, where the filter skips every candidate left, completes; WS_CUR_W and
WS_CUR_K stand at the last candidate. -/
theorem resumeSearch_finishes {c : Search} {s : State} {r : EncReply} (h : SearchOk s.cfg c) (hr : r.ok = true)
    (hskip : ∀ j, c.k < j → j ≤ c.nCands → s.wz = true ∧ candCells c.step c.total c.cap j ≠ c.total) :
    ∃ w j d, resumeSearch c r s = State.finishSearch { s.takeReply c r with wsCurW := w, wsCurK := j } d ∧
      (c.k = c.nCands → w = s.wsCurW ∧ j = s.wsCurK) ∧
      (c.k < c.nCands → w.toNat = c.cap ∧ j.toNat = c.nCands) := by
  rcases Nat.lt_or_eq_of_le h.kLe with hlt | heq
  · obtain ⟨w, j, hreach⟩ := resumeSearch_reaches h hr hlt (Nat.le_refl _) fun j h1 h2 => hskip j h1 (Nat.le_of_lt h2)
    have hd : SearchOk s.cfg { c with k := c.nCands } := h.withOrdinal (h.kPos.trans h.kLe) (Nat.le_refl _)
    have hlast : Search.last { c with k := c.nCands } = true := hd.last_iff.2 rfl
    have hskips := (hd.skips_iff (s := { s.takeReply c r with wsCurW := w, wsCurK := j })).2
      ((s.takeReply_keeps c r).wz ▸ hskip c.nCands hlt (Nat.le_refl _))
    have hwidth : Search.width { c with k := c.nCands } = c.cap := if_pos (decide_eq_true_iff.1 hlast)
    rw [searchLoop_skips_last hskips hlast] at hreach
    refine ⟨_, _, _, hreach, fun heq => absurd heq (Nat.ne_of_lt hlt), fun _ => ⟨?_, ?_⟩⟩
    · rw [hwidth]
      exact Nat.mod_eq_of_lt h.capWord
    · exact Nat.mod_eq_of_lt h.nCands_word
  · refine ⟨s.wsCurW, s.wsCurK, c, ?_, fun _ => ⟨rfl, rfl⟩, fun hlt => absurd heq (Nat.ne_of_lt hlt)⟩
    obtain ⟨hw, hj⟩ := s.takeReply_current c r
    rw [resumeSearch_of_last s hr (h.last_iff.2 heq), ← hw, ← hj]

/-- What an answer writes does not meet the source. -/
theorem WaitOk.read_takeReply_source {s : State} {c : Search} (h : WaitOk s c) (r : EncReply) {n : Nat}
    (hn : n < c.total) : (s.takeReply c r).mem.read (c.src + n) = s.mem.read (c.src + n) := by
  have hscratch := h.search.scratchSrc
  have hlog := h.search.logSrc
  exact (SearchWrites.takeReply h r).outside _ (by omega) (by omega)

/-- Settles O42: one round of the loop at the first candidate that is evaluated, or the end of the loop where there is
none. -/
theorem wsearchSendsFirstRequest : Obligations.WsearchSendsFirstRequest := by
  refine ⟨fun src fcount fwidth fheight pal palLen scratch scrLen log logLen w h s hl ok h0 hw hh heval => ?_,
    fun c d r w h s hwait hp hreplies hr hd hlt hle hskip hw hh heval => ?_,
    fun c r s hwait hp hreplies hr hskip => ?_⟩
  · obtain ⟨hsearch, -, -⟩ := ok.start (Config.memSize_le hl)
    rw [← searchOf_width src fcount fwidth fheight pal palLen scratch log] at hw
    subst hw
    obtain rfl : h = (searchOf src fcount fwidth fheight pal palLen scratch log s.wsCap.toNat).height := hh
    exact ⟨_, ok.waits hsearch h0 heval, rfl, rfl, rfl, Nat.mod_eq_of_lt hsearch.width_word, rfl, rfl,
      rfl, rfl, rfl, rfl, h0, rfl, fun a ha => hsearch.read_atWait_outside ha,
      fun n hn => hsearch.read_atWait_raster hn⟩
  · obtain ⟨k, rfl⟩ : ∃ k, d = { c with k := k } := ⟨d.k, hd⟩
    obtain rfl : w = Search.width { c with k := k } := hw
    obtain rfl : h = Search.height { c with k := k } := hh
    obtain ⟨w, j, hreach⟩ := resumeSearch_reaches (s := { s with replies := [] }) hwait.search hr hlt hle hskip
    rw [State.takeReply_replies_ok s c [] hr] at hreach
    have hat : SearchOk s.cfg { c with k := k } := hwait.search.withOrdinal (Nat.one_le_of_lt hlt) hle
    rw [searchLoop_waits (hat.not_skips ((s.takeReply_keeps c r).wz ▸ heval)) rfl] at hreach
    refine ⟨_, (engineStep_of_reply hp hreplies).trans (congrArg _ hreach), rfl, fun n hn =>
      (hat.read_atWait_raster hn).trans ?_, fun a ha => hat.read_atWait_outside ha⟩
    exact ite_congr rfl (fun hn => hwait.read_takeReply_source r hn) fun _ => rfl
  · obtain ⟨w, j, d, hfinish, hlast, hmore⟩ :=
      resumeSearch_finishes (s := { s with replies := [] }) hwait.search hr hskip
    rw [State.takeReply_replies_ok s c [] hr] at hfinish
    obtain ⟨resW, resH, waste, heq⟩ :=
      State.finishSearch_eq { s.takeReply c r with replies := [], wsCurW := w, wsCurK := j } d
    rw [heq] at hfinish
    have hends := (s.takeReply_ends c r).1 hr
    exact ⟨_, (engineStep_of_reply hp hreplies).trans (congrArg _ hfinish), rfl, congrArg (· + 64) hends.cmdPtr,
      congrArg (· + 1) hends.cmdCount, rfl, rfl, rfl, hlast, hmore⟩

/-! ### The optimum (43_optimizer.md R188) -/

section Optimum

variable {src fcount fwidth fheight pal palLen scratch scrLen log logLen : Nat} {s : State}

/-- A search that starts has no candidate behind it. -/
theorem WsearchOk.searchPoint (ok : WsearchOk src fcount fwidth fheight pal palLen scratch scrLen log logLen s)
    (hl : s.cfg.legal = true) :
    let c := searchOf src fcount fwidth fheight pal palLen scratch log s.wsCap.toNat
    SearchPoint c.step c.total c.cap s.wz s.replies c c s.clearSearch := by
  intro c
  exact {
    ok := (ok.start (Config.memSize_le hl)).search
    same := rfl
    st := rfl
    tt := rfl
    cp := rfl
    tr := {
      wz := rfl
      rep := rfl
      cands := rfl
      emits := Nat.le_refl 0
      zero := fun _ => ⟨rfl, rfl, rfl, rfl⟩
      best := fun h => absurd rfl h } }

/-- A WSEARCH with an answer OK = 1 at hand for every candidate it evaluates ends at the first smallest. -/
theorem WsearchOk.optimum (ok : WsearchOk src fcount fwidth fheight pal palLen scratch scrLen log logLen s)
    (hl : s.cfg.legal = true) {ev : List Nat}
    (hev : ev = evaluated s.wz (fcount * fwidth) (fcount * fwidth * fheight) s.wsCap.toNat)
    (hlen : ev.length ≤ s.replies.length) (hok : ∀ r ∈ s.replies.take ev.length, r.ok = true) :
    SearchResult (fcount * fwidth) (fcount * fwidth * fheight) s.wsCap.toNat s.wz s.replies ev
      (wsearchEffect src fcount fwidth fheight pal palLen scratch log s) := by
  have hpoint := ok.searchPoint hl
  exact searchLoop_optimum hpoint hev hlen hok (Nat.sub_lt (hpoint.ok.kPos.trans hpoint.ok.kLe) Nat.one_pos)

/-- The best registers as numbers, and the best candidate's waste. -/
theorem BestOf.numbers {S T CAP : Nat} {R : List EncReply} {L : List Nat} {u : State} (h : BestOf S T CAP R L u)
    (hs : 0 < S) (hc : 0 < CAP) (hcap : CAP < 2 ^ 32) (htotal : T < 2 ^ 32) :
    ∃ j < L.length, ∃ k r, L[j]? = some k ∧ R[j]? = some r ∧ u.wsBestSize = r.value ∧
      (∀ i r', i < L.length → R[i]? = some r' → r.value.toNat ≤ r'.value.toNat) ∧
      (∀ i r', i < j → R[i]? = some r' → r.value.toNat < r'.value.toNat) ∧
      u.wsBestW.toNat = candWidth S CAP k ∧ u.wsBestH.toNat = rasterHeight T (candWidth S CAP k) ∧
      u.wsBestW.toNat * u.wsBestH.toNat - T < 2 ^ 32 := by
  obtain ⟨j, hj, k, r, hk, hr, hsize, hmin, hfirst, hw, hh, h1, -⟩ := h.ex
  have hpos := candWidth_pos hs hc h1
  have hcells := mul_rasterHeight_lt (total := T) hpos
  have hle := candWidth_le S CAP k
  have hw' : u.wsBestW.toNat = candWidth S CAP k := by
    rw [hw]
    exact Nat.mod_eq_of_lt (Nat.lt_of_le_of_lt hle hcap)
  have hh' : u.wsBestH.toNat = rasterHeight T (candWidth S CAP k) := by
    rw [hh]
    exact Nat.mod_eq_of_lt (Nat.lt_of_le_of_lt (rasterHeight_le hpos) htotal)
  refine ⟨j, hj, k, r, hk, hr, hsize, hmin, hfirst, hw', hh', ?_⟩
  rw [hw', hh']
  omega

end Optimum

theorem MoveEnd.completed {s t : State} (h : MoveEnd s t) (hp : t.phase = .fetch) :
    t.cmdPtr = s.cmdPtr + 64 ∧ t.cmdCount = s.cmdCount + 1 ∧ t.err = s.err ∧ t.errCode = s.errCode ∧
      t.errInfo = s.errInfo := by
  cases h with
  | completes phase done ptr count err code info => exact ⟨ptr, count, err, code, info⟩
  | ends phase | fails phase | waits c phase =>
    rw [hp] at phase
    cases phase

/-- Settles O43: the loop keeps the first smallest answer in the best registers, and completion copies it to RES_*. -/
theorem wsearchFindsOptimum : Obligations.WsearchFindsOptimum := by
  intro src fcount fwidth fheight pal palLen scratch scrLen log logLen step total cap ev s hl ok hstep htotal hcap hev
    hlen hok
  subst hstep htotal hcap
  have hres := ok.optimum hl hev hlen hok
  have hsearch := (ok.start (Config.memSize_le hl)).search
  have hframe := (exec_wsearch_keeps (exec_wsearch ok)).endFrame
  obtain ⟨-, -, -, hends⟩ := exec_ends (exec_wsearch ok)
  obtain ⟨hptr, hcount, herr, hcode, hinfo⟩ := hends.completed hres.ph
  rw [herr, hcode, hinfo] at hframe
  refine ⟨_, exec_wsearch ok, hframe, hres.ph, hptr, hcount, hres.rep, hres.cands, hres.ck, hres.cw, hres.zero,
    fun hne => ?_⟩
  obtain ⟨hbest, hresW, hresH, hresWaste⟩ := hres.best hne
  obtain ⟨j, hj, k, r, hk, hr, hsize, hmin, hfirst, hw, hh, hword⟩ :=
    hbest.numbers hsearch.stepPos hsearch.capPos hsearch.capWord hsearch.totalWord
  refine ⟨j, hj, k, r, hk, hr, hsize, hmin, hfirst, hw, hh, hresW, hresH, ?_, hbest.em⟩
  rw [hresWaste, BitVec.toNat_ofNat, Nat.mod_eq_of_lt hword, hw, hh]
  rfl

end Sys2Proof.Machine
end

section
/-! PROOFS. The statements of the exceptions family (spec/60_exceptions.md): the interrupt line, and what an error leaves. -/

namespace Sys2Proof.Machine

open Sys2Proof Sys2Proof.Claims

/-! ### The interrupt line (60_exceptions.md R209, R210) -/

theorem State.irq_eq (s : State) : s.irq = (s.irqEn && (s.done || s.err)) := rfl

theorem StatusOk.irq_of_busy {s : State} (h : StatusOk s) (hb : s.busy = true) : s.irq = false := by
  obtain ⟨hdone, herr⟩ := h.busyClear hb
  simp [State.irq_eq, hdone, herr]

/-- A move of a busy engine, which starts with both flags 0, sets one of them exactly when it ends the run. -/
theorem StatusOk.flags_after_move {s t : State} (h : StatusOk s) (hb : s.busy = true) (ends : MoveEnd s t) :
    (t.done || t.err) = !t.busy := by
  obtain ⟨hdone, herr⟩ := h.busyClear hb
  cases ends with
  | ends phase done => simp [State.busy, phase, done]
  | completes phase done ptr count err => simp [State.busy, phase, done, err, hdone, herr]
  | fails phase done ptr count w hh waste err => simp [State.busy, phase, err]
  | waits c phase done same => simp [State.busy, phase, done, same.err, hdone, herr]

/-- Settles O19: no move touches IRQ_EN, and how it ends gives the flags. -/
theorem interruptLine : Obligations.InterruptLine := by
  refine ⟨State.irq_eq, fun s t hok hb hmove => ⟨hok.irq_of_busy hb, ?_⟩⟩
  obtain ⟨hkeeps, hends, -⟩ := engineStep_ends hmove (State.busy_iff.1 hb)
  rw [t.irq_eq, hkeeps.irqEn, hok.flags_after_move hb hends]

/-! ### Errors are precise (60_exceptions.md R202, R203, R204) -/

/-- A move that changes ERR is a move of a busy engine. -/
theorem phase_ne_idle_of_err_changed {s t : State} (h : engineStep s = .next t) (herr : t.err ≠ s.err) :
    s.phase ≠ .idle := by
  intro hp
  rw [engineStep_of_idle hp] at h
  cases h
  exact herr rfl

/-- Settles O21: of the ways a move can end, only a failure changes ERR. -/
theorem errorsArePrecise : Obligations.ErrorsArePrecise := by
  intro s t hs hmove ht
  have herr : t.err ≠ s.err := by simp [hs, ht]
  obtain ⟨-, hends, -⟩ := engineStep_ends hmove (phase_ne_idle_of_err_changed hmove herr)
  cases hends with
  | ends phase done same => exact absurd same.err herr
  | completes phase done ptr count err => exact absurd err herr
  | fails phase done ptr count w h waste err code only =>
    exact ⟨phase, done, ptr, count, w, h, waste, code, only.resolve_left⟩
  | waits c phase done same => exact absurd same.err herr

end Sys2Proof.Machine
end

section
/-! PROOFS. The statements of the reset family (spec/70_reset_and_hazards.md): what a reset leaves of the state, and what a reset
during a run leaves of memory. -/

namespace Sys2Proof.Machine

open Sys2Proof Sys2Proof.Claims

/-! ### The regions that the run would write (70_reset_and_hazards.md R231; 20_memory.md R66) -/

/-- The regions of the commands so far, and of those to come. -/
theorem wouldWrite_iff_written_or_toCome {s : State} {a : Nat} :
    WouldWrite s a ↔ (∃ q ∈ s.written, q.contains a = true) ∨ ∃ q ∈ s.toCome, q.contains a = true := by
  simp only [WouldWrite, State.wouldWrite, List.mem_append, or_and_right, exists_or]

/-- A command that ends without an error, a WSEARCH too, has passed its checks. -/
theorem check_passes_of_err_eq_false {i : Instr} {s u : State} (h : exec i s = .next u) (hu : u.err = false) :
    checkOf i s = none := by
  rcases exec_cases i s with ⟨e, -, hexec⟩ | ⟨hcheck, -⟩
  · obtain rfl := Host.Outcome.next.inj (h.symm.trans hexec)
    simp at hu
  · exact hcheck

/-- Past its checks no command raises ERR but a WSEARCH. -/
theorem err_eq_of_check_passes {i : Instr} {s u : State} (h : exec i s = .next u) (hcheck : checkOf i s = none)
    (hsearch : ∀ a b c d e f g h k l, i ≠ .wsearch a b c d e f g h k l) : u.err = s.err := by
  obtain rfl := Host.Outcome.next.inj (h.symm.trans (exec_of_check hcheck))
  by_cases hend : i = .endList
  · subst hend
    rfl
  · obtain ⟨m, acc, cursor, w, hh, waste, heq, -⟩ := effectOf_complete i s hend hsearch
    rw [heq]
    rfl

/-- A command other than WSEARCH raises ERR exactly where one of its checks fails. -/
theorem err_iff_check_fails {i : Instr} {s u : State} (hs : s.err = false) (h : exec i s = .next u)
    (hsearch : ∀ a b c d e f g h k l, i ≠ .wsearch a b c d e f g h k l) :
    u.err = true ↔ (checkOf i s).isSome = true := by
  constructor
  · intro hu
    by_contra hcheck
    simp [err_eq_of_check_passes h (by simpa using hcheck) hsearch, hs] at hu
  · intro hcheck
    by_contra hu
    simp [check_passes_of_err_eq_false h (by simpa using hu)] at hcheck

/-! ### Reset (70_reset_and_hazards.md R230, R231) -/

/-- A reset puts the reset values over a state that differs from the present one in memory and draws during a run, and in
the records of what the host has not seen while idle. -/
theorem State.assertReset_eq (s : State) :
    ∃ u : State, s.assertReset = u.resetBlock ∧ u.cfg = s.cfg ∧ s.draws ≤ u.draws ∧ (s.busy = false → u.mem = s.mem) := by
  by_cases hbusy : s.busy = true
  · obtain ⟨m, n, heq, hn⟩ := State.drawRegions_eq s.wouldWrite s
    refine ⟨s.drawRegions s.wouldWrite, by rw [State.assertReset, if_pos hbusy], ?_, ?_, by simp [hbusy]⟩ <;> rw [heq]
    exact hn
  · exact ⟨{ s with unseen := s.written ++ s.unseen }, by rw [State.assertReset, if_neg hbusy], rfl, Nat.le_refl _,
      fun _ => rfl⟩

/-- Every register has its reset value, whatever the state before. -/
@[simp] theorem State.readReg_resetBlock (s : State) (off width : Nat) :
    s.resetBlock.readReg off width = State.reset.readReg off width := rfl

/-- Settles O55: each field is that of `State.resetBlock`, over the memory and the draws that `State.assertReset_eq` gives; that
the accumulators are new free values is log 10, that the answers at hand are dropped is log 17. -/
theorem resetEffect : Obligations.ResetEffect := by
  intro s
  obtain ⟨u, heq, hcfg, hdraws, hmem⟩ := s.assertReset_eq
  refine ⟨u.resetBlock, ?_, u.readReg_resetBlock, rfl, rfl, rfl, rfl, ⟨u.draws, hdraws, rfl, rfl⟩, hcfg, hmem⟩
  rw [handle, heq]

/-- A byte outside the regions of a run stays at a reset, and a byte of them is one of the reset's draws. -/
theorem State.read_assertReset_of_busy {s : State} (hbusy : s.busy = true) (a : Nat) :
    (¬WouldWrite s a → s.assertReset.mem.read a = s.mem.read a) ∧
      (WouldWrite s a → ∃ n, s.draws ≤ n ∧ n < s.assertReset.draws ∧ s.assertReset.mem.read a = Config.freeByte n) := by
  rw [State.assertReset, if_pos hbusy]
  simp only [State.resetBlock_mem, State.resetBlock_draws]
  constructor
  · intro hout
    exact State.read_drawRegions_outside fun q hq => Bool.eq_false_iff.2 fun hc => hout ⟨q, hq, hc⟩
  · intro hin
    obtain ⟨n, hlo, hhi, hread⟩ := State.read_drawRegions hin
    exact ⟨n, hlo, by omega, hread⟩

/-- At a fetch of a command other than WSEARCH, the run would write what it has written, and, unless the command fails, the
command's regions and those to come after it. -/
theorem wouldWrite_fetch_iff {s u : State} {i : Instr} (hp : s.phase = .fetch) (hc : s.fetchCheck = none)
    (hd : decode s.fetchWords = .ok i) (hs : s.err = false) (h : exec i s = .next u)
    (hsearch : ∀ a b c d e f g h k l, i ≠ .wsearch a b c d e f g h k l) (a : Nat) :
    (u.err = false → (WouldWrite s a ↔ (∃ q ∈ writes i, q.contains a = true) ∨ WouldWrite u a)) ∧
      (u.err = true → (WouldWrite s a ↔ ∃ q ∈ s.written, q.contains a = true)) := by
  have herr := err_iff_check_fails hs h hsearch
  have hcome := State.toCome_fetch hp hc hd (asksEncoder_eq_false.2 hsearch) h
  obtain ⟨-, -, hwritten, -⟩ := exec_ends h
  constructor
  · intro hu
    rw [if_neg (by simp [← herr, hu])] at hcome
    simp only [wouldWrite_iff_written_or_toCome, hcome, hwritten, List.mem_append, or_and_right, exists_or]
    exact or_left_comm
  · intro hu
    rw [if_pos (herr.1 hu)] at hcome
    simp [wouldWrite_iff_written_or_toCome, hcome]

/-- Settles O56: the draws cover the regions of `State.wouldWrite`, which follow the command list. -/
theorem resetDuringRun : Obligations.ResetDuringRun := by
  refine ⟨fun s t hbusy hreset a => ?_, fun s a hw => wouldWrite_iff_written_or_toCome.2 (.inl hw),
    fun s u i hp haligned hfits hdecode hs h => ?_⟩
  · obtain rfl := Host.Outcome.next.inj hreset
    exact State.read_assertReset_of_busy hbusy a
  · have hc : s.fetchCheck = none := fetchCheck_eq_none.2 ⟨haligned, hfits⟩
    have hd := decode_fetchWords hdecode
    refine ⟨fun hu a => ?_, fun hsearch => ?_⟩
    · rintro ⟨q, hq, ha⟩
      have hcome := State.writes_toCome hp hc hd (check_passes_of_err_eq_false h hu) q hq
      exact wouldWrite_iff_written_or_toCome.2 (.inr ⟨q, hcome, ha⟩)
    · have hiff := wouldWrite_fetch_iff hp hc hd hs h hsearch
      exact ⟨fun hu a => (hiff a).1 hu, fun hu a => (hiff a).2 hu⟩

end Sys2Proof.Machine
end
